-- ==== Sys2Proof/Word.lean ====
section
/-! DEFINITION. The word types of the hash (00_scope.md R6, R8): 32-bit words, bytes, the 8-word chaining value
and the 16-word message block. All hash arithmetic is `BitVec` addition (modulo 2^32), exclusive or and shifts. -/

namespace Sys2Proof

/-- A 32-bit unsigned word; `+` is addition modulo 2^32 (R9). -/
abbrev Word := BitVec 32

/-- One byte of input, output or internal memory. -/
abbrev Byte := BitVec 8

/-- A chaining value: 8 words (R6). -/
abbrev CV := Vector Word 8

/-- A message block, a compression state or an output block: 16 words (R6). -/
abbrev Block := Vector Word 16

end Sys2Proof
end

