-- ==== Sys2Proof/Config.lean ====
section
/-! DEFINITION. What an implementation fixes (00_scope.md R6, R7; 93_implementation_defined.md section 3), the names
of the command errors (60_exceptions.md R260), and the model's free values: opaque constants with no body, so that
every proof holds whatever they are. -/

namespace Sys2Proof

/-- The errors a command can end in (R260); code 0 (OK) is success and has no constructor here. -/
inductive CmdError where
  | illegalOpcode         -- 1, decode (R263)
  | reservedBits          -- 2, decode (R264)
  | finalized             -- 3, APPEND and FINALIZE (R267)
  | notFinalized          -- 4, XOF_BLOCK (R267)
  | appendLength          -- 5, APPEND (R267)
  | invalidOutputLength   -- 6, FINALIZE (R266)
  | xofRange              -- 7, XOF_BLOCK (R267)
  | counterOverflow       -- 8, APPEND (R265)
deriving DecidableEq, Repr

namespace Config

/-- Bytes of the pending buffer BUF: `BUF_BYTES` (R7). -/
abbrev bufBytes : Nat := 1024

/-- Entries of the chaining-value stack: `CV_STACK_DEPTH` (R7). -/
abbrev stackDepth : Nat := 64

/-- The most bytes one APPEND takes: `APPEND_MAX` (R7). -/
abbrev appendMax : Nat := 64

/-- Bytes of a block (R6). -/
abbrev blockBytes : Nat := 64

/-- Bytes of the register window (R7, R60). -/
abbrev windowBytes : Nat := 4096

/-- The 4096-byte page the platform puts the window in: the open parameter of R60. FREE VALUE, log 1. -/
opaque b3Page : Nat

/-- `B3_BASE`, a multiple of 4096 left open by R60. Log 1. -/
def b3Base : Nat := windowBytes * b3Page

/-- The latency parameter of R295 and R305 (D22): how many further host steps pass before the completion step of
the command issued at the given draw. Any finite number. FREE VALUE, log 2. -/
opaque latency : Nat → Nat

/-- The unspecified value of a debug read of stale BUF bytes or a stale STACK entry (R69): one fresh word per
read, indexed by the number of draws so far. FREE VALUE, log 3. -/
opaque freeWord : Nat → Word

/-- The unspecified contents of BUF and STACK after reset (R290), by window offset. FREE VALUE, log 4. -/
opaque powerOnByte : Nat → Byte

end Config
end Sys2Proof
end

