-- ==== Sys2Proof/Syntax.lean ====
section
/-! DEFINITION. The five commands (30_encoding.md R94), one constructor per row of spec/opcode_table.json. All other
operands are registers, not fields of the command word (R92). -/

namespace Sys2Proof

/-- A decoded command. -/
inductive Instr where
  /-- INIT (OP 0x01), `newHasher()`: R190. -/
  | init
  /-- APPEND (OP 0x02): take `n` bytes from the IN window; `n` is the N field, 7 bits (R91, R92): R192. -/
  | append (n : Nat)
  /-- FINALIZE (OP 0x03): R220. -/
  | finalize
  /-- XOF_BLOCK (OP 0x04): R230. -/
  | xofBlock
  /-- COMPRESS (OP 0x05): `t` is the T bit, the `truncate` operand (R91, R92): R131. -/
  | compress (t : Bool)
deriving DecidableEq, Repr

end Sys2Proof
end

