-- ==== Sys2Proof/WellFormed.lean ====
section
/-! DEFINITION. Which commands have an encoding: only APPEND has an operand that may be out of the field's range. -/

namespace Sys2Proof

/-- A command that can be encoded: `append N` needs N in 0..127, "An assembler refuses `append N` with N > 127"
(R97). N in 65..127 is encodable, and rejected when it executes (R92). -/
def Instr.wellFormed : Instr → Bool
  | .init => true
  | .append n => decide (n ≤ 127)
  | .finalize => true
  | .xofBlock => true
  | .compress _ => true

end Sys2Proof
end

