-- ==== Sys2Proof/Decode.lean ====
section
/-! DEFINITION. The decoder of the command word (30_encoding.md R91 to R95), the opcode map as a table of rows
(R94), and the encoder (R97). -/

namespace Sys2Proof

/-- The OP field, bits 7:0 (R91). -/
def opField (w : Word) : BitVec 8 := w.extractLsb' 0 8

/-- The N field, bits 14:8, as the unsigned count `zext_64(cmd[14:8])` (R91, R92). -/
def nField (w : Word) : Nat := (w.extractLsb' 8 7).toNat

/-- The T field, bit 15, read as a Boolean (R91, R92). -/
def tField (w : Word) : Bool := w.getLsbD 15

/-- The bits of the word that the opcode uses (R93): OP always, N for APPEND, T for COMPRESS. -/
def usedBits (op : BitVec 8) : Word :=
  if op = 0x02 then 0x00007FFF else if op = 0x05 then 0x000080FF else 0x000000FF

/-- Decode (R93): total; every word selects exactly one command, or ILLEGAL_OPCODE, or RESERVED_BITS, and the
opcode is checked first. -/
def decode (w : Word) : Except CmdError Instr :=
  let op := opField w
  if op ≠ 0x01 ∧ op ≠ 0x02 ∧ op ≠ 0x03 ∧ op ≠ 0x04 ∧ op ≠ 0x05 then .error .illegalOpcode
  else if w &&& ~~~usedBits op ≠ 0 then .error .reservedBits
  else if op = 0x01 then .ok .init
  else if op = 0x02 then .ok (.append (nField w))
  else if op = 0x03 then .ok .finalize
  else if op = 0x04 then .ok .xofBlock
  else .ok (.compress (tField w))

/-- One row of the opcode map (R94): a word `w` selects the row when `(w & mask) = match`. -/
structure OpRow where
  mnemonic : String
  matchBits : Word
  mask : Word
deriving DecidableEq, Repr

/-- The word selects the row (R94). -/
def OpRow.selects (r : OpRow) (w : Word) : Bool := w &&& r.mask == r.matchBits

/-- The opcode map of R94. -/
def opcodeMap : List OpRow :=
  [⟨"INIT", 0x00000001, 0xFFFFFFFF⟩, ⟨"APPEND", 0x00000002, 0xFFFF80FF⟩, ⟨"FINALIZE", 0x00000003, 0xFFFFFFFF⟩,
   ⟨"XOF_BLOCK", 0x00000004, 0xFFFFFFFF⟩, ⟨"COMPRESS", 0x00000005, 0xFFFF7FFF⟩]

/-- The row of the opcode map that a command belongs to (R94). -/
def rowOf : Instr → OpRow
  | .init => ⟨"INIT", 0x00000001, 0xFFFFFFFF⟩
  | .append _ => ⟨"APPEND", 0x00000002, 0xFFFF80FF⟩
  | .finalize => ⟨"FINALIZE", 0x00000003, 0xFFFFFFFF⟩
  | .xofBlock => ⟨"XOF_BLOCK", 0x00000004, 0xFFFFFFFF⟩
  | .compress _ => ⟨"COMPRESS", 0x00000005, 0xFFFF7FFF⟩

/-- The word of a well-formed command (R97): `append N` is `0x00000002 | (N << 8)`, `compress.t` is 0x00008005. -/
def encode : Instr → Word
  | .init => 0x00000001
  | .append n => 0x00000002 ||| (BitVec.ofNat 32 n <<< 8)
  | .finalize => 0x00000003
  | .xofBlock => 0x00000004
  | .compress false => 0x00000005
  | .compress true => 0x00008005

/-- The command word with the table's bit numbering: one 32-bit word, bit 0 least significant (R8, R90); bits at
`nbits` and above are 0. -/
def tableWord (nbits w : Nat) : Word := BitVec.ofNat 32 (w % 2 ^ nbits)

/-- The command the decoder reads from a word given with the opcode table's bit numbering; a number that does not
fit the one 32-bit format (R90) is no command. -/
def decodeTableWord (nbits w : Nat) : Option Instr :=
  if w % 2 ^ nbits < 2 ^ 32 then
    match decode (tableWord nbits w) with
    | .ok i => some i
    | .error _ => none
  else none

end Sys2Proof
end

