-- ==== Sys2Proof/Machine/Bytes.lean ====
section
/-! DEFINITION. Byte order and word helpers (00_scope.md R9, R10; 20_memory.md R62): little-endian everywhere. -/

namespace Sys2Proof.Machine

/-- `LE32(b0, b1, b2, b3) = b0 | b1<<8 | b2<<16 | b3<<24` (R10). -/
def le32 (b0 b1 b2 b3 : Byte) : Word :=
  b0.setWidth 32 ||| (b1.setWidth 32 <<< 8) ||| (b2.setWidth 32 <<< 16) ||| (b3.setWidth 32 <<< 24)

/-- Byte `k` of a word, byte 0 least significant (R10, R62). -/
def wordByte (w : Word) (k : Nat) : Byte := w.extractLsb' (8 * k) 8

/-- The four bytes of a word, least significant first (R10). -/
def wordBytes (w : Word) : List Byte := [wordByte w 0, wordByte w 1, wordByte w 2, wordByte w 3]

/-- `lebytes` of a word list: each word least significant byte first, words in index order (R10). -/
def lebytes (ws : List Word) : List Byte := ws.flatMap wordBytes

/-- Word `i` of a byte list padded with zeros (R10). -/
def wordAt (bs : List Byte) (i : Nat) : Word :=
  le32 (bs.getD (4 * i) 0) (bs.getD (4 * i + 1) 0) (bs.getD (4 * i + 2) 0) (bs.getD (4 * i + 3) 0)

/-- `words(bytes)`: at most 64 bytes, zero-padded to 64, as 16 little-endian words (R10). -/
def words (bs : List Byte) : Block :=
  #v[wordAt bs 0, wordAt bs 1, wordAt bs 2, wordAt bs 3, wordAt bs 4, wordAt bs 5, wordAt bs 6, wordAt bs 7,
     wordAt bs 8, wordAt bs 9, wordAt bs 10, wordAt bs 11, wordAt bs 12, wordAt bs 13, wordAt bs 14, wordAt bs 15]

/-- `rotr(x, n)` for 0 < n < 32 (R9). -/
def rotr (x : Word) (n : Nat) : Word := (x >>> n) ||| (x <<< (32 - n))

/-- The low 32 bits of a 64-bit quantity: its LO register (R62(d)). -/
def loWord (x : BitVec 64) : Word := x.extractLsb' 0 32

/-- The high 32 bits of a 64-bit quantity: its HI register (R62(d)). -/
def hiWord (x : BitVec 64) : Word := x.extractLsb' 32 32

/-- A 64-bit quantity from its HI and LO words (R62(d)). -/
def hiLo (hi lo : Word) : BitVec 64 := hi ++ lo

end Sys2Proof.Machine
end

