-- ==== Sys2Proof/Machine/State.lean ====
section
/-! DEFINITION. The state of the block (10_state.md R20, R41), of the host agent that drives it (R21, R96), the faults
and refusals a run can end in, and the state after reset (70_reset_and_hazards.md R290). -/

namespace Sys2Proof.Machine

/-- The internal memories BUF and STACK (R25, R27), as (window offset, byte) pairs in rising order of offset: BUF byte
`i` at 0x400 + i, byte `k` of word `w` of STACK entry `e` at 0x800 + 32e + 4w + k (R41). An offset that is not listed
holds no known value: the contents are unspecified after reset (R290; log 4). -/
abbrev Memory := List Host.Cell

/-- PHASE (R23): 0 = Accepting, 1 = Finalized. -/
inductive Phase where
  | accepting
  | finalized
deriving DecidableEq, Repr

/-- One statement of a host program (R96). `width` is the access width in bytes; R96's own `wr` and `rd` have width 4,
the other widths are the accesses R65 speaks of. R96 leaves open what V of `wr OFF, V` may be: the model takes a constant word
fixed in the program, not a variable's value (DESIGN CHOICE, log 18). `reset` is the platform's reset signal (R77, R290). `keepStart` and
`keep` are the host keeping digest bytes (R100; log 13). -/
inductive HostStmt where
  | wr (off width : Nat) (v : Word)
  | rd (x : Fin 32) (off width : Nat)
  | label (l : Nat)
  | bnz (x : Fin 32) (mask : Word) (l : Nat)
  | bz (x : Fin 32) (mask : Word) (l : Nat)
  | b (l : Nat)
  | addi (x y : Fin 32) (imm : Int)
  | blt (x y : Fin 32) (l : Nat)
  | reset
  | keepStart
  | keep
deriving DecidableEq, Repr

/-- The host agent's own state (R21, R96): its program, its position in it (a list index), its variables, and the
digest bytes it has kept (R232). -/
structure HostAgent where
  prog : List HostStmt
  pos : Nat
  vars : Vector Int 32
  digest : List Byte
deriving DecidableEq, Repr

/-- Which of the unreachable internal states of R271 was met. -/
inductive Unreachable where
  /-- FINALIZE reaches rootTree with BUF_LEN = 0 (R223). -/
  | rootTreeEmptyBuffer
  /-- A ChunkProcessor call with 0 or more than 1024 bytes (R150). -/
  | chunkLength
  /-- A push onto a full stack (R271). -/
  | pushFull
  /-- A pop from an empty stack (R271). -/
  | popEmpty
  /-- A pop with CV_SP above 64: STACK has no such entry (R27; log 6). -/
  | stackIndex
  /-- A byte stored at BUF index 1024 or above: BUF has no such byte (R25; log 6). -/
  | bufferIndex
  /-- A merge whose total is 0, which would loop for ever (R172). -/
  | mergeTotalZero
deriving DecidableEq, Repr

/-- Why a run stops. -/
inductive Fault where
  /-- `BusFault(off, width)`: a host access that is not an aligned 32-bit access (R65, R270). Raised by the host's `rd`
  and `wr`. Safe: the spec gives the access an unspecified effect and asks for a fault. -/
  | busFault (off width : Nat)
  /-- A host access at offset `off` other than a STATUS read while BUSY = 1 (R297, R270). Raised by the host's `rd` and
  `wr`. Safe: the spec gives it an unspecified effect and asks for a fault. -/
  | busyAccess (off : Nat)
  /-- A host access at an offset outside the 4096-byte window (R60), which is not an address of this block. Raised by the
  host's `rd` and `wr`. Safe (log 10). -/
  | outsideWindow (off : Nat)
  /-- `UnreachableState` (R271, D35). Raised by APPEND and FINALIZE in states that no run reaches. Safe. -/
  | unreachableState (why : Unreachable)
  /-- A host branch to a label its program does not define; R96 gives it no meaning. Raised by the host's `b`, `bz`,
  `bnz` and `blt`. Safe (log 7). -/
  | undefinedLabel (l : Nat)
deriving DecidableEq, Repr

/-- Why an instruction has no meaning. -/
inductive Refusal where
  /-- An instruction that has no meaning yet; raised only by a refused arm of `exec`. No arm is refused. Safe. -/
  | notModelled (mnemonic : String)
deriving DecidableEq, Repr

/-- What the hasher works on (R23 to R28, B3S HasherState): the pending buffer, the chunk counter and the chaining-value
stack. PHASE stands in `State`; KEY is hardwired (R24). -/
structure HasherState where
  /-- BUF and STACK (R25, R27). -/
  mem : Memory
  /-- BUF_LEN (R25). -/
  bufLen : BitVec 11
  /-- CHUNK_CTR (R26). -/
  chunkCtr : BitVec 64
  /-- CV_SP (R27). -/
  cvSp : BitVec 7
deriving DecidableEq, Repr

/-- The state (R20): every element of R41's table under its own name, the host agent, and the model's own `coreDelay`
and `draws`. KEY is hardwired (R24) and so is no field: its read gives the IV. -/
structure State where
  /-- PHASE, STATUS bit 0 (R23). -/
  phase : Phase
  /-- BUSY, STATUS bit 1 (R36). -/
  busy : Bool
  /-- ERR_STICKY, STATUS bit 2 (R36). -/
  errSticky : Bool
  /-- ERRCODE[3:0] (R37). -/
  errcode : BitVec 4
  /-- BUF, BUF_LEN, CHUNK_CTR, STACK and CV_SP (R25 to R27). -/
  hasher : HasherState
  /-- OUT_VALID (R33). -/
  outValid : BitVec 7
  /-- OUTLEN (R30). -/
  outlen : BitVec 64
  /-- XOF_LEN (R31). -/
  xofLen : BitVec 64
  /-- XOF_IDX (R32). -/
  xofIdx : BitVec 64
  /-- CMP_T (R35). -/
  cmpT : BitVec 64
  /-- CMP_B (R35). -/
  cmpB : Word
  /-- CMP_D (R35). -/
  cmpD : Word
  /-- ROOT_BLEN (R29). -/
  rootBlen : Word
  /-- ROOT_FLAGS (R29). -/
  rootFlags : Word
  /-- IN[0..15] (R34). -/
  inWin : Block
  /-- CMP_H[0..7] (R35). -/
  cmpH : CV
  /-- CMP_M[0..15] (R35). -/
  cmpM : Block
  /-- OUT[0..15] (R33). -/
  out : Block
  /-- ROOT_CV[0..7] (R29). -/
  rootCv : CV
  /-- ROOT_MSG[0..15] (R29). -/
  rootMsg : Block
  /-- CMD_LATCH (R38). -/
  cmdLatch : Word
  /-- The host agent (R15, R21). -/
  host : HostAgent
  /-- MODEL: host steps left before the completion step of the command in flight (R295; log 2). -/
  coreDelay : Nat
  /-- MODEL: how many free values have been drawn (log 3). -/
  draws : Nat
deriving DecidableEq, Repr

/-- Right after reset (R290, the "reset" column of R41), with no host program loaded (log 8). -/
def State.reset : State where
  phase := .accepting
  busy := false
  errSticky := false
  errcode := 0
  hasher := { mem := [], bufLen := 0, chunkCtr := 0, cvSp := 0 }
  outValid := 0
  outlen := 32
  xofLen := 0
  xofIdx := 0
  cmpT := 0
  cmpB := 0
  cmpD := 0
  rootBlen := 0
  rootFlags := 0
  inWin := Vector.replicate 16 0
  cmpH := Vector.replicate 8 0
  cmpM := Vector.replicate 16 0
  out := Vector.replicate 16 0
  rootCv := Vector.replicate 8 0
  rootMsg := Vector.replicate 16 0
  cmdLatch := 0
  host := { prog := [], pos := 0, vars := Vector.replicate 32 0, digest := [] }
  coreDelay := 0
  draws := 0

end Sys2Proof.Machine
end

