-- ==== Sys2Proof/Machine/Flags.lean ====
section
/-! DEFINITION. The domain flags (00_scope.md R13), the STATUS word (10_state.md R36) and the result codes
(60_exceptions.md R260). The block has no condition codes (R39). -/

namespace Sys2Proof.Machine

/-- CHUNK_START (R13). -/
def chunkStart : Word := 0x1

/-- CHUNK_END (R13). -/
def chunkEnd : Word := 0x2

/-- PARENT (R13). -/
def parentFlag : Word := 0x4

/-- ROOT (R13). -/
def rootFlag : Word := 0x8

/-- A flag that is set under a condition (R152). -/
def flagIf (c : Bool) (f : Word) : Word := if c then f else 0

/-- The flags of a chunk's block (R152): CHUNK_START on the first, CHUNK_END on the last, ROOT on the last of a root
chunk; never PARENT. -/
def blockFlags (first last isRootChunk : Bool) : Word :=
  flagIf first chunkStart ||| flagIf last chunkEnd ||| flagIf (isRootChunk && last) rootFlag

/-- The result code written to ERRCODE[3:0] (R260). -/
def errorCode : CmdError → BitVec 4
  | .illegalOpcode => 1
  | .reservedBits => 2
  | .finalized => 3
  | .notFinalized => 4
  | .appendLength => 5
  | .invalidOutputLength => 6
  | .xofRange => 7
  | .counterOverflow => 8

/-- PHASE as a bit: 1 = Finalized (R23). -/
def phaseBit (p : Phase) : Bool := p == .finalized

/-- The STATUS word (R36): bit 0 PHASE, bit 1 BUSY, bit 2 ERR_STICKY, bits 31:3 zero. -/
def statusWord (s : State) : Word :=
  flagIf (phaseBit s.phase) 1 ||| flagIf s.busy 2 ||| flagIf s.errSticky 4

end Sys2Proof.Machine
end

