-- ==== Sys2Proof/Machine/Ops.lean ====
section
/-! DEFINITION. The named operations over the internal memories (R25, R27), the stack primitives (R12), the way a
command ends (R268, R296), the issue of a command (R294) and reset (R290). -/

namespace Sys2Proof.Machine

/-! ### Memory -/

/-- The byte stored at a window offset, or none where nothing has been stored since reset (R290; log 4). -/
def memRead : Memory → Nat → Option Byte
  | [], _ => none
  | (k, c) :: rest, a => if k = a then some c else memRead rest a

/-- Store a byte at a window offset, keeping the offsets in rising order. -/
def memWrite : Memory → Nat → Byte → Memory
  | [], a, b => [(a, b)]
  | (k, c) :: rest, a, b =>
    if a < k then (a, b) :: (k, c) :: rest
    else if a = k then (a, b) :: rest
    else (k, c) :: memWrite rest a b

/-- Store bytes at successive offsets. -/
def memWriteList : Memory → Nat → List Byte → Memory
  | m, _, [] => m
  | m, a, b :: bs => memWriteList (memWrite m a b) (a + 1) bs

/-- The one canonical form: offsets strictly rising. No listed byte equals what an unlisted offset reads as, because
an unlisted offset reads as no value. -/
abbrev Memory.wf (m : Memory) : Prop := m.Pairwise (fun c d => c.1 < d.1)

/-- Every listed offset belongs to BUF or STACK (R41). -/
abbrev Memory.inRange (m : Memory) : Prop := ∀ c ∈ m, 0x400 ≤ c.1 ∧ c.1 < 0x1000

/-- The byte a command reads: the stored one, or the unspecified power-on value (R290; log 4). -/
def storedByte (m : Memory) (a : Nat) : Byte := (memRead m a).getD (Config.powerOnByte a)

/-- The bytes at `n` successive offsets. -/
def storedBytes (m : Memory) (a n : Nat) : List Byte := (List.range n).map (fun i => storedByte m (a + i))

/-- The little-endian word at an offset (R41, R62). -/
def storedWord (m : Memory) (a : Nat) : Word :=
  le32 (storedByte m a) (storedByte m (a + 1)) (storedByte m (a + 2)) (storedByte m (a + 3))

/-- The window offset of BUF byte `i` (R41). -/
def bufAddr (i : Nat) : Nat := 0x400 + i

/-- The window offset of STACK entry `e` (R41). -/
def stackAddr (e : Nat) : Nat := 0x800 + 32 * e

/-- `BUF[0..n-1]` (R25). -/
def bufBytes (m : Memory) (n : Nat) : List Byte := storedBytes m (bufAddr 0) n

/-- `STACK[e]`, 8 words (R27). -/
def stackEntry (m : Memory) (e : Nat) : CV :=
  #v[storedWord m (stackAddr e), storedWord m (stackAddr e + 4), storedWord m (stackAddr e + 8),
     storedWord m (stackAddr e + 12), storedWord m (stackAddr e + 16), storedWord m (stackAddr e + 20),
     storedWord m (stackAddr e + 24), storedWord m (stackAddr e + 28)]

/-! ### The stack (R12) -/

/-- `push(cv)`: `STACK[CV_SP] <- cv; CV_SP <- CV_SP + 1` (R12); a push onto a full stack is unreachable (R271). -/
def push (cv : CV) (s : HasherState) : Except Fault HasherState :=
  if Config.stackDepth ≤ s.cvSp.toNat then .error (.unreachableState .pushFull)
  else .ok { s with mem := memWriteList s.mem (stackAddr s.cvSp.toNat) (lebytes cv.toList), cvSp := s.cvSp + 1 }

/-- `pop()`: `CV_SP <- CV_SP - 1; return STACK[CV_SP]` (R12); a pop from an empty stack is unreachable (R271), and so is
one with CV_SP above the stack's 64 entries (log 6). -/
def pop (s : HasherState) : Except Fault (CV × HasherState) :=
  if s.cvSp = 0 then .error (.unreachableState .popEmpty)
  else if Config.stackDepth < s.cvSp.toNat then .error (.unreachableState .stackIndex)
  else .ok (stackEntry s.mem (s.cvSp.toNat - 1), { s with cvSp := s.cvSp - 1 })

/-! ### The pending buffer -/

/-- `BUF[BUF_LEN] <- x; BUF_LEN <- BUF_LEN + 1` (R191, R193); BUF has 1024 bytes (R25; log 6). -/
def storeByte (x : Byte) (s : HasherState) : Except Fault HasherState :=
  if Config.bufBytes ≤ s.bufLen.toNat then .error (.unreachableState .bufferIndex)
  else .ok { s with mem := memWrite s.mem (bufAddr s.bufLen.toNat) x, bufLen := s.bufLen + 1 }

/-! ### The end of a command -/

/-- `raise CmdError(code)`: `ERRCODE <- code`, `ERR_STICKY <- 1`, `BUSY <- 0`, nothing else (R268). -/
def raiseError (e : CmdError) (s : State) : State :=
  { s with errcode := errorCode e, errSticky := true, busy := false }

/-- A command that ends in success: `ERRCODE <- 0` (R37) and `BUSY <- 0` (R296; log 11). -/
def succeed (s : State) : State := { s with errcode := 0, busy := false }

/-- A command whose work may meet an unreachable state (R271). -/
def finish (r : Except Fault State) : Host.Outcome State Fault Refusal :=
  match r with
  | .ok s => .next (succeed s)
  | .error f => .fault f

/-! ### Issue and reset -/

/-- The issue of a command: `CMD_LATCH <- w`, `BUSY <- 1` and nothing else (R294); its latency is drawn (R295; log 2). -/
def issue (w : Word) (s : State) : State :=
  { s with cmdLatch := w, busy := true, coreDelay := Config.latency s.draws, draws := s.draws + 1 }

/-- The platform's reset (R290, R291): every element of the block takes its reset value and a command in flight is
abandoned. The host agent is not the block's state and goes on (log 9). -/
def blockReset (s : State) : State := { State.reset with host := s.host, draws := s.draws }

end Sys2Proof.Machine
end

