-- ==== Sys2Proof/Machine/Operands.lean ====
section
/-! DEFINITION. Operand assembly (30_encoding.md R92): every operand but N and T is a register. -/

namespace Sys2Proof.Machine

/-- The bytes of the IN window, `lebytes(IN)`: byte `j` is `IN[j div 4][8(j mod 4)+7 : 8(j mod 4)]` (R34). -/
def inBytes (s : State) : List Byte := lebytes s.inWin.toList

/-- APPEND's bytes: bytes 0..N-1 of the IN window (R34, R192). -/
def appendOperand (n : Nat) (s : State) : List Byte := (inBytes s).take n

/-- FINALIZE's length: OUTLEN read as a signed 64-bit number (R30, R220). -/
def requestedLength (s : State) : Int := s.outlen.toInt

/-- `⌈L/64⌉` (R231). -/
def blockCount (len : Nat) : Nat := (len + 63) / 64

end Sys2Proof.Machine
end

