-- ==== Sys2Proof/Machine/Compression.lean ====
section
/-! DEFINITION. CompressionCore (40_compression_core.md R120 to R128) and the COMPRESS command (R131). -/

namespace Sys2Proof.Machine

/-- `IV[0..7]` (R7, from general knowledge; log 5). KEY is hardwired to it (R24). -/
def iv : CV :=
  #v[0x6A09E667, 0xBB67AE85, 0x3C6EF372, 0xA54FF53A, 0x510E527F, 0x9B05688C, 0x1F83D9AB, 0x5BE0CD19]

/-- `a ++ b` for two chaining values (R8): a 16-word block. -/
def cat8 (a b : CV) : Block :=
  #v[a[0], a[1], a[2], a[3], a[4], a[5], a[6], a[7], b[0], b[1], b[2], b[3], b[4], b[5], b[6], b[7]]

/-- The mixing step G on the four words `v[a], v[b], v[c], v[d]` and two message words, each line reading what the
lines before it wrote (R122). The four indices are distinct in every call (R122), so the four words suffice. -/
def mixG (a b c d mx my : Word) : Word × Word × Word × Word :=
  let a := a + b + mx
  let d := rotr (d ^^^ a) 16
  let c := c + d
  let b := rotr (b ^^^ c) 12
  let a := a + b + my
  let d := rotr (d ^^^ a) 8
  let c := c + d
  let b := rotr (b ^^^ c) 7
  (a, b, c, d)

/-- One round: four column steps, then four diagonal steps, step j taking `s[2j], s[2j+1]` (R123). -/
def round (v s : Block) : Block :=
  let (v0, v4, v8, v12) := mixG v[0] v[4] v[8] v[12] s[0] s[1]
  let (v1, v5, v9, v13) := mixG v[1] v[5] v[9] v[13] s[2] s[3]
  let (v2, v6, v10, v14) := mixG v[2] v[6] v[10] v[14] s[4] s[5]
  let (v3, v7, v11, v15) := mixG v[3] v[7] v[11] v[15] s[6] s[7]
  let (v0, v5, v10, v15) := mixG v0 v5 v10 v15 s[8] s[9]
  let (v1, v6, v11, v12) := mixG v1 v6 v11 v12 s[10] s[11]
  let (v2, v7, v8, v13) := mixG v2 v7 v8 v13 s[12] s[13]
  let (v3, v4, v9, v14) := mixG v3 v4 v9 v14 s[14] s[15]
  #v[v0, v1, v2, v3, v4, v5, v6, v7, v8, v9, v10, v11, v12, v13, v14, v15]

/-- The message permutation `s'[i] = s[P[i]]` with P = [2,6,3,10,7,0,4,13,1,11,12,5,9,14,15,8] (R124), on a list of
sixteen things of any type. -/
def permute {α : Type} (s : Vector α 16) : Vector α 16 :=
  #v[s[2], s[6], s[3], s[10], s[7], s[0], s[4], s[13], s[1], s[11], s[12], s[5], s[9], s[14], s[15], s[8]]

/-- `n` rounds, the schedule permuted after each; a permutation after the last is invisible (R124, R125). -/
def rounds : Nat → Block → Block → Block
  | 0, v, _ => v
  | n + 1, v, s => rounds n (round v s) (permute s)

/-- The initial state (R121). -/
def initState (h : CV) (t : BitVec 64) (b d : Word) : Block :=
  #v[h[0], h[1], h[2], h[3], h[4], h[5], h[6], h[7], iv[0], iv[1], iv[2], iv[3], loWord t, hiWord t, b, d]

/-- `out[i] = v[i] ⊕ v[i+8]` for i in 0..7: the new chaining value (R127). -/
def chainingHalf (v : Block) : CV :=
  #v[v[0] ^^^ v[8], v[1] ^^^ v[9], v[2] ^^^ v[10], v[3] ^^^ v[11],
     v[4] ^^^ v[12], v[5] ^^^ v[13], v[6] ^^^ v[14], v[7] ^^^ v[15]]

/-- `out[i+8] = v[i+8] ⊕ h[i]` for i in 0..7: the feed-forward half (R127). -/
def forwardHalf (v : Block) (h : CV) : CV :=
  #v[v[8] ^^^ h[0], v[9] ^^^ h[1], v[10] ^^^ h[2], v[11] ^^^ h[3],
     v[12] ^^^ h[4], v[13] ^^^ h[5], v[14] ^^^ h[6], v[15] ^^^ h[7]]

/-- A compression output (R127): words 0..7, and words 8..15, which "exist only when truncation is disabled". -/
structure CompOut where
  cv : CV
  forward : Option CV
deriving DecidableEq, Repr

/-- `compress(h, m, t, b, d, truncate)` (R120 to R127): total, pure, seven rounds. -/
def compress (h : CV) (m : Block) (t : BitVec 64) (b d : Word) (truncate : Bool) : CompOut :=
  let v := rounds 7 (initState h t b d) m
  { cv := chainingHalf v, forward := if truncate then none else some (forwardHalf v h) }

/-- The sixteen words an output puts in OUT: words 8..15 are 0 when they do not exist (R131). -/
def outWords (o : CompOut) : Block := cat8 o.cv (o.forward.getD (Vector.replicate 8 0))

/-- COMPRESS (R131): no check; OUT and OUT_VALID from the CMP_* operands. -/
def execCompress (t : Bool) (s : State) : Host.Outcome State Fault Refusal :=
  .next (succeed { s with
    out := outWords (compress s.cmpH s.cmpM s.cmpT s.cmpB s.cmpD t)
    outValid := if t then 32 else 64 })

end Sys2Proof.Machine
end

