-- ==== Sys2Proof/Machine/Chunk.lean ====
section
/-! DEFINITION. ChunkProcessor (41_chunk_processor.md R150 to R157). -/

namespace Sys2Proof.Machine

/-- What ChunkProcessor returns (R150): the last block's output and its compression inputs other than the counter.
The chunk's chaining value `cv` is `out.cv` (R154). -/
structure ChunkResult where
  preCv : CV
  lastMsg : Block
  lastBlen : Word
  lastFlags : Word
  out : CompOut
deriving DecidableEq, Repr

/-- The blocks of a chunk from one on, `more` of them after it (R151 to R154): a block that is not the last takes 64
bytes and is truncated; the last takes the bytes left, with their true count as its length. -/
def processBlocks (t : BitVec 64) (isRootChunk finalTruncate first : Bool) (cv : CV) :
    (more : Nat) → (bytes : List Byte) → ChunkResult
  | 0, bytes =>
    let m := words bytes
    let blen := BitVec.ofNat 32 bytes.length
    let flags := blockFlags first true isRootChunk
    { preCv := cv, lastMsg := m, lastBlen := blen, lastFlags := flags, out := compress cv m t blen flags finalTruncate }
  | more + 1, bytes =>
    let o := compress cv (words (bytes.take 64)) t 64 (blockFlags first false isRootChunk) true
    processBlocks t isRootChunk finalTruncate false o.cv more (bytes.drop 64)

/-- `processChunk(bytes, key, t, isRootChunk, finalTruncate)` with ⌈n/64⌉ blocks (R150, R151, R154); its domain is 1 to
1024 bytes, and a call outside it is unreachable (R150, R271). -/
def processChunk (bytes : List Byte) (key : CV) (t : BitVec 64) (isRootChunk finalTruncate : Bool) :
    Except Fault ChunkResult :=
  if bytes.length = 0 ∨ Config.bufBytes < bytes.length then .error (.unreachableState .chunkLength)
  else .ok (processBlocks t isRootChunk finalTruncate true key (blockCount bytes.length - 1) bytes)

/-- `chunkCV(bytes, t)`: the chaining value of a non-root chunk, truncated on every block (R156). -/
def chunkCV (bytes : List Byte) (t : BitVec 64) : Except Fault CV := do
  let r ← processChunk bytes iv t false true
  .ok r.out.cv

end Sys2Proof.Machine
end

