-- ==== Sys2Proof/Machine/Tree.lean ====
section
/-! DEFINITION. TreeBuilder (42_tree_builder.md R170 to R177). -/

namespace Sys2Proof.Machine

/-- `parentCV(a, b)`: counter 0, block length 64, flag PARENT, truncated (R170). -/
def parentCV (a b : CV) : CV := (compress iv (cat8 a b) 0 64 parentFlag true).cv

/-- The loop of `merge`: while the total is even, merge the two top entries (R171). 64 turns are enough for every total
from 1 to 2^64 - 1 (R172). -/
def mergeLoop : (turns total : Nat) → HasherState → Except Fault HasherState
  | 0, _, _ => .error (.unreachableState .mergeTotalZero)
  | turns + 1, total, s =>
    if total % 2 = 0 then do
      let (b, s) ← pop s
      let (a, s) ← pop s
      let s ← push (parentCV a b) s
      mergeLoop turns (total / 2) s
    else .ok s

/-- `merge(cv, total)`: push, then merge while the new total chunk count is even (R171). -/
def merge (cv : CV) (total : Nat) (s : HasherState) : Except Fault HasherState := do
  let s ← push cv s
  mergeLoop 64 total s

/-- The number of 1 bits of a number below 2^bits (R8). -/
def popcountBits : (bits n : Nat) → Nat
  | 0, _ => 0
  | bits + 1, n => n % 2 + popcountBits bits (n / 2)

/-- `popcount(n)` of a number below 2^64 (R8, R28, R173). -/
def popcount (n : Nat) : Nat := popcountBits 64 n

end Sys2Proof.Machine
end

