-- ==== Sys2Proof/Machine/Hasher.lean ====
section
/-! DEFINITION. IncrementalHasher: INIT and APPEND (43_incremental_hasher.md R190 to R197). -/

namespace Sys2Proof.Machine

/-- INIT (R190): a new, empty hasher in either phase; keeps OUTLEN, IN, CMP_*, the OUT words and the contents of BUF and
STACK. -/
def execInit (s : State) : Host.Outcome State Fault Refusal :=
  .next (succeed { s with
    phase := .accepting
    hasher := { s.hasher with bufLen := 0, chunkCtr := 0, cvSp := 0 }
    rootCv := Vector.replicate 8 0
    rootMsg := Vector.replicate 16 0
    rootBlen := 0
    rootFlags := 0
    xofLen := 0
    xofIdx := 0
    outValid := 0
    errSticky := false })

/-- `flush()` (R194): the full buffer's chaining value, with the counter before the increment, enters the tree under the
new total chunk count; the buffer is emptied and the counter incremented. -/
def flush (s : HasherState) : Except Fault HasherState := do
  let cv ← chunkCV (bufBytes s.mem 1024) s.chunkCtr
  let s ← merge cv (s.chunkCtr.toNat + 1) s
  .ok { s with bufLen := 0, chunkCtr := s.chunkCtr + 1 }

/-- `appendByte(x)` (R191): a full buffer is flushed just before the next byte is stored. -/
def appendByte (x : Byte) (s : HasherState) : Except Fault HasherState := do
  let s ← if s.bufLen = 1024 then flush s else .ok s
  storeByte x s

/-- `appendByte` over bytes in order (R192). -/
def appendBytes : List Byte → HasherState → Except Fault HasherState
  | [], s => .ok s
  | x :: xs, s => do
    let s ← appendByte x s
    appendBytes xs s

/-- APPEND N (R192): phase, then length, then counter overflow; every check precedes the first write (R268). -/
def execAppend (n : Nat) (s : State) : Host.Outcome State Fault Refusal :=
  if s.phase = .finalized then .next (raiseError .finalized s)
  else if Config.appendMax < n then .next (raiseError .appendLength s)
  else if 1024 < s.hasher.bufLen.toNat + n ∧ s.hasher.chunkCtr = BitVec.allOnes 64 then .next (raiseError .counterOverflow s)
  else finish (do
    let h ← appendBytes (appendOperand n s) s.hasher
    .ok { s with hasher := h })

end Sys2Proof.Machine
end

