-- ==== Sys2Proof/Machine/Finalizer.lean ====
section
/-! DEFINITION. Finalizer and XOF: FINALIZE and XOF_BLOCK (44_finalizer_xof.md R220 to R235). -/

namespace Sys2Proof.Machine

/-- The root node input, the root output, and the hasher with the stack entries popped (R220). -/
structure Root where
  cv : CV
  msg : Block
  blen : Word
  flags : Word
  out : CompOut
  after : HasherState
deriving DecidableEq, Repr

/-- `rootEmpty()` (R221): the one compression with block length 0. -/
def rootEmpty (s : HasherState) : Root :=
  let msg : Block := Vector.replicate 16 0
  let flags := chunkStart ||| chunkEnd ||| rootFlag
  { cv := iv, msg := msg, blen := 0, flags := flags, out := compress iv msg 0 0 flags false, after := s }

/-- `rootOneChunk()` (R222): the buffered chunk as root chunk, its last block untruncated. -/
def rootOneChunk (s : HasherState) : Except Fault Root := do
  let r ← processChunk (bufBytes s.mem s.bufLen.toNat) iv s.chunkCtr true false
  .ok { cv := r.preCv, msg := r.lastMsg, blen := r.lastBlen, flags := r.lastFlags, out := r.out, after := s }

/-- The loop of `rootTree()` (R223): `n` pops, each entry the left child and the running value the right. -/
def foldStack : (n : Nat) → CV → HasherState → Except Fault (CV × HasherState)
  | 0, run, s => .ok (run, s)
  | n + 1, run, s => do
    let (left, s) ← pop s
    foldStack n (parentCV left run) s

/-- `rootTree()` (R223): the tail chunk, then the stack folded down to its last entry, whose parent with the running
value is the root. An empty buffer is unreachable (R271). -/
def rootTree (s : HasherState) : Except Fault Root :=
  if s.bufLen = 0 then .error (.unreachableState .rootTreeEmptyBuffer)
  else do
    let tail ← chunkCV (bufBytes s.mem s.bufLen.toNat) s.chunkCtr
    let (run, s) ← foldStack (s.cvSp.toNat - 1) tail s
    let (left, s) ← pop s
    let flags := parentFlag ||| rootFlag
    .ok { cv := iv, msg := cat8 left run, blen := 64, flags := flags,
          out := compress iv (cat8 left run) 0 64 flags false, after := s }

/-- The root by case (R220): empty input, one chunk, or a tree. -/
def selectRoot (s : HasherState) : Except Fault Root :=
  if s.bufLen = 0 ∧ s.cvSp = 0 then .ok (rootEmpty s)
  else if s.cvSp = 0 then rootOneChunk s
  else rootTree s

/-- The registers a successful FINALIZE writes from its root and its length (R220). -/
def storeRoot (len : Nat) (r : Root) (s : State) : State :=
  { s with
    hasher := r.after
    rootCv := r.cv
    rootMsg := r.msg
    rootBlen := r.blen
    rootFlags := r.flags
    out := outWords r.out
    outValid := BitVec.ofNat 7 (min 64 len)
    xofLen := BitVec.ofNat 64 len
    xofIdx := 1
    phase := .finalized }

/-- FINALIZE (R220): phase, then the sign of OUTLEN, then the root. -/
def execFinalize (s : State) : Host.Outcome State Fault Refusal :=
  if s.phase = .finalized then .next (raiseError .finalized s)
  else if requestedLength s < 0 then .next (raiseError .invalidOutputLength s)
  else finish (do
    let r ← selectRoot s.hasher
    .ok (storeRoot (requestedLength s).toNat r s))

/-- `outBlock(k)`: the stored root input with only the counter varied (R226). -/
def outBlock (k : BitVec 64) (s : State) : Block :=
  outWords (compress s.rootCv s.rootMsg k s.rootBlen s.rootFlags false)

/-- XOF_BLOCK (R230): phase, then range, then output block XOF_IDX. -/
def execXofBlock (s : State) : Host.Outcome State Fault Refusal :=
  if s.phase = .accepting then .next (raiseError .notFinalized s)
  else if blockCount s.xofLen.toNat ≤ s.xofIdx.toNat then .next (raiseError .xofRange s)
  else .next (succeed { s with
    out := outBlock s.xofIdx s
    outValid := BitVec.ofNat 7 (min 64 (s.xofLen.toNat - 64 * s.xofIdx.toNat))
    xofIdx := s.xofIdx + 1 })

end Sys2Proof.Machine
end

