-- ==== Sys2Proof/Machine/Dispatch.lean ====
section
/-! DEFINITION. One arm per command: the dispatch of R93. -/

namespace Sys2Proof.Machine

def exec (i : Instr) (s : State) : Host.Outcome State Fault Refusal :=
  match i with
  | .init => Sys2Proof.Machine.execInit s
  | .append n => Sys2Proof.Machine.execAppend n s
  | .finalize => Sys2Proof.Machine.execFinalize s
  | .xofBlock => Sys2Proof.Machine.execXofBlock s
  | .compress t => Sys2Proof.Machine.execCompress t s

end Sys2Proof.Machine
end

