-- ==== Sys2Proof/Machine/Bus.lean ====
section
/-! DEFINITION. The register window (10_state.md R41) and the host's bus accesses to it (20_memory.md R60 to R70). -/

namespace Sys2Proof.Machine

/-- What stands at an aligned offset of the window (R41). `hi` tells the HI register of a 64-bit pair from the LO. -/
inductive Loc where
  | cmd
  | status
  | errcode
  | bufLen
  | chunkCtr (hi : Bool)
  | cvSp
  | outValid
  | outlen (hi : Bool)
  | xofLen (hi : Bool)
  | xofIdx (hi : Bool)
  | cmpT (hi : Bool)
  | cmpB
  | cmpD
  | rootBlen
  | rootFlags
  | reserved
  | input (i : Fin 16)
  | cmpH (i : Fin 8)
  | cmpM (i : Fin 16)
  | out (i : Fin 16)
  | key (i : Fin 8)
  | rootCv (i : Fin 8)
  | rootMsg (i : Fin 16)
  | bufView (j : Fin 256)
  | stackView (e : Fin 64) (w : Fin 8)
deriving DecidableEq, Repr

/-- The single registers at 0x000 to 0x04C, by word index (R41). -/
def locateLow : Nat → Loc
  | 0 => .cmd
  | 1 => .status
  | 2 => .errcode
  | 3 => .bufLen
  | 4 => .chunkCtr false
  | 5 => .chunkCtr true
  | 6 => .cvSp
  | 7 => .outValid
  | 8 => .outlen false
  | 9 => .outlen true
  | 10 => .xofLen false
  | 11 => .xofLen true
  | 12 => .xofIdx false
  | 13 => .xofIdx true
  | 14 => .cmpT false
  | 15 => .cmpT true
  | 16 => .cmpB
  | 17 => .cmpD
  | 18 => .rootBlen
  | 19 => .rootFlags
  | _ => .reserved

/-- The register map of R41 for an offset that is a multiple of 4 below 4096; 0x050-0x07F, 0x0E0-0x0FF and 0x200-0x3FF
are reserved (R67). -/
def locate (off : Nat) : Loc :=
  if off < 0x080 then locateLow (off / 4)
  else if off < 0x0C0 then .input (Fin.ofNat 16 ((off - 0x080) / 4))
  else if off < 0x0E0 then .cmpH (Fin.ofNat 8 ((off - 0x0C0) / 4))
  else if off < 0x100 then .reserved
  else if off < 0x140 then .cmpM (Fin.ofNat 16 ((off - 0x100) / 4))
  else if off < 0x180 then .out (Fin.ofNat 16 ((off - 0x140) / 4))
  else if off < 0x1A0 then .key (Fin.ofNat 8 ((off - 0x180) / 4))
  else if off < 0x1C0 then .rootCv (Fin.ofNat 8 ((off - 0x1A0) / 4))
  else if off < 0x200 then .rootMsg (Fin.ofNat 16 ((off - 0x1C0) / 4))
  else if off < 0x400 then .reserved
  else if off < 0x800 then .bufView (Fin.ofNat 256 ((off - 0x400) / 4))
  else .stackView (Fin.ofNat 64 ((off - 0x800) / 32)) (Fin.ofNat 8 ((off - 0x800) % 32 / 4))

/-- One half of a 64-bit register (R62(d)). -/
def halfOf (hi : Bool) (x : BitVec 64) : Word := if hi then hiWord x else loWord x

/-- A 64-bit register with one half written (R62(d), R64). -/
def setHalf (hi : Bool) (x : BitVec 64) (v : Word) : BitVec 64 := if hi then hiLo v (loWord x) else hiLo (hiWord x) v

/-- The state after a fresh free value has been drawn (log 3). -/
def drawn (s : State) : State := { s with draws := s.draws + 1 }

/-- A byte of a BUF debug word: the stored byte below BUF_LEN, else the drawn one (R69). -/
def bufViewByte (s : State) (i : Nat) : Byte :=
  if i < s.hasher.bufLen.toNat then storedByte s.hasher.mem (bufAddr i) else wordByte (Config.freeWord s.draws) (i % 4)

/-- A BUF debug word, `LE32(BUF[4j..4j+3])`, stale bytes being any value (R69). -/
def bufViewWord (s : State) (j : Nat) : Word :=
  le32 (bufViewByte s (4 * j)) (bufViewByte s (4 * j + 1)) (bufViewByte s (4 * j + 2)) (bufViewByte s (4 * j + 3))

/-- A STACK debug word, any value at an entry at or above CV_SP (R69). -/
def stackViewWord (s : State) (e : Nat) (w : Fin 8) : Word :=
  if e < s.hasher.cvSp.toNat then (stackEntry s.hasher.mem e)[w] else Config.freeWord s.draws

/-- The value a read gives at each place of the window (R41, R63, R67, R69). -/
def readLoc (s : State) : Loc → Word
  | .cmd => 0
  | .status => statusWord s
  | .errcode => s.errcode.setWidth 32
  | .bufLen => s.hasher.bufLen.setWidth 32
  | .chunkCtr hi => halfOf hi s.hasher.chunkCtr
  | .cvSp => s.hasher.cvSp.setWidth 32
  | .outValid => s.outValid.setWidth 32
  | .outlen hi => halfOf hi s.outlen
  | .xofLen hi => halfOf hi s.xofLen
  | .xofIdx hi => halfOf hi s.xofIdx
  | .cmpT hi => halfOf hi s.cmpT
  | .cmpB => s.cmpB
  | .cmpD => s.cmpD
  | .rootBlen => s.rootBlen
  | .rootFlags => s.rootFlags
  | .reserved => 0
  | .input i => s.inWin[i]
  | .cmpH i => s.cmpH[i]
  | .cmpM i => s.cmpM[i]
  | .out i => s.out[i]
  | .key i => iv[i]
  | .rootCv i => s.rootCv[i]
  | .rootMsg i => s.rootMsg[i]
  | .bufView j => bufViewWord s j
  | .stackView e w => stackViewWord s e w

/-- The read takes a free value: a debug read that reaches a stale byte or entry (R69). -/
def readDraws (s : State) : Loc → Bool
  | .bufView j => decide (s.hasher.bufLen.toNat < 4 * j.val + 4)
  | .stackView e _ => decide (s.hasher.cvSp.toNat ≤ e.val)
  | _ => false

/-- The state after a write of `v`: an RW register takes it (R64), CMD issues the command (R294), every other place
ignores it (R66, R67). -/
def writeLoc (v : Word) (s : State) : Loc → State
  | .cmd => issue v s
  | .outlen hi => { s with outlen := setHalf hi s.outlen v }
  | .xofIdx hi => { s with xofIdx := setHalf hi s.xofIdx v }
  | .cmpT hi => { s with cmpT := setHalf hi s.cmpT v }
  | .cmpB => { s with cmpB := v }
  | .cmpD => { s with cmpD := v }
  | .input i => { s with inWin := s.inWin.set i v }
  | .cmpH i => { s with cmpH := s.cmpH.set i v }
  | .cmpM i => { s with cmpM := s.cmpM.set i v }
  | .status => s
  | .errcode => s
  | .bufLen => s
  | .chunkCtr _ => s
  | .cvSp => s
  | .outValid => s
  | .xofLen _ => s
  | .rootBlen => s
  | .rootFlags => s
  | .reserved => s
  | .out _ => s
  | .key _ => s
  | .rootCv _ => s
  | .rootMsg _ => s
  | .bufView _ => s
  | .stackView _ _ => s

/-- Which host accesses are defined (R60, R65, R297): an aligned 32-bit access inside the window, and while BUSY only a
read of STATUS (offset 0x004). `isRead` tells a read from a write. -/
def checkAccess (isRead : Bool) (off width : Nat) (s : State) : Except Fault Unit :=
  if width ≠ 4 ∨ off % 4 ≠ 0 then .error (.busFault off width)
  else if Config.windowBytes ≤ off then .error (.outsideWindow off)
  else if s.busy ∧ ¬(isRead ∧ off = 0x004) then .error (.busyAccess off)
  else .ok ()

/-- A host read at an offset of the window (R63): it changes no state of the block (R68). -/
def busRead (off width : Nat) (s : State) : Except Fault (Word × State) := do
  checkAccess true off width s
  let l := locate off
  .ok (readLoc s l, if readDraws s l then drawn s else s)

/-- A host write at an offset of the window (R64). -/
def busWrite (off width : Nat) (v : Word) (s : State) : Except Fault State := do
  checkAccess false off width s
  .ok (writeLoc v s (locate off))

/-- The window offset of a host physical address; none below the window (R60). -/
def offsetOf (addr : Nat) : Option Nat := if Config.b3Base ≤ addr then some (addr - Config.b3Base) else none

/-- `MemRead(addr, width)`: host address `B3_BASE + off` reaches offset `off` (R60, R63). -/
def memReadAt (addr width : Nat) (s : State) : Except Fault (Word × State) :=
  match offsetOf addr with
  | some off => busRead off width s
  | none => .error (.outsideWindow addr)

/-- `MemWrite(addr, width, v)` (R60, R64). -/
def memWriteAt (addr width : Nat) (v : Word) (s : State) : Except Fault State :=
  match offsetOf addr with
  | some off => busWrite off width v s
  | none => .error (.outsideWindow addr)

end Sys2Proof.Machine
end

