-- ==== Sys2Proof/Machine/HostAgent.lean ====
section
/-! DEFINITION. The host agent: one statement of its program a step (30_encoding.md R96; 20_memory.md R77). -/

namespace Sys2Proof.Machine

/-- The position of a label in a program, counted from `k` (R96). -/
def labelIndex (l : Nat) : (prog : List HostStmt) → (k : Nat) → Option Nat
  | [], _ => none
  | st :: rest, k => if st = .label l then some k else labelIndex l rest (k + 1)

/-- The host moves to its next statement (R71: its program order). -/
def advance (s : State) : State := { s with host := { s.host with pos := s.host.pos + 1 } }

/-- The host sets one of its variables (R96). -/
def setVar (x : Fin 32) (v : Int) (s : State) : State :=
  { s with host := { s.host with vars := s.host.vars.set x v } }

/-- A host branch to a label (R96). -/
def jump (l : Nat) (s : State) : Host.Outcome State Fault Refusal :=
  match labelIndex l s.host.prog 0 with
  | some k => .next { s with host := { s.host with pos := k } }
  | none => .fault (.undefinedLabel l)

/-- A conditional host branch. -/
def jumpIf (c : Bool) (l : Nat) (s : State) : Host.Outcome State Fault Refusal :=
  if c then jump l s else .next (advance s)

/-- `xN & MASK` of an unbounded integer and a 32-bit mask, in two's complement (R96; log 14). -/
def maskVar (v : Int) (mask : Word) : Word := BitVec.ofInt 32 v &&& mask

/-- The words the host has read into x1..x16 (log 13). -/
def keptWords (s : State) : List Word := (List.range 16).map (fun i => BitVec.ofInt 32 (s.host.vars.toList.getD (i + 1) 0))

/-- The host keeps the first x17 bytes of `lebytes` of the words in x1..x16, and counts what it has kept in x18
(R100, R232; log 13). -/
def keepBytes (s : State) : State :=
  let kept := s.host.digest ++ (lebytes (keptWords s)).take s.host.vars[17].toNat
  { s with host := { s.host with digest := kept, vars := s.host.vars.set 18 (Int.ofNat kept.length) } }

/-- The host begins with nothing kept (R100; log 13). -/
def keepNothing (s : State) : State :=
  { s with host := { s.host with digest := [], vars := s.host.vars.set 18 0 } }

/-- One host statement (R96). -/
def execHost (st : HostStmt) (s : State) : Host.Outcome State Fault Refusal :=
  match st with
  | .wr off width v =>
    match busWrite off width v s with
    | .ok s => .next (advance s)
    | .error f => .fault f
  | .rd x off width =>
    match busRead off width s with
    | .ok (v, s) => .next (advance (setVar x (Int.ofNat v.toNat) s))
    | .error f => .fault f
  | .label _ => .next (advance s)
  | .bnz x mask l => jumpIf (maskVar s.host.vars[x] mask != 0) l s
  | .bz x mask l => jumpIf (maskVar s.host.vars[x] mask == 0) l s
  | .b l => jump l s
  | .addi x y imm => .next (advance (setVar x (s.host.vars[y] + imm) s))
  | .blt x y l => jumpIf (decide (s.host.vars[x] < s.host.vars[y])) l s
  | .reset => .next (advance (blockReset s))
  | .keepStart => .next (advance (keepNothing s))
  | .keep => .next (advance (keepBytes s))

/-- A host step passes while a command is in flight (R295; log 2). -/
def tick (s : State) : State := if s.busy then { s with coreDelay := s.coreDelay - 1 } else s

/-- The host's step: its next statement, or nothing where its program has ended; the block keeps its state between
commands (R278; log 12). -/
def hostStep (s : State) : Host.Outcome State Fault Refusal :=
  match s.host.prog[s.host.pos]? with
  | some st => execHost st (tick s)
  | none => .next (tick s)

end Sys2Proof.Machine
end

