-- ==== Sys2Proof/Machine/Completion.lean ====
section
/-! DEFINITION. The core's completion step (70_reset_and_hazards.md R296), whose turn it is (R295), and the placing of a
command word where the next step takes it. -/

namespace Sys2Proof.Machine

/-- The completion step (R296): decode CMD_LATCH (R93) and execute the command, or end it in the decode error (R268). -/
def coreStep (s : State) : Host.Outcome State Fault Refusal :=
  match decode s.cmdLatch with
  | .ok i => exec i s
  | .error e => .next (raiseError e s)

/-- The core moves when a command is in flight and its latency has passed, else the host (R295, R296; log 2). -/
def coreTurn (s : State) : Bool := s.busy && s.coreDelay == 0

/-- One step of whichever agent's turn it is (R15, R71). -/
def stepAgents (s : State) : Host.Outcome State Fault Refusal :=
  if coreTurn s then coreStep s else hostStep s

/-- The state of a command just issued (R294), its completion step being next. -/
def placeCommand (w : Word) (s : State) : State := { s with cmdLatch := w, busy := true, coreDelay := 0 }

end Sys2Proof.Machine
end

