-- ==== Sys2Proof/Machine/Step.lean ====
section
/-! DEFINITION. The step, and the placing of an opcode-table word where it takes its next command. -/

namespace Sys2Proof.Machine

/-- One step of the machine: the core's completion step or one host step (R15, R71, R296). -/
def step (s : State) : Host.Outcome State Fault Refusal := stepAgents s

/-- `s` with the command word (numbered as spec/opcode_table.json numbers it) latched, BUSY and its latency passed, so
that the next step is that command's completion step: the block takes a command from CMD_LATCH, not from a program
counter (R38, R75, R296; log 8). -/
def State.withFetchWord (s : State) (nbits w : Nat) : State := placeCommand (tableWord nbits w) s

end Sys2Proof.Machine
end

