-- ==== Sys2Proof/Machine/Assembler.lean ====
section
/-! DEFINITION. The host assembly's mnemonics and pseudo-statements (30_encoding.md R97 to R100), expanded into the host
statements of R96. Labels are numbers; an expansion that needs fresh labels takes them from `k` on (R99). -/

namespace Sys2Proof.Machine

/-- One line of a host program (R96 to R100). -/
inductive AsmLine where
  | stmt (st : HostStmt)
  | init
  | append (n : Nat)
  | finalize
  | xof
  | compress
  | compressT
  | poll
  | wr64 (off : Nat) (v : Int)
  | hash (bytes : List Byte) (len : Int)
deriving DecidableEq, Repr

/-- `wr OFF, V` (R96). -/
def wr4 (off : Nat) (v : Word) : HostStmt := .wr off 4 v

/-- `rd xN, OFF` (R96). -/
def rd4 (x : Fin 32) (off : Nat) : HostStmt := .rd x off 4

/-- `poll` with the fresh label `k`: read STATUS into x31 and loop while BUSY (R99). -/
def pollStmts (k : Nat) : List HostStmt := [.label k, rd4 31 0x004, .bnz 31 0x2 k]

/-- A command mnemonic: its CMD write followed by a poll (R97). -/
def command (i : Instr) (k : Nat) : List HostStmt := wr4 0x000 (encode i) :: pollStmts k

/-- `wr64 OFF, V`: the low half, then the high half at OFF + 4, of V in 64-bit two's complement (R98). -/
def wr64Stmts (off : Nat) (v : Int) : List HostStmt :=
  [wr4 off (loWord (BitVec.ofInt 64 v)), wr4 (off + 4) (hiWord (BitVec.ofInt 64 v))]

/-- The successive slices of 64 bytes, the last one shorter, none of an empty list (R100); `fuel` slices at most. -/
def slices : (fuel : Nat) → List Byte → List (List Byte)
  | 0, _ => []
  | _ + 1, [] => []
  | fuel + 1, b :: bs => (b :: bs).take 64 :: slices fuel ((b :: bs).drop 64)

/-- The writes of a slice to IN, zero-padded, and its APPEND (R100). -/
def sliceStmts (k : Nat) (sl : List Byte) : List HostStmt :=
  (List.range 16).map (fun i => wr4 (0x080 + 4 * i) (wordAt sl i)) ++ command (.append sl.length) k

/-- All slices in order, each poll with its own label (R100). -/
def feedStmts : (k : Nat) → List (List Byte) → List HostStmt
  | _, [] => []
  | k, sl :: rest => sliceStmts k sl ++ feedStmts (k + 1) rest

/-- The host reads OUT[0..15] and OUT_VALID and keeps the digest bytes (R100; log 13). -/
def keepStmts : List HostStmt :=
  (List.range 16).map (fun i => rd4 (Fin.ofNat 32 (i + 1)) (0x140 + 4 * i)) ++ [rd4 17 0x01C, .keep]

/-- `hash BYTES, L` (R100): init, the slices, OUTLEN, finalize, then reading and `xof` while fewer than L bytes are kept.
The bound x19 is L itself, whatever the variables held before: it is set from x18, which `keepStart` has just made 0
(log 13). It uses the labels `k` to `k + number of slices + 5`. -/
def hashStmts (k : Nat) (bytes : List Byte) (len : Int) : List HostStmt :=
  let sls := slices bytes.length bytes
  let k := k + sls.length
  command .init k ++ feedStmts (k - sls.length) sls ++ wr64Stmts 0x020 len ++ command .finalize (k + 1) ++
  [.keepStart, .addi 19 18 len] ++ keepStmts ++
  [.label (k + 2), .blt 18 19 (k + 3), .b (k + 4), .label (k + 3)] ++
  command .xofBlock (k + 5) ++ keepStmts ++ [.b (k + 2), .label (k + 4)]

/-- One line's statements and the next fresh label; a line the assembler refuses gives none (R97). -/
def expandLine (k : Nat) : AsmLine → Option (List HostStmt × Nat)
  | .stmt st => some ([st], k)
  | .init => some (command .init k, k + 1)
  | .append n => if (Instr.append n).wellFormed then some (command (.append n) k, k + 1) else none
  | .finalize => some (command .finalize k, k + 1)
  | .xof => some (command .xofBlock k, k + 1)
  | .compress => some (command (.compress false) k, k + 1)
  | .compressT => some (command (.compress true) k, k + 1)
  | .poll => some (pollStmts k, k + 1)
  | .wr64 off v => some (wr64Stmts off v, k)
  | .hash bytes len => some (hashStmts k bytes len, k + (slices bytes.length bytes).length + 6)

/-- A whole program, its fresh labels taken from `k` on. -/
def assembleFrom (k : Nat) : List AsmLine → Option (List HostStmt)
  | [] => some []
  | line :: rest =>
    match expandLine k line with
    | none => none
    | some (stmts, k) =>
      match assembleFrom k rest with
      | none => none
      | some more => some (stmts ++ more)

/-- The first label above the one a host statement names, whether it defines it or branches to it; 0 where it names none. -/
def stmtLabel : HostStmt → Nat
  | .label l => l + 1
  | .bnz _ _ l => l + 1
  | .bz _ _ l => l + 1
  | .b l => l + 1
  | .blt _ _ l => l + 1
  | .wr _ _ _ => 0
  | .rd _ _ _ => 0
  | .addi _ _ _ => 0
  | .reset => 0
  | .keepStart => 0
  | .keep => 0

/-- The first label above the one a line of the source names itself. -/
def lineLabel : AsmLine → Nat
  | .stmt st => stmtLabel st
  | .init => 0
  | .append _ => 0
  | .finalize => 0
  | .xof => 0
  | .compress => 0
  | .compressT => 0
  | .poll => 0
  | .wr64 _ _ => 0
  | .hash _ _ => 0

/-- Assemble a program. R99 asks for fresh labels and leaves open which: the model takes the numbers above every label the
source names, defined or only branched to, so that no branch of the source reaches a label of an expansion, and one to a
label the source never defines still faults. DESIGN CHOICE, log 17. -/
def assemble (lines : List AsmLine) : Option (List HostStmt) :=
  assembleFrom ((lines.map lineLabel).foldl max 0) lines

/-- The host program loaded from outside the machine, the host at its first statement (log 8). -/
def loadProgram (prog : List HostStmt) (s : State) : State :=
  { s with host := { s.host with prog := prog, pos := 0 } }

end Sys2Proof.Machine
end

