-- ==== Sys2Proof/Safety.lean ====
section
/-! DEFINITION. What the claims are stated in: the invariants of the machine (10_state.md R28, R29; 60_exceptions.md
R271), the digest a host assembles (44_finalizer_xof.md R232), and the feeding of bytes by successive APPENDs
(43_incremental_hasher.md R197). -/

namespace Sys2Proof.Machine

/-- What holds of BUF, STACK, BUF_LEN and CV_SP in every reachable state: canonical memory, R28(d), and every live byte
(R25, R27) has been stored. -/
structure HasherInv (h : HasherState) : Prop where
  memWf : Memory.wf h.mem
  memInRange : Memory.inRange h.mem
  bufLe : h.bufLen.toNat ≤ 1024
  spLe : h.cvSp.toNat ≤ 64
  bufStored : ∀ a, bufAddr 0 ≤ a → a < bufAddr h.bufLen.toNat → memRead h.mem a ≠ none
  stackStored : ∀ a, stackAddr 0 ≤ a → a < stackAddr h.cvSp.toNat → memRead h.mem a ≠ none

/-- The invariant of the machine: R28 while Accepting, R29's legal values, the emptied stack of R224, and the bounds of
ERRCODE (R260) and OUT_VALID (R33). It holds at reset and every step keeps it. -/
structure Inv (s : State) : Prop where
  hasher : HasherInv s.hasher
  spPopcount : s.phase = .accepting → s.hasher.cvSp.toNat = popcount s.hasher.chunkCtr.toNat
  bufNonempty : s.phase = .accepting → s.hasher.chunkCtr ≠ 0 → 1 ≤ s.hasher.bufLen.toNat
  finalStack : s.phase = .finalized → s.hasher.cvSp = 0
  finalRoot : s.phase = .finalized → s.rootFlags &&& rootFlag = rootFlag
  errcodeLe : s.errcode.toNat ≤ 8
  outValidLe : s.outValid.toNat ≤ 64
  rootBlenLe : s.rootBlen.toNat ≤ 64
  rootFlagsLe : s.rootFlags.toNat ≤ 15
  xofLenLt : s.xofLen.toNat < 2 ^ 63

/-- `digest(L)` of a finalized hasher (R232): the blocks' bytes in counter order, cut to L bytes. -/
def digest (s : State) (len : Nat) : List Byte :=
  ((List.range (blockCount len)).flatMap (fun k => lebytes (outBlock (BitVec.ofNat 64 k) s).toList)).take len

/-- The digest bytes of the output window: the first OUT_VALID bytes of `lebytes(OUT)` (R33, R232). -/
def outDigestBytes (s : State) : List Byte := (lebytes s.out.toList).take s.outValid.toNat

/-- The digest bytes a host keeps from OUT now and after each of `n` further XOF_BLOCKs (R232); none if one of them ends
in an error or a stop. -/
def collectXof : (n : Nat) → State → Option (List Byte)
  | 0, s => some (outDigestBytes s)
  | n + 1, s =>
    match exec .xofBlock s with
    | .next t => if t.errcode = 0 then (collectXof n t).map (outDigestBytes s ++ ·) else none
    | .fault _ => none
    | .refused _ => none

/-- Feed slices of bytes: each is written to the IN window and appended (R197, R301); none if an APPEND ends in an error
or a stop. -/
def feed : List (List Byte) → State → Option State
  | [], s => some s
  | sl :: rest, s =>
    match exec (.append sl.length) { s with inWin := words sl } with
    | .next t => if t.errcode = 0 then feed rest t else none
    | .fault _ => none
    | .refused _ => none

/-- The running value of `rootTree` after the stack entries `e`, `e - 1`, ..., 1 have been merged onto it, each the left
child (R223). -/
def treeRun (m : Memory) : (e : Nat) → CV → CV
  | 0, run => run
  | e + 1, run => treeRun m e (parentCV (stackEntry m (e + 1)) run)

/-- The chaining value of a non-root chunk of 1 to 1024 bytes, as a value (R156). -/
def chunkCvOf (bytes : List Byte) (t : BitVec 64) : CV :=
  (processBlocks t false true true iv (blockCount bytes.length - 1) bytes).out.cv

/-- The number of the last block of a chunk of `n` bytes: ⌈n/64⌉ - 1 (R151). -/
def lastBlock (n : Nat) : Nat := (n + 63) / 64 - 1

/-- The chaining value threaded into block `k` of a chunk (R154): the key for the first block; else the truncated output
of the block before, a whole block of 64 bytes with CHUNK_START on block 0 and no flag on a later one (R151 to R153). -/
def threadedCv (bytes : List Byte) (t : BitVec 64) : (k : Nat) → CV
  | 0 => iv
  | k + 1 =>
    (compress (threadedCv bytes t k) (words ((bytes.drop (64 * k)).take 64)) t 64 (if k = 0 then 0x1 else 0x0) true).cv

/-- The chaining value of the complete subtree over the `2^k` chunks from chunk `start` on (R175). -/
def subtree (cvs : Nat → CV) : (start k : Nat) → CV
  | start, 0 => cvs start
  | start, k + 1 => parentCV (subtree cvs start k) (subtree cvs (start + 2 ^ k) k)

/-- The entries R175 gives the stack after `n` chunks, n below 2^bits: one subtree for each one bit of `n`, from the most
significant, covering the chunks from `start` on. -/
def subtreesOf (cvs : Nat → CV) : (bits n start : Nat) → List CV
  | 0, _, _ => []
  | bits + 1, n, start =>
    if 2 ^ bits ≤ n then subtree cvs start bits :: subtreesOf cvs bits (n - 2 ^ bits) (start + 2 ^ bits)
    else subtreesOf cvs bits n start

/-- Merge the chaining values of chunks 0 to n - 1 in order (R176). -/
def mergeChunks (cvs : Nat → CV) : (n : Nat) → HasherState → Except Fault HasherState
  | 0, h => .ok h
  | n + 1, h => do
    let h ← mergeChunks cvs n h
    merge (cvs n) (n + 1) h

/-- The live entries of the stack, oldest first (R27). -/
def stackEntries (h : HasherState) : List CV := (List.range h.cvSp.toNat).map (stackEntry h.mem)

/-- The mixing step `G(a, b, c, d, mx, my)` line by line on the sixteen words, by index (R122). -/
def stepG (a b c d : Fin 16) (mx my : Word) (v : Block) : Block :=
  let v := v.set a (v[a] + v[b] + mx)
  let v := v.set d (rotr (v[d] ^^^ v[a]) 16)
  let v := v.set c (v[c] + v[d])
  let v := v.set b (rotr (v[b] ^^^ v[c]) 12)
  let v := v.set a (v[a] + v[b] + my)
  let v := v.set d (rotr (v[d] ^^^ v[a]) 8)
  let v := v.set c (v[c] + v[d])
  v.set b (rotr (v[b] ^^^ v[c]) 7)

/-- One round as its eight mixing steps in order (R123). -/
def eightSteps (v s : Block) : Block :=
  let v := stepG 0 4 8 12 s[0] s[1] v
  let v := stepG 1 5 9 13 s[2] s[3] v
  let v := stepG 2 6 10 14 s[4] s[5] v
  let v := stepG 3 7 11 15 s[6] s[7] v
  let v := stepG 0 5 10 15 s[8] s[9] v
  let v := stepG 1 6 11 12 s[10] s[11] v
  let v := stepG 2 7 8 13 s[12] s[13] v
  stepG 3 4 9 14 s[14] s[15] v

/-- The schedule after `r` permutations (R124). -/
def permuteTimes {α : Type} : (r : Nat) → Vector α 16 → Vector α 16
  | 0, v => v
  | r + 1, v => permuteTimes r (permute v)

/-- An offset whose byte is part of the state's meaning: a BUF byte below BUF_LEN (R25) or a byte of a STACK entry below
CV_SP (R27). -/
def liveAddr (h : HasherState) (a : Nat) : Prop :=
  (bufAddr 0 ≤ a ∧ a < bufAddr h.bufLen.toNat) ∨ (stackAddr 0 ≤ a ∧ a < stackAddr h.cvSp.toNat)

/-- Two hashers that differ at most in bytes that carry no meaning (R25, R27). -/
def sameLive (g h : HasherState) : Prop :=
  g.bufLen = h.bufLen ∧ g.chunkCtr = h.chunkCtr ∧ g.cvSp = h.cvSp ∧
  ∀ a, liveAddr g a → memRead g.mem a = memRead h.mem a

/-- Two states that differ at most in bytes of BUF and STACK that carry no meaning. -/
def sameButStale (s t : State) : Prop := t = { s with hasher := t.hasher } ∧ sameLive s.hasher t.hasher

/-- `k` steps of the machine, stopping at the first fault or refusal. -/
def runSteps (k : Nat) (s : State) : Host.Outcome State Fault Refusal :=
  match k with
  | 0 => .next s
  | k + 1 =>
    match step s with
    | .next t => runSteps k t
    | .fault f => .fault f
    | .refused r => .refused r

end Sys2Proof.Machine
end

