-- ==== Sys2Proof/Certificates/Slice0/Obligations.lean ====
section
/-! DEFINITION. The statements for the provers. Each docstring names the rule of spec/ it formalises; a clause that rests on
a choice of the model names its log entry. -/

open Sys2Proof Sys2Proof.Machine

/-! ### Reset -/

/-- R290: reset, asserted in any state, puts every element to its reset value. The rest is the model's choice: reset is a host
statement, and the host and the count of draws go on (log 9); R290's unspecified BUF and STACK list no byte (log 4), and both
debug views of them read as the free value of the draw count (log 3). -/
def Obligations.ResetPutsEveryElementToResetValue : Prop :=
  ∀ s : State, execHost .reset s = .next (advance (blockReset s)) ∧
    (let t := blockReset s
     t.phase = .accepting ∧ t.busy = false ∧ t.errSticky = false ∧ t.errcode = 0 ∧ t.hasher.bufLen = 0 ∧
     t.hasher.chunkCtr = 0 ∧ t.hasher.cvSp = 0 ∧ t.outValid = 0 ∧ t.outlen = 32 ∧ t.xofLen = 0 ∧ t.xofIdx = 0 ∧
     t.rootCv = Vector.replicate 8 0 ∧ t.rootMsg = Vector.replicate 16 0 ∧ t.rootBlen = 0 ∧ t.rootFlags = 0 ∧
     t.out = Vector.replicate 16 0 ∧ t.inWin = Vector.replicate 16 0 ∧ t.cmpH = Vector.replicate 8 0 ∧
     t.cmpM = Vector.replicate 16 0 ∧ t.cmpT = 0 ∧ t.cmpB = 0 ∧ t.cmpD = 0 ∧ t.cmdLatch = 0 ∧
     (∀ i : Fin 8, readLoc t (.key i) = iv[i]) ∧
     (∀ a, memRead t.hasher.mem a = none) ∧
     (∀ j, readLoc t (.bufView j) = Config.freeWord t.draws ∧ readDraws t (.bufView j) = true) ∧
     (∀ e w, readLoc t (.stackView e w) = Config.freeWord t.draws ∧ readDraws t (.stackView e w) = true) ∧
     blockReset State.reset = State.reset)

/-- R291: reset while BUSY abandons the command in flight and leaves the block in its reset state; a block that is not BUSY
executes no command, and becomes BUSY only by a host write to CMD. That reset is a host statement across which the host and
the count of draws go on (log 9), and that one falling where the completion step is due follows that step, so that `step`
takes it only with `coreDelay` not 0 (log 2), is the model's choice; the statement itself abandons the command in every state. -/
def Obligations.ResetWhileBusyAbandonsCommand : Prop :=
  (∀ s : State, s.busy = true →
    ∃ t, execHost .reset s = .next t ∧ t = { State.reset with host := t.host, draws := s.draws } ∧ coreTurn t = false) ∧
  (∀ s : State, s.busy = true → s.coreDelay ≠ 0 → s.host.prog[s.host.pos]? = some .reset →
    ∃ t, step s = .next t ∧ t = { State.reset with host := t.host, draws := s.draws } ∧ coreTurn t = false) ∧
  (∀ s : State, s.busy = false → coreTurn s = false) ∧
  (∀ s t : State, s.busy = false → step s = .next t → t.busy = true →
    ∃ w, s.host.prog[s.host.pos]? = some (.wr 0x000 4 w) ∧ t.cmdLatch = w)

/-! ### INIT -/

/-- R190: INIT, in either phase, leaves a new empty hasher, keeps the operand registers, the OUT words and the contents of
BUF and STACK, and twice in a row is the same as once. -/
def Obligations.InitCreatesEmptyHasher : Prop :=
  ∀ s : State, ∃ t, exec .init s = .next t ∧
    t.phase = .accepting ∧ t.hasher.bufLen = 0 ∧ t.hasher.chunkCtr = 0 ∧ t.hasher.cvSp = 0 ∧
    t.rootCv = Vector.replicate 8 0 ∧ t.rootMsg = Vector.replicate 16 0 ∧ t.rootBlen = 0 ∧ t.rootFlags = 0 ∧
    t.xofLen = 0 ∧ t.xofIdx = 0 ∧ t.outValid = 0 ∧ t.errSticky = false ∧ t.errcode = 0 ∧ t.busy = false ∧
    t.outlen = s.outlen ∧ t.inWin = s.inWin ∧ t.cmpH = s.cmpH ∧ t.cmpM = s.cmpM ∧ t.cmpT = s.cmpT ∧ t.cmpB = s.cmpB ∧
    t.cmpD = s.cmpD ∧ t.out = s.out ∧ (∀ a, memRead t.hasher.mem a = memRead s.hasher.mem a) ∧
    t.cmdLatch = s.cmdLatch ∧ t.host = s.host ∧ t.coreDelay = s.coreDelay ∧ t.draws = s.draws ∧
    statusWord t = 0 ∧ exec .init t = .next t

/-! ### APPEND -/

/-- R192, R262: APPEND checks the phase, then the length, then the counter, and each error changes nothing but the error
record and BUSY. -/
def Obligations.AppendChecksPhaseLengthCounter : Prop :=
  ∀ (s : State) (n : Nat),
    (s.phase = .finalized → exec (.append n) s = .next { s with errcode := 3, errSticky := true, busy := false }) ∧
    (s.phase = .accepting → 64 < n →
      exec (.append n) s = .next { s with errcode := 5, errSticky := true, busy := false }) ∧
    (s.phase = .accepting → n ≤ 64 → 1024 < s.hasher.bufLen.toNat + n → s.hasher.chunkCtr = BitVec.allOnes 64 →
      exec (.append n) s = .next { s with errcode := 8, errSticky := true, busy := false })

/-- R193, R195, R196(a)(b): an APPEND whose bytes fit the buffer completes and puts them after the pending ones, with no
flush, also when it fills the buffer exactly; N = 0 is a no-op. -/
def Obligations.AppendStoresBytesThatFit : Prop :=
  ∀ (s : State) (n : Nat), s.phase = .accepting → n ≤ 64 → s.hasher.bufLen.toNat + n ≤ 1024 →
    ∃ t, exec (.append n) s = .next t ∧ t.hasher.bufLen.toNat = s.hasher.bufLen.toNat + n ∧
      bufBytes t.hasher.mem t.hasher.bufLen.toNat =
        bufBytes s.hasher.mem s.hasher.bufLen.toNat ++ (lebytes s.inWin.toList).take n ∧
      t.hasher.chunkCtr = s.hasher.chunkCtr ∧ t.hasher.cvSp = s.hasher.cvSp ∧ t.errcode = 0 ∧
      t.errSticky = s.errSticky ∧ t.busy = false ∧ (n = 0 → t = { s with errcode := 0, busy := false })

/-- R191, R194, R195, R196(c): an APPEND whose bytes do not fit completes, flushes the one full chunk, and leaves the bytes
after it as the new pending ones; the stack has popcount(CHUNK_CTR) entries. -/
def Obligations.AppendFlushesFullChunk : Prop :=
  ∀ (s : State) (n : Nat), Inv s → s.phase = .accepting → n ≤ 64 → 1024 < s.hasher.bufLen.toNat + n →
    s.hasher.chunkCtr ≠ BitVec.allOnes 64 →
    ∃ t, exec (.append n) s = .next t ∧ t.hasher.bufLen.toNat = s.hasher.bufLen.toNat + n - 1024 ∧
      bufBytes t.hasher.mem t.hasher.bufLen.toNat =
        ((lebytes s.inWin.toList).take n).drop (1024 - s.hasher.bufLen.toNat) ∧
      t.hasher.chunkCtr = s.hasher.chunkCtr + 1 ∧ t.hasher.cvSp.toNat = popcount (s.hasher.chunkCtr.toNat + 1) ∧
      t.errcode = 0 ∧ t.errSticky = s.errSticky ∧ t.busy = false

/-- R194, R171: a flush merges the full chunk's chaining value, computed over the 1024 buffered bytes with the counter before
the increment, under the new total chunk count, and leaves the stack that merge leaves; where that count is odd, it only
pushes the value, and every older entry stays. -/
def Obligations.FlushPushesChunkValue : Prop :=
  ∀ (s : State) (n : Nat), Inv s → s.phase = .accepting → n ≤ 64 → 1024 < s.hasher.bufLen.toNat + n →
    s.hasher.chunkCtr ≠ BitVec.allOnes 64 →
    let cv := chunkCvOf (bufBytes s.hasher.mem s.hasher.bufLen.toNat ++
      (lebytes s.inWin.toList).take (1024 - s.hasher.bufLen.toNat)) s.hasher.chunkCtr
    ∃ t g, exec (.append n) s = .next t ∧ merge cv (s.hasher.chunkCtr.toNat + 1) s.hasher = .ok g ∧
      t.hasher.cvSp = g.cvSp ∧ stackEntries t.hasher = stackEntries g ∧
      (s.hasher.chunkCtr.toNat % 2 = 0 → stackEntries t.hasher = stackEntries s.hasher ++ [cv])

/-- R151 to R154, R156: the chaining value of a non-root chunk of 1 to 1024 bytes: the value threaded through its earlier
blocks enters the last one, which has its true byte count, CHUNK_END, and CHUNK_START where it is the only one. -/
def Obligations.ChunkValueThreadsBlocks : Prop :=
  ∀ (bytes : List Byte) (t : BitVec 64), 1 ≤ bytes.length → bytes.length ≤ 1024 →
    let k := lastBlock bytes.length
    chunkCV bytes t = .ok (chunkCvOf bytes t) ∧
    chunkCvOf bytes t = (compress (threadedCv bytes t k) (words (bytes.drop (64 * k))) t
      (BitVec.ofNat 32 (bytes.length - 64 * k)) (if k = 0 then 0x3 else 0x2) true).cv

/-- APPEND's frame: whenever it answers a next state, only the hasher, the error record and BUSY differ; a success leaves
ERR_STICKY; an error stores nothing; without a flush the bytes stored are the n BUF bytes from BUF_LEN on; with a flush they
are BUF from BUF_LEN on, BUF from 0 on, and the STACK entries from the new top to the one first pushed. -/
def Obligations.AppendFrame : Prop :=
  ∀ (s t : State) (n : Nat), exec (.append n) s = .next t →
    t = { s with hasher := t.hasher, errcode := t.errcode, errSticky := t.errSticky, busy := false } ∧
    (t.errcode ≠ 0 → t.hasher = s.hasher) ∧
    (t.errcode = 0 → t.errSticky = s.errSticky) ∧
    (t.errcode = 0 → s.hasher.bufLen.toNat + n ≤ 1024 →
      t.hasher.chunkCtr = s.hasher.chunkCtr ∧ t.hasher.cvSp = s.hasher.cvSp ∧
      ∀ a, ¬(bufAddr s.hasher.bufLen.toNat ≤ a ∧ a < bufAddr (s.hasher.bufLen.toNat + n)) →
        memRead t.hasher.mem a = memRead s.hasher.mem a) ∧
    (t.errcode = 0 → 1024 < s.hasher.bufLen.toNat + n →
      ∀ a, ¬(bufAddr s.hasher.bufLen.toNat ≤ a ∧ a < bufAddr 1024) →
        ¬(bufAddr 0 ≤ a ∧ a < bufAddr (s.hasher.bufLen.toNat + n - 1024)) →
        ¬(stackAddr (t.hasher.cvSp.toNat - 1) ≤ a ∧ a < stackAddr (s.hasher.cvSp.toNat + 1)) →
        memRead t.hasher.mem a = memRead s.hasher.mem a)

/-- R177: the first four chunk values merged in order: one entry, then one parent, then that parent and the third chunk,
then one entry for the four chunks. -/
def Obligations.MergeOfFirstFourChunks : Prop :=
  ∀ (h : HasherState) (c0 c1 c2 c3 : CV), h.cvSp = 0 →
    ∃ h1 h2 h3 h4, merge c0 1 h = .ok h1 ∧ stackEntries h1 = [c0] ∧
      merge c1 2 h1 = .ok h2 ∧ stackEntries h2 = [parentCV c0 c1] ∧
      merge c2 3 h2 = .ok h3 ∧ stackEntries h3 = [parentCV c0 c1, c2] ∧
      merge c3 4 h3 = .ok h4 ∧ stackEntries h4 = [parentCV (parentCV c0 c1) (parentCV c2 c3)]

/-- R175: after n chunks the stack holds one complete subtree for each one bit of n, the most significant first, each over
its own chunks in order. -/
def Obligations.StackHoldsMaximalSubtrees : Prop :=
  ∀ (cvs : Nat → CV) (n : Nat) (h : HasherState), h.cvSp = 0 → n < 2 ^ 64 →
    ∃ g, mergeChunks cvs n h = .ok g ∧ stackEntries g = subtreesOf cvs 64 n 0

/-- R197: the state after a sequence of APPENDs depends only on the concatenation of the bytes, not on the split; the IN
window, which the host rewrites, is set aside. -/
def Obligations.FeedEquivalence : Prop :=
  ∀ (s t u : State) (xs ys : List (List Byte)), s.errcode = 0 → s.busy = false →
    (∀ x ∈ xs, x.length ≤ 64) → (∀ y ∈ ys, y.length ≤ 64) → xs.flatten = ys.flatten →
    feed xs s = some t → feed ys s = some u →
    { t with inWin := s.inWin } = { u with inWin := s.inWin }

/-! ### FINALIZE -/

/-- R266: in the Accepting phase FINALIZE fails exactly when bit 63 of OUTLEN is 1, with code 6 and no other change; there is
no other failure, and length 0 gives the empty digest. -/
def Obligations.NegativeLengthIsTheOnlyFinalizeError : Prop :=
  ∀ s : State, Inv s → s.phase = .accepting →
    (s.outlen.getLsbD 63 = true →
      exec .finalize s = .next { s with errcode := 6, errSticky := true, busy := false }) ∧
    (s.outlen.getLsbD 63 = false → ∃ t, exec .finalize s = .next t ∧ t.errcode = 0) ∧
    (s.outlen = 0 → ∃ t, exec .finalize s = .next t ∧ t.errcode = 0 ∧ t.outValid = 0 ∧ outDigestBytes t = [] ∧
      digest t 0 = [])

/-- R220, R224, R225, R228(f), R262: in the Finalized phase FINALIZE ends in code 3 whatever OUTLEN holds, a negative length
included, and changes nothing but the error record and BUSY; FINALIZE of an Accepting hasher with L ≥ 0 completes; it latches L, sets XOF_IDX to 1 and OUT_VALID to
min(64, L), empties the stack and leaves BUF, BUF_LEN and CHUNK_CTR; OUT is the root compression at counter 0 of the root
input stored; and APPEND and FINALIZE fail with FINALIZED afterwards. -/
def Obligations.FinalizeCompletes : Prop :=
  (∀ s : State, s.phase = .finalized →
    exec .finalize s = .next { s with errcode := 3, errSticky := true, busy := false }) ∧
  ∀ s : State, Inv s → s.phase = .accepting → 0 ≤ s.outlen.toInt →
    ∃ t, exec .finalize s = .next t ∧ t.phase = .finalized ∧ t.xofLen = s.outlen ∧ t.xofIdx = 1 ∧
      t.outValid.toNat = min 64 s.outlen.toNat ∧ t.errcode = 0 ∧ t.errSticky = s.errSticky ∧ t.busy = false ∧
      t.hasher.cvSp = 0 ∧ t.hasher.bufLen = s.hasher.bufLen ∧ t.hasher.chunkCtr = s.hasher.chunkCtr ∧
      t.hasher.mem = s.hasher.mem ∧
      t.out = outWords (compress t.rootCv t.rootMsg 0 t.rootBlen t.rootFlags false) ∧
      (∀ n, exec (.append n) t = .next (raiseError .finalized t)) ∧
      exec .finalize t = .next (raiseError .finalized t)

/-- R227: the root's flags and block length by case. -/
def Obligations.RootFlagsByCase : Prop :=
  ∀ s : State, Inv s → s.phase = .accepting → 0 ≤ s.outlen.toInt →
    ∃ t, exec .finalize s = .next t ∧
      (s.hasher.cvSp = 0 → s.hasher.bufLen = 0 → t.rootFlags = 0xB ∧ t.rootBlen = 0) ∧
      (s.hasher.cvSp = 0 → 1 ≤ s.hasher.bufLen.toNat → s.hasher.bufLen.toNat ≤ 64 →
        t.rootFlags = 0xB ∧ t.rootBlen.toNat = s.hasher.bufLen.toNat) ∧
      (s.hasher.cvSp = 0 → 65 ≤ s.hasher.bufLen.toNat →
        t.rootFlags = 0xA ∧ t.rootBlen.toNat = (s.hasher.bufLen.toNat - 1) % 64 + 1) ∧
      (s.hasher.cvSp ≠ 0 → t.rootFlags = 0xC ∧ t.rootBlen = 64)

/-- R221: FINALIZE of an empty input. -/
def Obligations.FinalizeOfEmptyInput : Prop :=
  ∀ s : State, s.phase = .accepting → 0 ≤ s.outlen.toInt → s.hasher.bufLen = 0 → s.hasher.cvSp = 0 →
    ∃ t, exec .finalize s = .next t ∧ t.rootCv = iv ∧ t.rootMsg = Vector.replicate 16 0 ∧ t.rootBlen = 0 ∧
      t.rootFlags = 0xB ∧ t.out = outWords (compress iv (Vector.replicate 16 0) 0 0 0xB false)

/-- R222, R151 to R154: FINALIZE of one chunk of 1 to 1024 bytes: the root is the last block's input, its chaining value
threaded from the key through the earlier blocks, and the output is that block's, untruncated. -/
def Obligations.FinalizeOfOneChunk : Prop :=
  ∀ s : State, s.phase = .accepting → 0 ≤ s.outlen.toInt → s.hasher.cvSp = 0 → 1 ≤ s.hasher.bufLen.toNat →
    s.hasher.bufLen.toNat ≤ 1024 →
    let bytes := bufBytes s.hasher.mem s.hasher.bufLen.toNat
    let k := lastBlock s.hasher.bufLen.toNat
    ∃ t, exec .finalize s = .next t ∧
      t.rootCv = threadedCv bytes s.hasher.chunkCtr k ∧ t.rootMsg = words (bytes.drop (64 * k)) ∧
      t.rootBlen.toNat = s.hasher.bufLen.toNat - 64 * k ∧ t.rootFlags = (if k = 0 then 0xB else 0xA) ∧
      t.out = outWords (compress t.rootCv t.rootMsg s.hasher.chunkCtr t.rootBlen t.rootFlags false)

/-- R223: FINALIZE of more than one chunk faults on an empty buffer, which no run reaches, and else completes: the tail chunk's value is merged with the entries from the top down, each popped
entry the left child, and the last entry and the running value are the root's message. -/
def Obligations.FinalizeOfTree : Prop :=
  (∀ h : HasherState, h.bufLen = 0 → rootTree h = .error (.unreachableState .rootTreeEmptyBuffer)) ∧
  ∀ s : State, s.phase = .accepting → 0 ≤ s.outlen.toInt → 1 ≤ s.hasher.cvSp.toNat → s.hasher.cvSp.toNat ≤ 64 →
    1 ≤ s.hasher.bufLen.toNat → s.hasher.bufLen.toNat ≤ 1024 →
    ∃ t, exec .finalize s = .next t ∧ t.rootCv = iv ∧ t.rootBlen = 64 ∧ t.rootFlags = 0xC ∧ t.hasher.cvSp = 0 ∧
      t.rootMsg = cat8 (stackEntry s.hasher.mem 0)
        (treeRun s.hasher.mem (s.hasher.cvSp.toNat - 1)
          (chunkCvOf (bufBytes s.hasher.mem s.hasher.bufLen.toNat) s.hasher.chunkCtr)) ∧
      t.out = outWords (compress iv t.rootMsg 0 64 0xC false)

/-- FINALIZE's frame: whenever it answers a next state, only the registers R220 names, CV_SP, the error record and BUSY
differ; an error changes none of the former; no byte of BUF or STACK is ever stored. -/
def Obligations.FinalizeFrame : Prop :=
  ∀ s t : State, exec .finalize s = .next t →
    t = { s with
      hasher := { s.hasher with cvSp := t.hasher.cvSp }
      rootCv := t.rootCv, rootMsg := t.rootMsg, rootBlen := t.rootBlen, rootFlags := t.rootFlags, out := t.out
      outValid := t.outValid, xofLen := t.xofLen, xofIdx := t.xofIdx, phase := t.phase
      errcode := t.errcode, errSticky := t.errSticky, busy := false } ∧
    (t.errcode ≠ 0 → t = { s with errcode := t.errcode, errSticky := true, busy := false }) ∧
    (t.errcode = 0 → t.errSticky = s.errSticky) ∧
    (∀ a, memRead t.hasher.mem a = memRead s.hasher.mem a)

/-! ### XOF_BLOCK and the digest -/

/-- R230: XOF_BLOCK fails before FINALIZE and past the last block, and else completes with output block XOF_IDX, its number of
digest bytes, and the index advanced without wrapping. -/
def Obligations.XofBlockCompletesOrRefuses : Prop :=
  ∀ s : State,
    (s.phase = .accepting →
      exec .xofBlock s = .next { s with errcode := 4, errSticky := true, busy := false }) ∧
    (s.phase = .finalized → (s.xofLen.toNat + 63) / 64 ≤ s.xofIdx.toNat →
      exec .xofBlock s = .next { s with errcode := 7, errSticky := true, busy := false }) ∧
    (s.phase = .finalized → s.xofIdx.toNat < (s.xofLen.toNat + 63) / 64 →
      ∃ t, exec .xofBlock s = .next t ∧
        t.out = outWords (compress s.rootCv s.rootMsg s.xofIdx s.rootBlen s.rootFlags false) ∧
        t.outValid.toNat = min 64 (s.xofLen.toNat - 64 * s.xofIdx.toNat) ∧ 1 ≤ t.outValid.toNat ∧
        t.xofIdx.toNat = s.xofIdx.toNat + 1 ∧ t.errcode = 0 ∧ t.errSticky = s.errSticky ∧ t.busy = false)

/-- XOF_BLOCK's frame (R234(e)): only OUT, OUT_VALID, XOF_IDX, the error record and BUSY differ. -/
def Obligations.XofBlockFrame : Prop :=
  ∀ s t : State, exec .xofBlock s = .next t →
    t = { s with out := t.out, outValid := t.outValid, xofIdx := t.xofIdx, errcode := t.errcode,
                 errSticky := t.errSticky, busy := false } ∧
    (t.errcode ≠ 0 → t = { s with errcode := t.errcode, errSticky := true, busy := false }) ∧
    (t.errcode = 0 → t.errSticky = s.errSticky) ∧
    (∀ a, memRead t.hasher.mem a = memRead s.hasher.mem a)

/-- R234(a)(b)(c): after a FINALIZE with L > 0, XOF_BLOCK with XOF_IDX rewritten to 0 completes and reloads FINALIZE's own OUT
and OUT_VALID; with L ≤ 64 the next XOF_BLOCK fails with XOF_RANGE, and with L = 0 every one does. -/
def Obligations.XofIndexZeroReloadsBlockZero : Prop :=
  ∀ s t : State, Inv s → s.phase = .accepting → 0 ≤ s.outlen.toInt → exec .finalize s = .next t →
    (s.outlen ≠ 0 → ∃ u, exec .xofBlock { t with xofIdx := 0 } = .next u ∧ u.out = t.out ∧ u.outValid = t.outValid) ∧
    (s.outlen.toNat ≤ 64 → exec .xofBlock t = .next (raiseError .xofRange t)) ∧
    (s.outlen = 0 → ∀ k, exec .xofBlock { t with xofIdx := k } = .next (raiseError .xofRange { t with xofIdx := k }))

/-- R232, R235: the bytes a host keeps from OUT after FINALIZE and after each further XOF_BLOCK are digest(L) of the stored
root. -/
def Obligations.HostAssemblesDigest : Prop :=
  ∀ s t : State, Inv s → s.phase = .accepting → 0 ≤ s.outlen.toInt → exec .finalize s = .next t →
    collectXof (blockCount s.outlen.toNat - 1) t = some (digest t s.outlen.toNat)

/-- R233(b): a shorter digest of the same root is a prefix of a longer one; and digest(L) has L bytes. -/
def Obligations.DigestPrefixConsistency : Prop :=
  ∀ (s : State) (l1 l2 : Nat), l1 ≤ l2 →
    (digest s l2).take l1 = digest s l1 ∧ (digest s l1).length = l1

/-! ### COMPRESS and the compression function -/

/-- R131: COMPRESS completes in every state; T picks 8 or 16 words, words 8 to 15 being cleared for the former; OUT_VALID is
32 or 64; nothing else but ERRCODE and BUSY changes. -/
def Obligations.CompressCompletes : Prop :=
  ∀ s : State,
    (∃ t, exec (.compress true) s = .next t ∧
      t = { s with out := t.out, outValid := 32, errcode := 0, busy := false } ∧
      (∀ i (h : i < 8), t.out[i] = (compress s.cmpH s.cmpM s.cmpT s.cmpB s.cmpD true).cv[i]) ∧
      (∀ i (h : i < 8), t.out[i + 8] = 0)) ∧
    (∃ t, exec (.compress false) s = .next t ∧
      t = { s with out := t.out, outValid := 64, errcode := 0, busy := false } ∧
      t.out = outWords (compress s.cmpH s.cmpM s.cmpT s.cmpB s.cmpD false))

/-- The compression function from its inputs to its outputs. The initial state word by word, words 8 to 11 being the first
IV words, which R121 takes from general knowledge (log 5). R122, R123: one round is eight mixing steps by index. R125: seven
rounds, each with the schedule permuted once more than the one before. R127: words 0 to 7 are `v[i] ⊕ v[i+8]` whether or not the
output is truncated; words 8 to 15 are `v[i+8] ⊕ h[i]` and exist only without truncation. -/
def Obligations.CompressionOutputHalves : Prop :=
  ∀ (h : CV) (m : Block) (t : BitVec 64) (b d : Word),
    let v0 := initState h t b d
    let v := rounds 7 v0 m
    let full := compress h m t b d false
    let cut := compress h m t b d true
    (∀ i (hi : i < 8), v0[i] = h[i]) ∧ (∀ i (hi : i < 4), v0[i + 8] = iv[i]) ∧
    v0[12] = BitVec.ofNat 32 t.toNat ∧ v0[13] = BitVec.ofNat 32 (t.toNat / 2 ^ 32) ∧ v0[14] = b ∧ v0[15] = d ∧
    (∀ w s : Block, round w s = eightSteps w s) ∧
    v = round (round (round (round (round (round (round v0 (permuteTimes 0 m)) (permuteTimes 1 m)) (permuteTimes 2 m))
      (permuteTimes 3 m)) (permuteTimes 4 m)) (permuteTimes 5 m)) (permuteTimes 6 m) ∧
    (∀ i (hi : i < 8), full.cv[i] = v[i] ^^^ v[i + 8]) ∧ cut.cv = full.cv ∧ cut.forward = none ∧
    (∀ i (hi : i < 8), (outWords full)[i] = v[i] ^^^ v[i + 8]) ∧
    (∀ i (hi : i < 8), (outWords full)[i + 8] = v[i + 8] ^^^ h[i])

/-- R126: the message schedule of each round, as indices into the original message. -/
def Obligations.MessageScheduleTable : Prop :=
  let m : Vector Nat 16 := #v[0, 1, 2, 3, 4, 5, 6, 7, 8, 9, 10, 11, 12, 13, 14, 15]
  permuteTimes 0 m = #v[0, 1, 2, 3, 4, 5, 6, 7, 8, 9, 10, 11, 12, 13, 14, 15] ∧
  permuteTimes 1 m = #v[2, 6, 3, 10, 7, 0, 4, 13, 1, 11, 12, 5, 9, 14, 15, 8] ∧
  permuteTimes 2 m = #v[3, 4, 10, 12, 13, 2, 7, 14, 6, 5, 9, 0, 11, 15, 8, 1] ∧
  permuteTimes 3 m = #v[10, 7, 12, 9, 14, 3, 13, 15, 4, 0, 11, 2, 5, 8, 1, 6] ∧
  permuteTimes 4 m = #v[12, 13, 9, 11, 15, 10, 14, 8, 7, 2, 5, 3, 0, 1, 6, 4] ∧
  permuteTimes 5 m = #v[9, 14, 11, 5, 8, 12, 15, 1, 13, 3, 0, 10, 2, 6, 4, 7] ∧
  permuteTimes 6 m = #v[11, 15, 5, 0, 1, 9, 8, 6, 14, 10, 2, 12, 3, 4, 7, 13]

/-- R300: COMPRESS between FINALIZE and XOF_BLOCK does not change the block XOF_BLOCK produces. -/
def Obligations.CompressLeavesXofUnchanged : Prop :=
  ∀ (s u v : State) (c : Bool), exec (.compress c) s = .next u → s.phase = .finalized →
    s.xofIdx.toNat < blockCount s.xofLen.toNat → exec .xofBlock s = .next v →
    ∃ w, exec .xofBlock u = .next w ∧ w.out = v.out ∧ w.outValid = v.outValid ∧ w.xofIdx = v.xofIdx

/-! ### Encoding -/

/-- R93, R97: decoding the word of a well-formed command gives the command back, with every operand it admits. -/
def Obligations.DecodeOfEncode : Prop :=
  ∀ i : Instr, i.wellFormed = true → decode (encode i) = .ok i

/-- R93: a word that decodes is the word of the command it decodes to, so each command has one word; and the command is
well formed. -/
def Obligations.EncodeOfDecode : Prop :=
  ∀ (w : Word) (i : Instr), decode w = .ok i → encode i = w ∧ i.wellFormed = true

/-- R94: a word decodes exactly when it selects a row of the opcode map, to a command of that row, with N bits 14:8 and T bit
15, and no word selects two. -/
def Obligations.DecodeFollowsOpcodeMap : Prop :=
  (∀ w : Word, (∃ i, decode w = .ok i) ↔ ∃ r ∈ opcodeMap, r.selects w = true) ∧
  (∀ (w : Word) (i : Instr), decode w = .ok i → rowOf i ∈ opcodeMap ∧ (rowOf i).selects w = true) ∧
  (∀ (w : Word) (r r' : OpRow), r ∈ opcodeMap → r' ∈ opcodeMap → r.selects w = true → r'.selects w = true → r = r') ∧
  (∀ (w : Word) (n : Nat), decode w = .ok (.append n) → n = w.toNat / 256 % 128) ∧
  (∀ (w : Word) (t : Bool), decode w = .ok (.compress t) → (t = true ↔ w.toNat / 32768 % 2 = 1))

/-- R263: a word raises ILLEGAL_OPCODE exactly when its bits 7:0 name no command, whatever its other bits, and nothing is
executed. -/
def Obligations.IllegalOpcodeExactly : Prop :=
  ∀ w : Word,
    (decode w = .error .illegalOpcode ↔ (w.toNat % 256 = 0 ∨ 6 ≤ w.toNat % 256)) ∧
    (∀ s : State, s.cmdLatch = w → decode w = .error .illegalOpcode →
      coreStep s = .next { s with errcode := 1, errSticky := true, busy := false })

/-- R264: a word raises RESERVED_BITS exactly when its opcode is legal and a bit the opcode does not use is 1, and nothing is
executed. -/
def Obligations.ReservedBitsExactly : Prop :=
  ∀ w : Word,
    (decode w = .error .reservedBits ↔
      ((w.toNat % 256 = 1 ∨ w.toNat % 256 = 3 ∨ w.toNat % 256 = 4) ∧ w.extractLsb' 8 24 ≠ 0) ∨
      (w.toNat % 256 = 2 ∧ w.extractLsb' 15 17 ≠ 0) ∨
      (w.toNat % 256 = 5 ∧ (w.extractLsb' 16 16 ≠ 0 ∨ w.extractLsb' 8 7 ≠ 0))) ∧
    (∀ s : State, s.cmdLatch = w → decode w = .error .reservedBits →
      coreStep s = .next { s with errcode := 2, errSticky := true, busy := false })

/-- V20: some words of each command, and some that are none, decode as the spec's encodings say. -/
def Obligations.DecodeSanity : Prop :=
  decode 0x00000001 = .ok .init ∧ decode 0x00004002 = .ok (.append 64) ∧ decode 0x00007F02 = .ok (.append 127) ∧
  decode 0x00000003 = .ok .finalize ∧ decode 0x00000004 = .ok .xofBlock ∧ decode 0x00000005 = .ok (.compress false) ∧
  decode 0x00008005 = .ok (.compress true) ∧ decode 0x00008002 = .error .reservedBits ∧
  decode 0x00000006 = .error .illegalOpcode

/-! ### Steps and results -/

/-- R296: when a command is in flight and its latency has passed, a step is exactly `exec` of the command its latched word
decodes to; nothing is added around it. -/
def Obligations.StepRunsDecodedCommand : Prop :=
  ∀ (s : State) (i : Instr), s.busy = true → s.coreDelay = 0 → decode s.cmdLatch = .ok i → step s = exec i s

/-- R268, R269: a command that answers with a nonzero code has changed nothing but ERRCODE, ERR_STICKY and BUSY, and so has a
decode error; the next command is accepted. -/
def Obligations.CommandErrorsArePrecise : Prop :=
  ∀ s t : State, coreStep s = .next t → t.errcode ≠ 0 →
    t = { s with errcode := t.errcode, errSticky := true, busy := false } ∧
    ∀ w, ∃ u, busWrite 0x000 4 w t = .ok u ∧ u.cmdLatch = w ∧ u.busy = true

/-- R261: which command can end in which code; codes 1 and 2 come from the decoder, before a command is known. -/
def Obligations.ResultCodesByCommand : Prop :=
  (∀ s t : State, exec .init s = .next t → t.errcode = 0) ∧
  (∀ (s t : State) (n : Nat), exec (.append n) s = .next t → t.errcode ∈ [0, 3, 5, 8]) ∧
  (∀ s t : State, exec .finalize s = .next t → t.errcode ∈ [0, 3, 6]) ∧
  (∀ s t : State, exec .xofBlock s = .next t → t.errcode ∈ [0, 4, 7]) ∧
  (∀ (s t : State) (c : Bool), exec (.compress c) s = .next t → t.errcode = 0) ∧
  (∀ (s t : State) (e : CmdError), decode s.cmdLatch = .error e → coreStep s = .next t → t.errcode ∈ [1, 2])

/-- R30, R34, R35, R38: no command changes OUTLEN, IN, CMP_* or CMD_LATCH, nor the host; every command that answers clears
BUSY. -/
def Obligations.CommandsKeepOperands : Prop :=
  ∀ (i : Instr) (s t : State), exec i s = .next t →
    t.outlen = s.outlen ∧ t.inWin = s.inWin ∧ t.cmpH = s.cmpH ∧ t.cmpM = s.cmpM ∧ t.cmpT = s.cmpT ∧ t.cmpB = s.cmpB ∧
    t.cmpD = s.cmpD ∧ t.cmdLatch = s.cmdLatch ∧ t.host = s.host ∧ t.draws = s.draws ∧ t.busy = false

/-- R23: a step changes the phase only so: Accepting to Finalized by the completion of a FINALIZE that succeeds, Finalized to
Accepting by the completion of INIT or by reset. -/
def Obligations.PhaseChangesOnlyByFinalizeInitReset : Prop :=
  ∀ s t : State, step s = .next t →
    (s.phase = .accepting → t.phase = .finalized →
      coreTurn s = true ∧ decode s.cmdLatch = .ok .finalize ∧ t.errcode = 0) ∧
    (s.phase = .finalized → t.phase = .accepting →
      (coreTurn s = true ∧ decode s.cmdLatch = .ok .init) ∨
      (coreTurn s = false ∧ s.host.prog[s.host.pos]? = some .reset))

/-- R36, R269: a step clears ERR_STICKY only by the completion of INIT or by reset, and sets it only by a command that ends in
an error. -/
def Obligations.ErrStickyChangesOnlyByErrorInitReset : Prop :=
  ∀ s t : State, step s = .next t →
    (s.errSticky = true → t.errSticky = false →
      (coreTurn s = true ∧ decode s.cmdLatch = .ok .init) ∨
      (coreTurn s = false ∧ s.host.prog[s.host.pos]? = some .reset)) ∧
    (s.errSticky = false → t.errSticky = true → coreTurn s = true ∧ t.errcode ≠ 0) ∧
    (coreTurn s = true → t.errcode ≠ 0 → t.errSticky = true)

/-! ### The register window -/

/-- R294: a write to CMD while BUSY = 0 latches the word and sets BUSY, does nothing else and never fails; the latency drawn is
the model's (log 2). -/
def Obligations.CmdWriteIssuesCommand : Prop :=
  ∀ (s : State) (w : Word), s.busy = false →
    ∃ t, busWrite 0x000 4 w s = .ok t ∧
      t = { s with cmdLatch := w, busy := true, coreDelay := t.coreDelay, draws := t.draws }

/-- R66: a write to a read-only register or a debug view is ignored. -/
def Obligations.ReadOnlyWritesIgnored : Prop :=
  ∀ (s : State) (off : Nat) (v : Word), s.busy = false → off % 4 = 0 →
    (off ∈ [0x004, 0x008, 0x00C, 0x010, 0x014, 0x018, 0x01C, 0x028, 0x02C, 0x048, 0x04C] ∨
      (0x140 ≤ off ∧ off < 0x200) ∨ (0x400 ≤ off ∧ off < 0x1000)) →
    busWrite off 4 v s = .ok s

/-- R67: a reserved offset reads 0 and ignores writes. -/
def Obligations.ReservedOffsetsReadZero : Prop :=
  ∀ (s : State) (off : Nat) (v : Word), s.busy = false → off % 4 = 0 →
    ((0x050 ≤ off ∧ off < 0x080) ∨ (0x0E0 ≤ off ∧ off < 0x100) ∨ (0x200 ≤ off ∧ off < 0x400)) →
    busRead off 4 s = .ok (0, s) ∧ busWrite off 4 v s = .ok s

/-- R64, R41: a write of each RW register, at its offset, changes that register, or that half of it, to the value written and
nothing else; it reads back, and the read of every other offset is what it was. -/
def Obligations.OperandWriteReadsBack : Prop :=
  ∀ (s : State) (v : Word), s.busy = false →
    busWrite 0x020 4 v s = .ok { s with outlen := BitVec.ofNat 64 (s.outlen.toNat / 2 ^ 32 * 2 ^ 32 + v.toNat) } ∧
    busWrite 0x024 4 v s = .ok { s with outlen := BitVec.ofNat 64 (v.toNat * 2 ^ 32 + s.outlen.toNat % 2 ^ 32) } ∧
    busWrite 0x030 4 v s = .ok { s with xofIdx := BitVec.ofNat 64 (s.xofIdx.toNat / 2 ^ 32 * 2 ^ 32 + v.toNat) } ∧
    busWrite 0x034 4 v s = .ok { s with xofIdx := BitVec.ofNat 64 (v.toNat * 2 ^ 32 + s.xofIdx.toNat % 2 ^ 32) } ∧
    busWrite 0x038 4 v s = .ok { s with cmpT := BitVec.ofNat 64 (s.cmpT.toNat / 2 ^ 32 * 2 ^ 32 + v.toNat) } ∧
    busWrite 0x03C 4 v s = .ok { s with cmpT := BitVec.ofNat 64 (v.toNat * 2 ^ 32 + s.cmpT.toNat % 2 ^ 32) } ∧
    busWrite 0x040 4 v s = .ok { s with cmpB := v } ∧
    busWrite 0x044 4 v s = .ok { s with cmpD := v } ∧
    (∀ i (hi : i < 16), busWrite (0x080 + 4 * i) 4 v s = .ok { s with inWin := s.inWin.set i v }) ∧
    (∀ i (hi : i < 8), busWrite (0x0C0 + 4 * i) 4 v s = .ok { s with cmpH := s.cmpH.set i v }) ∧
    (∀ i (hi : i < 16), busWrite (0x100 + 4 * i) 4 v s = .ok { s with cmpM := s.cmpM.set i v }) ∧
    ∀ off, off % 4 = 0 →
      ((0x020 ≤ off ∧ off < 0x028) ∨ (0x030 ≤ off ∧ off < 0x048) ∨ (0x080 ≤ off ∧ off < 0x0E0) ∨
        (0x100 ≤ off ∧ off < 0x140)) →
      ∃ t, busWrite off 4 v s = .ok t ∧ busRead off 4 t = .ok (v, t) ∧
        ∀ off', off' % 4 = 0 → off' < 0x1000 → off' ≠ off →
          (busRead off' 4 t).map Prod.fst = (busRead off' 4 s).map Prod.fst

/-- R63, R41, R68: while BUSY = 0 the read of each register, at its offset, gives that register's value, a 64-bit one its low
half first; CMD reads 0; every aligned offset of the window reads, and a read changes nothing but the model's count of free
values drawn (log 3). KEY, the reserved offsets and the debug views have statements of their own. -/
def Obligations.ReadsChangeNothing : Prop :=
  ∀ s : State, s.busy = false →
    busRead 0x000 4 s = .ok (0, s) ∧
    busRead 0x004 4 s = .ok (statusWord s, s) ∧
    busRead 0x008 4 s = .ok (BitVec.ofNat 32 s.errcode.toNat, s) ∧
    busRead 0x00C 4 s = .ok (BitVec.ofNat 32 s.hasher.bufLen.toNat, s) ∧
    busRead 0x010 4 s = .ok (BitVec.ofNat 32 s.hasher.chunkCtr.toNat, s) ∧
    busRead 0x014 4 s = .ok (BitVec.ofNat 32 (s.hasher.chunkCtr.toNat / 2 ^ 32), s) ∧
    busRead 0x018 4 s = .ok (BitVec.ofNat 32 s.hasher.cvSp.toNat, s) ∧
    busRead 0x01C 4 s = .ok (BitVec.ofNat 32 s.outValid.toNat, s) ∧
    busRead 0x020 4 s = .ok (BitVec.ofNat 32 s.outlen.toNat, s) ∧
    busRead 0x024 4 s = .ok (BitVec.ofNat 32 (s.outlen.toNat / 2 ^ 32), s) ∧
    busRead 0x028 4 s = .ok (BitVec.ofNat 32 s.xofLen.toNat, s) ∧
    busRead 0x02C 4 s = .ok (BitVec.ofNat 32 (s.xofLen.toNat / 2 ^ 32), s) ∧
    busRead 0x030 4 s = .ok (BitVec.ofNat 32 s.xofIdx.toNat, s) ∧
    busRead 0x034 4 s = .ok (BitVec.ofNat 32 (s.xofIdx.toNat / 2 ^ 32), s) ∧
    busRead 0x038 4 s = .ok (BitVec.ofNat 32 s.cmpT.toNat, s) ∧
    busRead 0x03C 4 s = .ok (BitVec.ofNat 32 (s.cmpT.toNat / 2 ^ 32), s) ∧
    busRead 0x040 4 s = .ok (s.cmpB, s) ∧
    busRead 0x044 4 s = .ok (s.cmpD, s) ∧
    busRead 0x048 4 s = .ok (s.rootBlen, s) ∧
    busRead 0x04C 4 s = .ok (s.rootFlags, s) ∧
    (∀ i (hi : i < 16), busRead (0x080 + 4 * i) 4 s = .ok (s.inWin[i], s)) ∧
    (∀ i (hi : i < 8), busRead (0x0C0 + 4 * i) 4 s = .ok (s.cmpH[i], s)) ∧
    (∀ i (hi : i < 16), busRead (0x100 + 4 * i) 4 s = .ok (s.cmpM[i], s)) ∧
    (∀ i (hi : i < 16), busRead (0x140 + 4 * i) 4 s = .ok (s.out[i], s)) ∧
    (∀ i (hi : i < 8), busRead (0x1A0 + 4 * i) 4 s = .ok (s.rootCv[i], s)) ∧
    (∀ i (hi : i < 16), busRead (0x1C0 + 4 * i) 4 s = .ok (s.rootMsg[i], s)) ∧
    ∀ off, off % 4 = 0 → off < 0x1000 →
      ∃ v t, busRead off 4 s = .ok (v, t) ∧ t = { s with draws := t.draws } ∧ (off < 0x400 → t = s)

/-- R65: an access of another width, or at an offset that is not a multiple of 4, is a bus fault, in every state. -/
def Obligations.MisalignedOrNarrowAccessFaults : Prop :=
  ∀ (s : State) (off width : Nat) (v : Word), (width ≠ 4 ∨ off % 4 ≠ 0) →
    busRead off width s = .error (.busFault off width) ∧ busWrite off width v s = .error (.busFault off width)

/-- R297, R36: while BUSY = 1 the host may only read STATUS, which then has bit 1 set and stays without effect; any other access
faults. -/
def Obligations.BusyAllowsOnlyStatusReads : Prop :=
  ∀ (s : State) (off : Nat) (v : Word), s.busy = true → off % 4 = 0 → off < 0x1000 →
    busRead 0x004 4 s = .ok (statusWord s, s) ∧ (statusWord s).getLsbD 1 = true ∧
    (off ≠ 0x004 → busRead off 4 s = .error (.busyAccess off)) ∧
    busWrite off 4 v s = .error (.busyAccess off)

/-- R36: STATUS bit by bit. -/
def Obligations.StatusBits : Prop :=
  ∀ s : State, (statusWord s).getLsbD 0 = (s.phase == .finalized) ∧ (statusWord s).getLsbD 1 = s.busy ∧
    (statusWord s).getLsbD 2 = s.errSticky ∧ ∀ i, 3 ≤ i → (statusWord s).getLsbD i = false

/-- R24: KEY reads as the IV in every state and ignores writes. -/
def Obligations.KeyIsHardwired : Prop :=
  ∀ (s : State) (i : Nat) (v : Word), s.busy = false → (hi : i < 8) →
    busRead (0x180 + 4 * i) 4 s = .ok (iv[i], s) ∧ busWrite (0x180 + 4 * i) 4 v s = .ok s

/-- R69: a BUF debug word has the stored bytes at the live places, and a STACK debug word of a live entry is that entry's word.
What the unspecified rest reads as is the model's choice (log 3): the bytes, or the word, of the free value of the draw count,
one word a read, and a read changes nothing but that count. -/
def Obligations.DebugViewsShowLiveContents : Prop :=
  ∀ s : State, s.busy = false →
    (∀ j, j < 256 → ∃ w t, busRead (0x400 + 4 * j) 4 s = .ok (w, t) ∧ t = { s with draws := t.draws } ∧
      ∀ k, k < 4 → wordByte w k =
        if 4 * j + k < s.hasher.bufLen.toNat then storedByte s.hasher.mem (bufAddr (4 * j + k))
        else wordByte (Config.freeWord s.draws) k) ∧
    (∀ e w (hw : w < 8), e < 64 → ∃ x t, busRead (0x800 + 32 * e + 4 * w) 4 s = .ok (x, t) ∧
      t = { s with draws := t.draws } ∧ x = if e < s.hasher.cvSp.toNat then (stackEntry s.hasher.mem e)[w] else Config.freeWord s.draws)

/-- R60: the window stands at B3_BASE, a multiple of 4096 that is left open (log 1), and host address B3_BASE + off reaches
offset off. -/
def Obligations.WindowStandsAtBase : Prop :=
  Config.b3Base % 4096 = 0 ∧
  ∀ (s : State) (off width : Nat) (v : Word),
    memReadAt (Config.b3Base + off) width s = busRead off width s ∧
    memWriteAt (Config.b3Base + off) width v s = busWrite off width v s

/-- R98: `wr64 OFF, V` writes the low half of V's 64-bit two's-complement value at OFF and the high half at OFF + 4; both
halves of -1 are 0xFFFFFFFF; to OUTLEN it writes the value whole. -/
def Obligations.Wr64WritesWholeRegister : Prop :=
  (∀ (off : Nat) (v : Int), wr64Stmts off v =
    [.wr off 4 (BitVec.ofInt 32 v), .wr (off + 4) 4 (BitVec.ofInt 32 (v / 2 ^ 32))]) ∧
  wr64Stmts 0x020 (-1) = [.wr 0x020 4 0xFFFFFFFF, .wr 0x024 4 0xFFFFFFFF] ∧
  ∀ (s : State) (v : Int), s.busy = false →
    (busWrite 0x020 4 (loWord (BitVec.ofInt 64 v)) s).bind (busWrite 0x024 4 (hiWord (BitVec.ofInt 64 v))) =
      .ok { s with outlen := BitVec.ofInt 64 v }

/-- R96: what each host statement does: an access of the window, a read into a variable, a label, the conditional and
unconditional branches to a label the program defines, and arithmetic on unbounded integers; the other variables, the program
and the bytes kept stay. The model's choices in it: a label takes a step, the first of equal labels counts and x0 is written
like any variable (log 7); the mask test is stated of variables that are not negative (log 14). -/
def Obligations.HostStatementEffects : Prop :=
  ∀ s : State,
    (∀ (off : Nat) (v : Word) (t : State), busWrite off 4 v s = .ok t → execHost (.wr off 4 v) s = .next (advance t)) ∧
    (∀ (x : Fin 32) (off : Nat) (v : Word) (t : State), busRead off 4 s = .ok (v, t) →
      ∃ u, execHost (.rd x off 4) s = .next u ∧ u.host.vars[x] = (v.toNat : Int) ∧
        (∀ z : Fin 32, z ≠ x → u.host.vars[z] = s.host.vars[z]) ∧
        u = { t with host := { s.host with pos := s.host.pos + 1, vars := u.host.vars } }) ∧
    (∀ l : Nat, execHost (.label l) s = .next (advance s)) ∧
    (∀ (x y : Fin 32) (imm : Int), ∃ u, execHost (.addi x y imm) s = .next u ∧
      u.host.vars[x] = s.host.vars[y] + imm ∧ (∀ z : Fin 32, z ≠ x → u.host.vars[z] = s.host.vars[z]) ∧
      u = { s with host := { s.host with pos := s.host.pos + 1, vars := u.host.vars } }) ∧
    advance s = { s with host := { s.host with pos := s.host.pos + 1 } } ∧
    ∀ l k : Nat, labelIndex l s.host.prog 0 = some k →
      (∀ (x : Fin 32) (mask : Word), 0 ≤ s.host.vars[x] →
        execHost (.bnz x mask l) s = .next { s with host := { s.host with
          pos := if s.host.vars[x].toNat &&& mask.toNat = 0 then s.host.pos + 1 else k } } ∧
        execHost (.bz x mask l) s = .next { s with host := { s.host with
          pos := if s.host.vars[x].toNat &&& mask.toNat = 0 then k else s.host.pos + 1 } }) ∧
      execHost (.b l) s = .next { s with host := { s.host with pos := k } } ∧
      ∀ x y : Fin 32, execHost (.blt x y l) s = .next { s with host := { s.host with
        pos := if s.host.vars[x] < s.host.vars[y] then k else s.host.pos + 1 } }

/-! ### Invariants and whole-machine rules -/

/-- The invariant holds right after reset (R290, R28). -/
def Obligations.InvHoldsAtReset : Prop := Inv State.reset

/-- Every step, of the core or of the host, keeps the invariant (R28, R29, R224, R260). -/
def Obligations.StepKeepsInv : Prop := ∀ s t : State, Inv s → step s = .next t → Inv t

/-- R28: in the Accepting phase the stack has popcount(CHUNK_CTR) entries, none exactly when no chunk was flushed, and a flushed
chunk means a byte is pending. -/
def Obligations.AcceptingStateInvariants : Prop :=
  ∀ s : State, Inv s → s.phase = .accepting →
    s.hasher.cvSp.toNat = popcount s.hasher.chunkCtr.toNat ∧
    (0 < s.hasher.chunkCtr.toNat → 1 ≤ s.hasher.bufLen.toNat) ∧
    (s.hasher.cvSp = 0 ↔ s.hasher.chunkCtr = 0) ∧
    s.hasher.bufLen.toNat ≤ 1024 ∧ s.hasher.cvSp.toNat ≤ 64

/-- R271: the model faults on each of the unreachable internal states, and in a state that keeps the invariant no command meets
one: every command answers a next state. -/
def Obligations.NoCommandMeetsUnreachableState : Prop :=
  (∀ (s : State) (i : Instr), Inv s → ∃ t, exec i s = .next t) ∧
  (∀ h : HasherState, h.bufLen = 0 → rootTree h = .error (.unreachableState .rootTreeEmptyBuffer)) ∧
  (∀ (bytes : List Byte) (key : CV) (t : BitVec 64) (r f : Bool), (bytes.length = 0 ∨ 1024 < bytes.length) →
    processChunk bytes key t r f = .error (.unreachableState .chunkLength)) ∧
  (∀ (h : HasherState) (cv : CV), 64 ≤ h.cvSp.toNat → push cv h = .error (.unreachableState .pushFull)) ∧
  (∀ h : HasherState, h.cvSp = 0 → pop h = .error (.unreachableState .popEmpty))

/-- R25, R27: no command reads a BUF byte at or above BUF_LEN or a STACK entry at or above CV_SP: two states that differ only in
such bytes give, under every command, results that differ only in such bytes. -/
def Obligations.StaleBytesNeverMatter : Prop :=
  ∀ (i : Instr) (s s' t : State), sameButStale s s' → exec i s = .next t →
    ∃ t', exec i s' = .next t' ∧ sameButStale t t'

/-- R295: with an idle host every command in flight completes: after its latency and one more step BUSY is 0. -/
def Obligations.CommandCompletesUnderIdleHost : Prop :=
  ∀ s : State, Inv s → s.busy = true → s.host.prog[s.host.pos]? = none →
    ∃ t, runSteps (s.coreDelay + 1) s = .next t ∧ t.busy = false

/-- R99, R71, R268: a host that polls while a command is in flight leaves the loop, whatever the latency, after the command has
completed, in success or in an error, a word that does not decode included: the block's registers are those the completion step
gives. The number of steps and the latency are the model's (log 2). -/
def Obligations.PollReturnsAfterCompletion : Prop :=
  ∀ (s u : State) (before after : List HostStmt) (k : Nat),
    s.busy = true → coreStep s = .next u →
    s.host.prog = before ++ pollStmts k ++ after → s.host.pos = before.length →
    labelIndex k s.host.prog 0 = some before.length →
    ∃ n t, runSteps n s = .next t ∧ t.host.pos = before.length + 3 ∧
      t = { u with host := t.host, coreDelay := t.coreDelay } ∧ t.host.prog = s.host.prog
end

