-- ==== Sys2Proof/Laws/Bytes.lean ====
section
/-! SUPPORT. The byte-order helpers: lengths, and each conversion undoing the other (R10, R62). -/

namespace Sys2Proof.Machine

@[simp] theorem wordBytes_length (w : Word) : (wordBytes w).length = 4 := rfl

@[simp] theorem lebytes_nil : lebytes [] = [] := rfl

@[simp] theorem lebytes_cons (w : Word) (ws : List Word) : lebytes (w :: ws) = wordBytes w ++ lebytes ws := rfl

theorem lebytes_append (us ws : List Word) : lebytes (us ++ ws) = lebytes us ++ lebytes ws := by
  simp [lebytes]

@[simp] theorem lebytes_length (ws : List Word) : (lebytes ws).length = 4 * ws.length := by
  induction ws with
  | nil => rfl
  | cons w ws ih => simp [ih]; omega

/-- The word of its own bytes (R10). -/
theorem le32_wordByte (w : Word) : le32 (wordByte w 0) (wordByte w 1) (wordByte w 2) (wordByte w 3) = w := by
  apply BitVec.eq_of_getLsbD_eq
  intro i hi
  simp only [le32, wordByte, BitVec.getLsbD_or, BitVec.getLsbD_shiftLeft, BitVec.getLsbD_setWidth,
    BitVec.getLsbD_extractLsb']
  rcases lt_or_ge i 8 with h1 | h1
  · simp [h1, hi, show i < 16 by omega, show i < 24 by omega]
  rcases lt_or_ge i 16 with h2 | h2
  · simp [hi, show ¬ i < 8 by omega, h2, show i < 24 by omega, show i - 8 < 8 by omega, show 8 + (i - 8) = i by omega,
      show i - 8 < 32 by omega]
  rcases lt_or_ge i 24 with h3 | h3
  · simp [hi, show ¬ i < 8 by omega, show ¬ i < 16 by omega, h3, show ¬ i - 8 < 8 by omega, show i - 16 < 8 by omega,
      show 16 + (i - 16) = i by omega, show i - 16 < 32 by omega]
  · simp [hi, show ¬ i < 8 by omega, show ¬ i < 16 by omega, show ¬ i < 24 by omega, show ¬ i - 8 < 8 by omega,
      show ¬ i - 16 < 8 by omega, show i - 24 < 8 by omega, show 24 + (i - 24) = i by omega, show i - 24 < 32 by omega]

theorem wordByte_le32_aux (b0 b1 b2 b3 : Byte) (k : Nat) (hk : k < 4) :
    wordByte (le32 b0 b1 b2 b3) k = [b0, b1, b2, b3].getD k 0 := by
  apply BitVec.eq_of_getLsbD_eq
  intro i hi
  obtain rfl | rfl | rfl | rfl : k = 0 ∨ k = 1 ∨ k = 2 ∨ k = 3 := by omega
  all_goals
    simp only [le32, wordByte, BitVec.getLsbD_or, BitVec.getLsbD_shiftLeft, BitVec.getLsbD_setWidth,
      BitVec.getLsbD_extractLsb']
  · simp [hi, show i < 32 by omega, show i < 16 by omega, show i < 24 by omega]
  · simp [hi, show 8 + i < 32 by omega, show 8 + i < 16 by omega, show 8 + i < 24 by omega, show ¬ 8 + i < 8 by omega,
      show 8 + i - 8 = i by omega, show i < 32 by omega]
  · simp [hi, show 16 + i < 32 by omega, show 16 + i < 24 by omega, show 16 + i - 8 = 8 + i by omega,
      show 16 + i - 16 = i by omega, show i < 32 by omega, BitVec.getLsbD_of_ge b0 (16 + i) (by omega)]
  · simp [hi, show 24 + i < 32 by omega, show 24 + i - 8 = 16 + i by omega, show 24 + i - 16 = 8 + i by omega,
      show 24 + i - 24 = i by omega, show i < 32 by omega,
      BitVec.getLsbD_of_ge b0 (24 + i) (by omega), BitVec.getLsbD_of_ge b1 (16 + i) (by omega)]

/-- The bytes of a word made of four bytes (R10). -/
@[simp] theorem wordBytes_le32 (b0 b1 b2 b3 : Byte) : wordBytes (le32 b0 b1 b2 b3) = [b0, b1, b2, b3] := by
  simp [wordBytes, wordByte_le32_aux]

/-- A word is determined by its bytes (R10). -/
theorem wordBytes_inj {v w : Word} (h : wordBytes v = wordBytes w) : v = w := by
  simp only [wordBytes, List.cons.injEq] at h
  rw [← le32_wordByte v, ← le32_wordByte w, h.1, h.2.1, h.2.2.1, h.2.2.2.1]

/-- The bytes of `words` are the bytes given, padded with zeros to 64 (R10). -/
theorem lebytes_words (bs : List Byte) :
    lebytes (words bs).toList = (List.range 64).map (fun i => bs.getD i 0) := by
  simp only [words, wordAt, Vector.toList, lebytes_cons, lebytes_nil, wordBytes_le32]
  rfl

/-- Writing a slice of at most 64 bytes to IN and taking its length gives the slice back (R34, R100). -/
theorem take_lebytes_words (bs : List Byte) (h : bs.length ≤ 64) :
    (lebytes (words bs).toList).take bs.length = bs := by
  rw [lebytes_words]
  apply List.ext_getElem
  · simp; omega
  · intro i h1 h2
    simp at h1
    simp [List.getD_eq_getElem?_getD, h2]

end Sys2Proof.Machine
end

