-- ==== Sys2Proof/Laws/Compression.lean ====
section
/-! SUPPORT. The mixing step by index: what each of the sixteen words is after it. -/

namespace Sys2Proof.Machine

/-- A mixing step on four distinct indices puts the four results of `mixG` there and leaves the other words (R122). -/
theorem stepG_getElem {a b c d : Fin 16} (mx my : Word) (v : Block) (hab : a ≠ b) (hac : a ≠ c) (had : a ≠ d)
    (hbc : b ≠ c) (hbd : b ≠ d) (hcd : c ≠ d) (i : Nat) (hi : i < 16) : (stepG a b c d mx my v)[i] =
      let g := mixG v[a] v[b] v[c] v[d] mx my
      if i = a then g.1 else if i = b then g.2.1 else if i = c then g.2.2.1 else if i = d then g.2.2.2 else v[i] := by
  have h1 := Fin.val_ne_of_ne hab
  have h2 := Fin.val_ne_of_ne hac
  have h3 := Fin.val_ne_of_ne had
  have h4 := Fin.val_ne_of_ne hbc
  have h5 := Fin.val_ne_of_ne hbd
  have h6 := Fin.val_ne_of_ne hcd
  simp only [stepG, mixG, Vector.getElem_set, Fin.getElem_fin, h1, h2, h3, h4, h5, h6, h1.symm, h2.symm, h3.symm, h4.symm,
    h5.symm, h6.symm, if_true, if_false]
  by_cases e1 : i = a
  · subst e1; simp [h1.symm, h2.symm, h3.symm]
  by_cases e2 : i = b
  · subst e2; simp [h1.symm]
  by_cases e3 : i = c
  · subst e3; simp [h4, h2.symm, h4.symm]
  by_cases e4 : i = d
  · subst e4; simp [h5, h6, h3.symm, h5.symm, h6.symm]
  simp [e1, e2, e3, e4, Ne.symm e1, Ne.symm e2, Ne.symm e3, Ne.symm e4]

end Sys2Proof.Machine
end

