-- ==== Sys2Proof/Laws/Memory.lean ====
section
/-! SUPPORT. The memory laws: read after write, and the canonical form kept by every memory operation. -/

namespace Sys2Proof.Machine

/-- Read after write: the byte written at its offset, every other offset as before. -/
theorem memRead_memWrite (m : Memory) (a : Nat) (b : Byte) (c : Nat) :
    memRead (memWrite m a b) c = if c = a then some b else memRead m c := by
  induction m with
  | nil => simp [memWrite, memRead, eq_comm]
  | cons cell rest ih =>
    obtain ⟨k, d⟩ := cell
    simp only [memWrite]
    split
    · by_cases h : c = a
      · simp [memRead, h]
      · simp [memRead, h, Ne.symm h]
    split
    · rename_i h; subst h
      by_cases h : c = a
      · simp [memRead, h]
      · simp [memRead, h, Ne.symm h]
    · by_cases hk : k = c
      · subst hk; simp [memRead]; omega
      · simp [memRead, hk, ih]

/-- A write keeps the offsets above any bound the old ones and the new one are above. -/
theorem mem_memWrite {m : Memory} {a : Nat} {b : Byte} {c : Host.Cell} (h : c ∈ memWrite m a b) :
    c = (a, b) ∨ c ∈ m := by
  induction m with
  | nil => simpa [memWrite] using h
  | cons cell rest ih =>
    obtain ⟨k, d⟩ := cell
    simp only [memWrite] at h
    split at h
    · simpa using h
    split at h
    · rcases List.mem_cons.1 h with h | h <;> simp [h]
    · rcases List.mem_cons.1 h with h | h
      · simp [h]
      · rcases ih h with h | h <;> simp [h]

/-- A write keeps the canonical form. -/
theorem memWrite_wf {m : Memory} (hm : Memory.wf m) (a : Nat) (b : Byte) : Memory.wf (memWrite m a b) := by
  induction m with
  | nil => simp [memWrite]
  | cons cell rest ih =>
    obtain ⟨k, d⟩ := cell
    obtain ⟨h1, h2⟩ := List.pairwise_cons.1 hm
    simp only [memWrite]
    split
    · rename_i hlt
      refine List.pairwise_cons.2 ⟨fun c hc => ?_, hm⟩
      rcases List.mem_cons.1 hc with rfl | hc
      · exact hlt
      · exact lt_trans hlt (h1 c hc)
    split
    · rename_i _ heq; subst heq
      exact List.pairwise_cons.2 ⟨h1, h2⟩
    · rename_i hlt hne
      refine List.pairwise_cons.2 ⟨fun c hc => ?_, ih h2⟩
      rcases mem_memWrite hc with rfl | hc
      · show k < a; omega
      · exact h1 c hc

/-- A write at an offset of BUF or STACK keeps every listed offset there (R41). -/
theorem memWrite_inRange {m : Memory} (hm : Memory.inRange m) {a : Nat} (b : Byte)
    (ha : 0x400 ≤ a ∧ a < 0x1000) : Memory.inRange (memWrite m a b) := by
  intro c hc
  rcases mem_memWrite hc with rfl | hc
  · exact ha
  · exact hm c hc

/-- Read after writing a list of bytes. -/
theorem memRead_memWriteList (bs : List Byte) : ∀ (m : Memory) (a c : Nat),
    memRead (memWriteList m a bs) c = if a ≤ c ∧ c < a + bs.length then bs[c - a]? else memRead m c := by
  induction bs with
  | nil => intro m a c; simp [memWriteList]
  | cons b bs ih =>
    intro m a c
    rw [memWriteList, ih, memRead_memWrite]
    simp only [List.length_cons]
    rcases lt_trichotomy c a with h | h | h
    · rw [if_neg (by omega), if_neg (by omega), if_neg (by omega)]
    · subst h; rw [if_neg (by omega), if_pos rfl, if_pos (by omega)]; simp
    · by_cases h2 : c < a + 1 + bs.length
      · rw [if_pos (by omega), if_pos (by omega), show c - a = (c - (a + 1)) + 1 by omega, List.getElem?_cons_succ]
      · rw [if_neg (by omega), if_neg (by omega), if_neg (by omega)]

/-- Writing a list of bytes keeps the canonical form. -/
theorem memWriteList_wf (bs : List Byte) : ∀ {m : Memory} (_ : Memory.wf m) (a : Nat),
    Memory.wf (memWriteList m a bs) := by
  induction bs with
  | nil => intro m hm a; exact hm
  | cons b bs ih => intro m hm a; exact ih (memWrite_wf hm a b) (a + 1)

/-- Writing a list of bytes inside BUF and STACK keeps every listed offset there. -/
theorem memWriteList_inRange (bs : List Byte) : ∀ {m : Memory} (_ : Memory.inRange m) {a : Nat}
    (_ : 0x400 ≤ a) (_ : a + bs.length ≤ 0x1000), Memory.inRange (memWriteList m a bs) := by
  induction bs with
  | nil => intro m hm a _ _; exact hm
  | cons b bs ih =>
    intro m hm a h1 h2
    simp only [List.length_cons] at h2
    exact ih (memWrite_inRange hm b ⟨h1, by omega⟩) (by omega) (by omega)

/-- A write never makes an offset unlisted. -/
theorem memRead_memWrite_ne_none {m : Memory} {a c : Nat} {b : Byte} (h : memRead m c ≠ none) :
    memRead (memWrite m a b) c ≠ none := by
  rw [memRead_memWrite]; split <;> simp [h]

/-- Writing a list of bytes never makes an offset unlisted. -/
theorem memRead_memWriteList_ne_none {m : Memory} {a c : Nat} (bs : List Byte)
    (h : memRead m c ≠ none ∨ (a ≤ c ∧ c < a + bs.length)) : memRead (memWriteList m a bs) c ≠ none := by
  rw [memRead_memWriteList]
  split
  · rename_i h2; simp; omega
  · rename_i h2; exact h.resolve_right h2

/-- Two memories that agree on a range of offsets hold the same bytes there. -/
theorem storedBytes_congr {m m' : Memory} {a n : Nat} (h : ∀ c, a ≤ c → c < a + n → memRead m c = memRead m' c) :
    storedBytes m a n = storedBytes m' a n := by
  apply List.map_congr_left
  intro i hi
  simp only [List.mem_range] at hi
  simp only [storedByte, h (a + i) (by omega) (by omega)]

@[simp] theorem storedBytes_length (m : Memory) (a n : Nat) : (storedBytes m a n).length = n := by
  simp [storedBytes]

@[simp] theorem bufBytes_length (m : Memory) (n : Nat) : (bufBytes m n).length = n := storedBytes_length m _ n

/-- One more byte of the buffer. -/
theorem bufBytes_succ (m : Memory) (n : Nat) : bufBytes m (n + 1) = bufBytes m n ++ [storedByte m (bufAddr n)] := by
  simp [bufBytes, storedBytes, List.range_succ, bufAddr]

/-- A write at a BUF offset at or above `n` leaves the first `n` bytes of BUF. -/
theorem bufBytes_memWrite (m : Memory) (n a : Nat) (b : Byte) (h : bufAddr n ≤ a) :
    bufBytes (memWrite m a b) n = bufBytes m n := by
  simp only [bufAddr] at h
  apply storedBytes_congr
  intro c _ h2
  rw [memRead_memWrite, if_neg (by simp only [bufAddr] at h2; omega)]

/-- Memories that agree on an entry's bytes hold the same entry. -/
theorem stackEntry_congr {m m' : Memory} {e : Nat}
    (h : ∀ c, stackAddr e ≤ c → c < stackAddr (e + 1) → memRead m c = memRead m' c) :
    stackEntry m e = stackEntry m' e := by
  have hb : ∀ i, i < 32 → storedByte m (stackAddr e + i) = storedByte m' (stackAddr e + i) := by
    intro i hi
    have h3 : stackAddr (e + 1) = stackAddr e + 32 := by simp only [stackAddr]; omega
    simp only [storedByte, h (stackAddr e + i) (by omega) (by omega)]
  have hw : ∀ i, i < 29 → storedWord m (stackAddr e + i) = storedWord m' (stackAddr e + i) := by
    intro i hi
    simp only [storedWord, Nat.add_assoc, hb i (by omega), hb (i + 1) (by omega), hb (i + 2) (by omega),
      hb (i + 3) (by omega)]
  have h0 : storedWord m (stackAddr e) = storedWord m' (stackAddr e) := hw 0 (by omega)
  simp only [stackEntry, hw 4 (by omega), hw 8 (by omega), hw 12 (by omega), hw 16 (by omega), hw 20 (by omega),
    hw 24 (by omega), hw 28 (by omega), h0]

theorem storedWord_memWriteList_wordBytes (m : Memory) (a : Nat) (pre : List Byte) (w : Word) (post : List Byte) :
    storedWord (memWriteList m a (pre ++ wordBytes w ++ post)) (a + pre.length) = w := by
  have hb : ∀ k, k < 4 → storedByte (memWriteList m a (pre ++ wordBytes w ++ post)) (a + pre.length + k)
      = wordByte w k := by
    intro k hk
    rw [storedByte, memRead_memWriteList, if_pos (by simp; omega),
      show a + pre.length + k - a = pre.length + k by omega, List.append_assoc,
      List.getElem?_append_right (by omega), Nat.add_sub_cancel_left, List.getElem?_append_left (by simpa using hk)]
    obtain rfl | rfl | rfl | rfl : k = 0 ∨ k = 1 ∨ k = 2 ∨ k = 3 := by omega
    all_goals rfl
  have h0 := hb 0 (by omega)
  simp only [Nat.add_zero] at h0
  rw [storedWord, h0, hb 1 (by omega), hb 2 (by omega), hb 3 (by omega), le32_wordByte]

/-- An entry just written reads back (R12, R41). -/
theorem stackEntry_memWriteList (m : Memory) (e : Nat) (cv : CV) :
    stackEntry (memWriteList m (stackAddr e) (lebytes cv.toList)) e = cv := by
  have h : ∀ i (hi : i < 8),
      storedWord (memWriteList m (stackAddr e) (lebytes cv.toList)) (stackAddr e + 4 * i) = cv[i] := by
    intro i hi
    have hsplit : cv.toList = cv.toList.take i ++ cv[i] :: cv.toList.drop (i + 1) := by
      have := List.take_append_drop i cv.toList
      rw [List.drop_eq_getElem_cons (by simpa using hi)] at this
      simpa using this.symm
    have hlen : (lebytes (cv.toList.take i)).length = 4 * i := by simp; omega
    rw [hsplit, lebytes_append, lebytes_cons, ← List.append_assoc, ← hlen]
    exact storedWord_memWriteList_wordBytes m _ _ _ _
  have h0 := h 0 (by omega)
  simp only [Nat.mul_zero, Nat.add_zero] at h0
  simp only [stackEntry, h0, h 1 (by omega), h 2 (by omega), h 3 (by omega), h 4 (by omega), h 5 (by omega),
    h 6 (by omega), h 7 (by omega)]
  ext i hi
  obtain rfl | rfl | rfl | rfl | rfl | rfl | rfl | rfl :
    i = 0 ∨ i = 1 ∨ i = 2 ∨ i = 3 ∨ i = 4 ∨ i = 5 ∨ i = 6 ∨ i = 7 := by omega
  all_goals rfl

end Sys2Proof.Machine
end

