-- ==== Sys2Proof/Laws/Tree.lean ====
section
/-! SUPPORT. The stack primitives and the merge: what push and pop do, and the depth invariant of R173 and R174. -/

namespace Sys2Proof.Machine

theorem toNat_succ7 {x : BitVec 7} (h : x.toNat ≤ 64) : (x + 1).toNat = x.toNat + 1 := by
  rw [BitVec.toNat_add]; simp; omega

theorem toNat_pred7 {x : BitVec 7} (h : 0 < x.toNat) : (x - 1).toNat = x.toNat - 1 := by
  have := x.isLt
  rw [BitVec.toNat_sub]; simp; omega

/-- A push below 64 entries (R12). -/
theorem push_eq {cv : CV} {h : HasherState} (hlt : h.cvSp.toNat < 64) :
    push cv h = .ok { h with mem := memWriteList h.mem (stackAddr h.cvSp.toNat) (lebytes cv.toList),
                             cvSp := h.cvSp + 1 } := by
  rw [push, if_neg (by simp [Config.stackDepth]; omega)]

/-- What a push can do: with room it writes the top entry, and it stops on a full stack (R12, R271). -/
theorem push_cases (cv : CV) (h : HasherState) :
    (h.cvSp.toNat < 64 ∧ push cv h = .ok { h with
      mem := memWriteList h.mem (stackAddr h.cvSp.toNat) (lebytes cv.toList), cvSp := h.cvSp + 1 }) ∨
    (64 ≤ h.cvSp.toNat ∧ push cv h = .error (.unreachableState .pushFull)) := by
  rcases lt_or_ge h.cvSp.toNat 64 with hlt | hge
  · exact .inl ⟨hlt, push_eq hlt⟩
  · exact .inr ⟨hge, by rw [push, if_pos (by simpa [Config.stackDepth] using hge)]⟩

/-- A pop of one of the 64 entries (R12). -/
theorem pop_eq {h : HasherState} (h0 : 0 < h.cvSp.toNat) (h1 : h.cvSp.toNat ≤ 64) :
    pop h = .ok (stackEntry h.mem (h.cvSp.toNat - 1), { h with cvSp := h.cvSp - 1 }) := by
  rw [pop, if_neg (by intro hz; simp [hz] at h0), if_neg (by simp [Config.stackDepth]; omega)]

/-- What a pop can do (R12, R271; log 6). -/
theorem pop_cases (h : HasherState) :
    (0 < h.cvSp.toNat ∧ h.cvSp.toNat ≤ 64 ∧
      pop h = .ok (stackEntry h.mem (h.cvSp.toNat - 1), { h with cvSp := h.cvSp - 1 })) ∨
    (∃ u, pop h = .error (.unreachableState u)) := by
  by_cases h0 : h.cvSp = 0
  · exact .inr ⟨_, by rw [pop, if_pos h0]⟩
  by_cases h1 : 64 < h.cvSp.toNat
  · exact .inr ⟨_, by rw [pop, if_neg h0, if_pos (by simpa [Config.stackDepth] using h1)]⟩
  · have : 0 < h.cvSp.toNat := by
      rcases Nat.eq_zero_or_pos h.cvSp.toNat with hz | hz
      · exact absurd (BitVec.eq_of_toNat_eq (by simpa using hz)) h0
      · exact hz
    exact .inl ⟨this, by omega, pop_eq this (by omega)⟩

/-- The hasher after one turn of the merge loop (R171). -/
def mergedTop (h : HasherState) : HasherState :=
  { h with
    mem := memWriteList h.mem (stackAddr (h.cvSp.toNat - 2))
      (lebytes (parentCV (stackEntry h.mem (h.cvSp.toNat - 2)) (stackEntry h.mem (h.cvSp.toNat - 1))).toList)
    cvSp := h.cvSp - 1 }

@[simp] theorem mergedTop_bufLen (h : HasherState) : (mergedTop h).bufLen = h.bufLen := by simp only [mergedTop]

@[simp] theorem mergedTop_chunkCtr (h : HasherState) : (mergedTop h).chunkCtr = h.chunkCtr := by simp only [mergedTop]

/-- One turn of the merge loop on a stack of at least two entries (R171, R173). -/
theorem mergeLoop_even {turns total : Nat} {h : HasherState} (he : total % 2 = 0) (h2 : 2 ≤ h.cvSp.toNat)
    (h64 : h.cvSp.toNat ≤ 64) : mergeLoop (turns + 1) total h = mergeLoop turns (total / 2) (mergedTop h) := by
  have h1 : (h.cvSp - 1).toNat = h.cvSp.toNat - 1 := toNat_pred7 (by omega)
  have h3 : (h.cvSp - 1 - 1).toNat = h.cvSp.toNat - 2 := by rw [toNat_pred7 (by omega), h1]; omega
  rw [mergeLoop, if_pos he, pop_eq (by omega) h64]
  simp only [bind, Except.bind]
  rw [pop_eq (by simp only; omega) (by simp only; omega)]
  simp only
  rw [push_eq (by simp only; omega)]
  simp only [mergedTop, h1, h3]
  rw [show h.cvSp.toNat - 1 - 1 = h.cvSp.toNat - 2 by omega]
  congr 2
  simp

/-- The merge loop stops at an odd total (R171). -/
theorem mergeLoop_odd {turns total : Nat} {h : HasherState} (ho : total % 2 = 1) :
    mergeLoop (turns + 1) total h = .ok h := by
  rw [mergeLoop, if_neg (by omega)]

theorem stackAddr_succ (e : Nat) : stackAddr (e + 1) = stackAddr e + 32 := by simp only [stackAddr]; omega

theorem lebytes_cv_length (cv : CV) : (lebytes cv.toList).length = 32 := by simp

theorem stackAddr_le {d e : Nat} : stackAddr d ≤ stackAddr e ↔ d ≤ e := by simp only [stackAddr]; omega

theorem bufAddr_lt_stack {i : Nat} (h : i < 1024) (e : Nat) : bufAddr i < stackAddr e := by
  simp only [bufAddr, stackAddr]; omega

/-- A push keeps the invariant (R174). -/
theorem HasherInv.push {h : HasherState} (hi : HasherInv h) (hlt : h.cvSp.toNat < 64) (cv : CV) :
    HasherInv { h with mem := memWriteList h.mem (stackAddr h.cvSp.toNat) (lebytes cv.toList), cvSp := h.cvSp + 1 } where
  memWf := memWriteList_wf _ hi.memWf _
  memInRange := memWriteList_inRange _ hi.memInRange (by simp only [stackAddr]; omega)
    (by rw [lebytes_cv_length]; simp only [stackAddr]; omega)
  bufLe := hi.bufLe
  spLe := by simp only; rw [toNat_succ7 (by omega)]; omega
  bufStored a h1 h2 := memRead_memWriteList_ne_none _ (.inl (hi.bufStored a h1 h2))
  stackStored a h1 h2 := by
    simp only at h2 ⊢
    rw [toNat_succ7 (by omega), stackAddr_succ] at h2
    apply memRead_memWriteList_ne_none
    rw [lebytes_cv_length]
    rcases lt_or_ge a (stackAddr h.cvSp.toNat) with h3 | h3
    · exact .inl (hi.stackStored a h1 h3)
    · exact .inr ⟨h3, h2⟩

/-- A pop keeps the invariant. -/
theorem HasherInv.pop {h : HasherState} (hi : HasherInv h) (h0 : 0 < h.cvSp.toNat) :
    HasherInv { h with cvSp := h.cvSp - 1 } where
  memWf := hi.memWf
  memInRange := hi.memInRange
  bufLe := hi.bufLe
  spLe := by have := hi.spLe; simp only; rw [toNat_pred7 h0]; omega
  bufStored := hi.bufStored
  stackStored a h1 h2 := by
    simp only at h2 ⊢
    rw [toNat_pred7 h0] at h2
    exact hi.stackStored a h1 (lt_of_lt_of_le h2 (stackAddr_le.2 (by omega)))

/-- One turn of the merge loop keeps the invariant. -/
theorem HasherInv.mergedTop {h : HasherState} (hi : HasherInv h) (h2 : 2 ≤ h.cvSp.toNat) :
    HasherInv (mergedTop h) := by
  have hsp := hi.spLe
  have ha := HasherInv.pop (HasherInv.pop hi (by omega)) (by simp only; rw [toNat_pred7 (by omega)]; omega)
  have h3 : (h.cvSp - 1 - 1).toNat = h.cvSp.toNat - 2 := by
    rw [toNat_pred7 (by rw [toNat_pred7 (by omega)]; omega), toNat_pred7 (by omega)]; omega
  have hb := HasherInv.push ha (by simp only; omega)
    (parentCV (stackEntry h.mem (h.cvSp.toNat - 2)) (stackEntry h.mem (h.cvSp.toNat - 1)))
  simp only [h3, BitVec.sub_add_cancel] at hb
  exact hb

/-- A number below 2^k - 1 has fewer than k one bits (R174). -/
theorem popcountBits_lt : ∀ (k n : Nat), n + 1 < 2 ^ k → popcountBits k n < k
  | 0, n, h => by simp at h
  | k + 1, n, h => by
    rw [popcountBits]
    have hle : ∀ k n, popcountBits k n ≤ k := by
      intro k; induction k with
      | zero => intro n; simp [popcountBits]
      | succ k ih => intro n; rw [popcountBits]; have := ih (n / 2); omega
    rcases Nat.mod_two_eq_zero_or_one n with h0 | h0
    · have := hle k (n / 2); omega
    · have : popcountBits k (n / 2) < k := popcountBits_lt k (n / 2) (by rw [Nat.pow_succ] at h; omega)
      omega

/-- A nonzero number has a one bit. -/
theorem popcountBits_pos : ∀ (k n : Nat), 0 < n → n < 2 ^ k → 0 < popcountBits k n
  | 0, n, h0, h => by simp at h; omega
  | k + 1, n, h0, h => by
    rw [popcountBits]
    rcases Nat.mod_two_eq_zero_or_one n with h1 | h1
    · have := popcountBits_pos k (n / 2) (by omega) (by rw [Nat.pow_succ] at h; omega)
      omega
    · omega

/-- The merge loop from a stack of popcount(n-1) + 1 entries ends with popcount(n) of them, writes no byte outside the
entries from its final top to its first top, and keeps the invariant (R171 to R173). -/
theorem mergeLoop_ok (k : Nat) : ∀ (n : Nat) (h : HasherState), HasherInv h → 0 < n → n < 2 ^ k →
    h.cvSp.toNat = popcountBits k (n - 1) + 1 →
    ∃ h', mergeLoop k n h = .ok h' ∧ HasherInv h' ∧ h'.bufLen = h.bufLen ∧ h'.chunkCtr = h.chunkCtr ∧
      h'.cvSp.toNat = popcountBits k n ∧ h'.cvSp.toNat ≤ h.cvSp.toNat ∧
      ∀ a, a < stackAddr (h'.cvSp.toNat - 1) ∨ stackAddr h.cvSp.toNat ≤ a → memRead h'.mem a = memRead h.mem a := by
  induction k with
  | zero => intro n h _ h0 hn _; simp at hn; omega
  | succ k ih =>
    intro n h hi h0 hn hsp
    rw [Nat.pow_succ] at hn
    have hle := hi.spLe
    rw [popcountBits] at hsp
    rcases Nat.mod_two_eq_zero_or_one n with he | ho
    · rw [show (n - 1) % 2 = 1 by omega, show (n - 1) / 2 = n / 2 - 1 by omega] at hsp
      have h2 : 2 ≤ h.cvSp.toNat := by omega
      have hm : (mergedTop h).cvSp.toNat = h.cvSp.toNat - 1 := toNat_pred7 (by omega)
      have hsp' : (mergedTop h).cvSp.toNat = popcountBits k (n / 2 - 1) + 1 := by rw [hm]; omega
      obtain ⟨h', hr, hinv, hb, hc, hs, hl, hmem⟩ := ih (n / 2) (mergedTop h) (hi.mergedTop h2)
        (by omega) (by omega) hsp'
      rw [hm] at hl hmem
      clear hm hsp'
      refine ⟨h', by rw [mergeLoop_even he h2 hle, hr], hinv, by rw [hb, mergedTop_bufLen],
        by rw [hc, mergedTop_chunkCtr], ?_, hl.trans (Nat.sub_le _ _), fun a ha => ?_⟩
      · rw [hs, popcountBits, he, Nat.zero_add]
      · have h3 : stackAddr (h.cvSp.toNat - 2 + 1) = stackAddr (h.cvSp.toNat - 2) + 32 := stackAddr_succ _
        rw [show h.cvSp.toNat - 2 + 1 = h.cvSp.toNat - 1 by omega] at h3
        have h4 : stackAddr (h'.cvSp.toNat - 1) ≤ stackAddr (h.cvSp.toNat - 2) := stackAddr_le.2 (by omega)
        have h5 : stackAddr (h.cvSp.toNat - 1) ≤ stackAddr h.cvSp.toNat := stackAddr_le.2 (by omega)
        rw [hmem a (by omega), mergedTop]
        simp only
        rw [memRead_memWriteList, if_neg (by rw [lebytes_cv_length]; omega)]
    · rw [show (n - 1) % 2 = 0 by omega, show (n - 1) / 2 = n / 2 by omega] at hsp
      refine ⟨h, mergeLoop_odd ho, hi, rfl, rfl, ?_, le_rfl, fun a _ => rfl⟩
      rw [popcountBits, ho]; omega

/-- A merge from popcount(n-1) entries ends with popcount(n), never overflows and never underflows (R173, R174). -/
theorem merge_ok {n : Nat} {h : HasherState} (cv : CV) (hi : HasherInv h) (h0 : 0 < n) (hn : n < 2 ^ 64)
    (hsp : h.cvSp.toNat = popcount (n - 1)) :
    ∃ h', merge cv n h = .ok h' ∧ HasherInv h' ∧ h'.bufLen = h.bufLen ∧ h'.chunkCtr = h.chunkCtr ∧
      h'.cvSp.toNat = popcount n ∧ h'.cvSp.toNat ≤ h.cvSp.toNat + 1 ∧
      ∀ a, a < stackAddr (h'.cvSp.toNat - 1) ∨ stackAddr (h.cvSp.toNat + 1) ≤ a →
        memRead h'.mem a = memRead h.mem a := by
  have hlt : h.cvSp.toNat < 64 := by rw [hsp]; exact popcountBits_lt 64 (n - 1) (by omega)
  have hs : (h.cvSp + 1).toNat = h.cvSp.toNat + 1 := toNat_succ7 (by omega)
  obtain ⟨h', hr, hinv, hb, hc, hp, hl, hmem⟩ := mergeLoop_ok 64 n _ (hi.push hlt cv) h0 hn
    (by simp only; rw [hs, hsp, popcount])
  simp only [hs] at hl hmem
  refine ⟨h', ?_, hinv, hb, hc, hp, hl, fun a ha => ?_⟩
  · rw [merge, push_eq hlt]; exact hr
  · have h3 := stackAddr_succ h.cvSp.toNat
    have h4 : stackAddr (h'.cvSp.toNat - 1) ≤ stackAddr h.cvSp.toNat := stackAddr_le.2 (by omega)
    rw [hmem a ha, memRead_memWriteList, if_neg (by rw [lebytes_cv_length]; omega)]

/-- The entries after a push: the old ones, then the new one (R12, R27). -/
theorem stackEntries_push {h : HasherState} (hlt : h.cvSp.toNat < 64) (cv : CV) :
    stackEntries { h with mem := memWriteList h.mem (stackAddr h.cvSp.toNat) (lebytes cv.toList), cvSp := h.cvSp + 1 }
      = stackEntries h ++ [cv] := by
  simp only [stackEntries, toNat_succ7 (show h.cvSp.toNat ≤ 64 by omega), List.range_succ, List.map_append, List.map_cons,
    List.map_nil, stackEntry_memWriteList]
  congr 1
  apply List.map_congr_left
  intro e he
  simp only [List.mem_range] at he
  apply stackEntry_congr
  intro c _ h2
  have h3 : stackAddr (e + 1) ≤ stackAddr h.cvSp.toNat := stackAddr_le.2 (by omega)
  rw [memRead_memWriteList, if_neg (by omega)]

/-- The entries after a pop: all but the top one (R12). -/
theorem stackEntries_pop {h : HasherState} (h0 : 0 < h.cvSp.toNat) :
    stackEntries h = stackEntries { h with cvSp := h.cvSp - 1 } ++ [stackEntry h.mem (h.cvSp.toNat - 1)] := by
  simp only [stackEntries, toNat_pred7 h0]
  conv => lhs; rw [show h.cvSp.toNat = (h.cvSp.toNat - 1) + 1 by omega]
  rw [List.range_succ]; simp

theorem stackEntries_length (h : HasherState) : (stackEntries h).length = h.cvSp.toNat := by simp [stackEntries]

/-- One turn of the merge loop replaces the two top entries by their parent (R171). -/
theorem stackEntries_mergedTop {h : HasherState} (h2 : 2 ≤ h.cvSp.toNat) (h64 : h.cvSp.toNat ≤ 64) {es : List CV}
    {a b : CV} (he : stackEntries h = es ++ [a, b]) : stackEntries (mergedTop h) = es ++ [parentCV a b] := by
  have hp1 : (h.cvSp - 1).toNat = h.cvSp.toNat - 1 := toNat_pred7 (by omega)
  have hp2 : (h.cvSp - 1 - 1).toNat = h.cvSp.toNat - 2 := by rw [toNat_pred7 (by omega), hp1]; omega
  have e1 := stackEntries_pop (h := h) (by omega)
  have e2 := stackEntries_pop (h := { h with cvSp := h.cvSp - 1 }) (by simp only; omega)
  simp only [hp1] at e2
  rw [e2, List.append_assoc, he] at e1
  have hlen : es.length = (stackEntries { h with cvSp := h.cvSp - 1 - 1 }).length := by
    have := congrArg List.length e1
    simp only [List.length_append, List.length_cons, List.length_nil] at this
    omega
  obtain ⟨h3, h4⟩ := List.append_inj e1 hlen
  simp only [List.cons_append, List.nil_append, List.cons.injEq, and_true] at h4
  have h5 := stackEntries_push (h := { h with cvSp := h.cvSp - 1 - 1 }) (by simp only; omega) (parentCV a b)
  simp only [hp2, BitVec.sub_add_cancel] at h5
  rw [h3, ← h5, mergedTop, h4.1, h4.2, show h.cvSp.toNat - 1 - 1 = h.cvSp.toNat - 2 by omega]

/-- A merge loop that answers at an even total has found the two entries it pops (R171, R173). -/
theorem mergeLoop_even_bounds {turns total : Nat} {h g : HasherState} (he : total % 2 = 0)
    (hr : mergeLoop (turns + 1) total h = .ok g) : 2 ≤ h.cvSp.toNat ∧ h.cvSp.toNat ≤ 64 := by
  rw [mergeLoop, if_pos he] at hr
  rcases pop_cases h with ⟨h0, h1, hp⟩ | ⟨u, hp⟩
  · rw [hp] at hr
    rcases pop_cases { h with cvSp := h.cvSp - 1 } with ⟨h2, _, _⟩ | ⟨u, hp2⟩
    · simp only at h2; rw [toNat_pred7 h0] at h2; omega
    · simp only [bind, Except.bind, hp2] at hr; cases hr
  · simp only [bind, Except.bind, hp] at hr; cases hr

/-- Whatever the stack, a merge loop that answers leaves BUF_LEN and CHUNK_CTR, never deepens the stack, and writes no byte
outside the entries from its final top up to its first top (R171). -/
theorem mergeLoop_frame (turns : Nat) : ∀ (total : Nat) (h g : HasherState), mergeLoop turns total h = .ok g →
    g.bufLen = h.bufLen ∧ g.chunkCtr = h.chunkCtr ∧ g.cvSp.toNat ≤ h.cvSp.toNat ∧
    ∀ a, a < stackAddr (g.cvSp.toNat - 1) ∨ stackAddr h.cvSp.toNat ≤ a → memRead g.mem a = memRead h.mem a := by
  induction turns with
  | zero => intro total h g hr; rw [mergeLoop] at hr; cases hr
  | succ turns ih =>
    intro total h g hr
    rcases Nat.mod_two_eq_zero_or_one total with he | ho
    · have hbound := mergeLoop_even_bounds he hr
      rw [mergeLoop_even he hbound.1 hbound.2] at hr
      obtain ⟨h1, h2, h3, h4⟩ := ih _ _ _ hr
      have hm : (mergedTop h).cvSp.toNat = h.cvSp.toNat - 1 := toNat_pred7 (by omega)
      rw [hm] at h3 h4
      clear hm
      refine ⟨by rw [h1, mergedTop_bufLen], by rw [h2, mergedTop_chunkCtr], h3.trans (Nat.sub_le _ _), fun a ha => ?_⟩
      have h5 : stackAddr (h.cvSp.toNat - 2 + 1) = stackAddr (h.cvSp.toNat - 2) + 32 := stackAddr_succ _
      rw [show h.cvSp.toNat - 2 + 1 = h.cvSp.toNat - 1 by omega] at h5
      have h6 : stackAddr (g.cvSp.toNat - 1) ≤ stackAddr (h.cvSp.toNat - 2) := stackAddr_le.2 (by omega)
      have h7 : stackAddr (h.cvSp.toNat - 1) ≤ stackAddr h.cvSp.toNat := stackAddr_le.2 (by omega)
      rw [h4 a (by omega), mergedTop]
      simp only
      rw [memRead_memWriteList, if_neg (by rw [lebytes_cv_length]; omega)]
    · rw [mergeLoop_odd ho] at hr
      injection hr with hr; subst hr
      exact ⟨rfl, rfl, le_rfl, fun _ _ => rfl⟩

/-- Whatever the stack, a merge that answers leaves BUF_LEN and CHUNK_CTR and writes no byte outside the entries from its
final top up to the one pushed (R171). -/
theorem merge_frame {cv : CV} {total : Nat} {h g : HasherState} (hr : merge cv total h = .ok g) :
    g.bufLen = h.bufLen ∧ g.chunkCtr = h.chunkCtr ∧ g.cvSp.toNat ≤ h.cvSp.toNat + 1 ∧
    ∀ a, a < stackAddr (g.cvSp.toNat - 1) ∨ stackAddr (h.cvSp.toNat + 1) ≤ a → memRead g.mem a = memRead h.mem a := by
  rcases push_cases cv h with ⟨hlt, hp⟩ | ⟨_, hp⟩
  · simp only [merge, bind, Except.bind, hp] at hr
    obtain ⟨h1, h2, h3, h4⟩ := mergeLoop_frame _ _ _ _ hr
    have hs : (h.cvSp + 1).toNat = h.cvSp.toNat + 1 := toNat_succ7 (by omega)
    simp only [hs] at h3 h4
    refine ⟨h1, h2, h3, fun a ha => ?_⟩
    have h5 := stackAddr_succ h.cvSp.toNat
    have h6 : stackAddr (g.cvSp.toNat - 1) ≤ stackAddr h.cvSp.toNat := stackAddr_le.2 (by omega)
    rw [h4 a ha, memRead_memWriteList, if_neg (by rw [lebytes_cv_length]; omega)]
  · simp only [merge, bind, Except.bind, hp] at hr; cases hr

/-- The depth of the stack is the number of its entries (R27). -/
theorem cvSp_of_stackEntries {h h' : HasherState} (he : stackEntries h = stackEntries h') : h.cvSp = h'.cvSp := by
  have := congrArg List.length he
  rw [stackEntries_length, stackEntries_length] at this
  exact BitVec.eq_of_toNat_eq this

/-- A merge loop depends on the entries of the stack alone (R171). -/
theorem mergeLoop_congr (turns : Nat) : ∀ {total : Nat} {h h' g : HasherState}, mergeLoop turns total h = .ok g →
    stackEntries h = stackEntries h' → ∃ g', mergeLoop turns total h' = .ok g' ∧ stackEntries g = stackEntries g' := by
  induction turns with
  | zero => intro total h h' g hr; rw [mergeLoop] at hr; cases hr
  | succ turns ih =>
    intro total h h' g hr hs
    rcases Nat.mod_two_eq_zero_or_one total with he | ho
    · obtain ⟨h2, h64⟩ := mergeLoop_even_bounds he hr
      have hsp := congrArg BitVec.toNat (cvSp_of_stackEntries hs)
      have hp : (h.cvSp - 1).toNat = h.cvSp.toNat - 1 := toNat_pred7 (by omega)
      have e1 := stackEntries_pop (h := h) (by omega)
      rw [stackEntries_pop (h := { h with cvSp := h.cvSp - 1 }) (by simp only; omega), List.append_assoc] at e1
      rw [mergeLoop_even he h2 h64] at hr
      rw [mergeLoop_even he (by omega) (by omega)]
      exact ih hr ((stackEntries_mergedTop h2 h64 e1).trans
        (stackEntries_mergedTop (by omega) (by omega) (hs ▸ e1)).symm)
    · rw [mergeLoop_odd ho] at hr
      injection hr with hr
      exact ⟨h', mergeLoop_odd ho, hr ▸ hs⟩

/-- A merge depends on the entries of the stack alone (R171). -/
theorem merge_congr {cv : CV} {total : Nat} {h h' g : HasherState} (hr : merge cv total h = .ok g)
    (hs : stackEntries h = stackEntries h') : ∃ g', merge cv total h' = .ok g' ∧ stackEntries g = stackEntries g' := by
  have hsp := congrArg BitVec.toNat (cvSp_of_stackEntries hs)
  rcases push_cases cv h with ⟨hlt, hp⟩ | ⟨_, hp⟩
  · simp only [merge, bind, Except.bind, hp] at hr
    have hlt' : h'.cvSp.toNat < 64 := by omega
    simp only [merge, bind, Except.bind, push_eq (cv := cv) hlt']
    exact mergeLoop_congr _ hr (by rw [stackEntries_push hlt, stackEntries_push hlt', hs])
  · simp only [merge, bind, Except.bind, hp] at hr; cases hr

end Sys2Proof.Machine
end

