-- ==== Sys2Proof/Laws/Hasher.lean ====
section
/-! SUPPORT. The buffer, the flush and the append of bytes (R191 to R197): without a flush an append is a plain write of
bytes; with one it is a write up to the full buffer, the flush, and a write from the start. -/

namespace Sys2Proof.Machine

/-- The hasher with bytes stored after the pending ones (R193). -/
def fill (h : HasherState) (xs : List Byte) : HasherState :=
  { h with mem := memWriteList h.mem (bufAddr h.bufLen.toNat) xs, bufLen := BitVec.ofNat 11 (h.bufLen.toNat + xs.length) }

@[simp] theorem fill_chunkCtr (h : HasherState) (xs : List Byte) : (fill h xs).chunkCtr = h.chunkCtr := by simp only [fill]

@[simp] theorem fill_cvSp (h : HasherState) (xs : List Byte) : (fill h xs).cvSp = h.cvSp := by simp only [fill]

theorem fill_mem (h : HasherState) (xs : List Byte) :
    (fill h xs).mem = memWriteList h.mem (bufAddr h.bufLen.toNat) xs := by simp only [fill]

theorem fill_bufLen {h : HasherState} {xs : List Byte} (hle : h.bufLen.toNat + xs.length ≤ 1024) :
    (fill h xs).bufLen.toNat = h.bufLen.toNat + xs.length := by
  simp only [fill]; rw [BitVec.toNat_ofNat, Nat.mod_eq_of_lt (by omega)]

@[simp] theorem fill_nil (h : HasherState) : fill h [] = h := by
  simp [fill, memWriteList]

/-- Storing one byte below 1024 (R191). -/
theorem storeByte_eq {h : HasherState} (x : Byte) (hlt : h.bufLen.toNat < 1024) : storeByte x h = .ok (fill h [x]) := by
  rw [storeByte, if_neg (by simp [Config.bufBytes]; omega)]
  congr 1

theorem bufLen_eq_iff (x : BitVec 11) : x = 1024 ↔ x.toNat = 1024 := by
  constructor
  · rintro rfl; rfl
  · intro h; exact BitVec.eq_of_toNat_eq (by simpa using h)

/-- A byte appended to a buffer that is not full (R191). -/
theorem appendByte_room {h : HasherState} (x : Byte) (hlt : h.bufLen.toNat < 1024) :
    appendByte x h = .ok (fill h [x]) := by
  rw [appendByte, if_neg (by rw [bufLen_eq_iff]; omega)]
  exact storeByte_eq x hlt

theorem fill_fill {h : HasherState} {xs ys : List Byte} (hle : h.bufLen.toNat + xs.length ≤ 1024) :
    fill (fill h xs) ys = fill h (xs ++ ys) := by
  have happ : ∀ (m : Memory) (a : Nat), memWriteList m a (xs ++ ys)
      = memWriteList (memWriteList m a xs) (a + xs.length) ys := by
    clear hle
    induction xs with
    | nil => intro m a; rfl
    | cons x xs ih => intro m a; simp only [List.cons_append, memWriteList, ih, List.length_cons]; congr 1; omega
  have haddr : bufAddr (h.bufLen.toNat + xs.length) = bufAddr h.bufLen.toNat + xs.length := by
    simp only [bufAddr]; omega
  have hmem : (fill (fill h xs) ys).mem = (fill h (xs ++ ys)).mem := by
    rw [fill_mem, fill_bufLen hle, fill_mem, fill_mem, happ, haddr]
  have hlen : (fill (fill h xs) ys).bufLen = (fill h (xs ++ ys)).bufLen := by
    have := fill_bufLen hle
    simp only [fill, List.length_append] at this ⊢
    rw [this, Nat.add_assoc]
  rcases hx : fill (fill h xs) ys with ⟨m, b, c, p⟩
  rcases hy : fill h (xs ++ ys) with ⟨m', b', c', p'⟩
  have hc : (fill (fill h xs) ys).chunkCtr = (fill h (xs ++ ys)).chunkCtr := by simp
  have hp : (fill (fill h xs) ys).cvSp = (fill h (xs ++ ys)).cvSp := by simp
  rw [hx, hy] at hmem hlen hc hp
  simp only at hmem hlen hc hp
  rw [hmem, hlen, hc, hp]

/-- Bytes that fit the buffer are stored after the pending ones, with no flush (R193, R195). -/
theorem appendBytes_room (xs : List Byte) : ∀ {h : HasherState}, h.bufLen.toNat + xs.length ≤ 1024 →
    appendBytes xs h = .ok (fill h xs) := by
  induction xs with
  | nil => intro h _; rw [fill_nil]; rfl
  | cons x xs ih =>
    intro h hle
    simp only [List.length_cons] at hle
    have h1 : (fill h [x]).bufLen.toNat = h.bufLen.toNat + 1 := fill_bufLen (by simp; omega)
    rw [appendBytes, appendByte_room x (by omega)]
    simp only [bind, Except.bind]
    rw [ih (by omega), fill_fill (by simp; omega)]
    rfl

/-- Appending is a fold over the bytes, so it splits anywhere (R197). -/
theorem appendBytes_append (xs ys : List Byte) : ∀ (h : HasherState),
    appendBytes (xs ++ ys) h = (appendBytes xs h).bind (appendBytes ys) := by
  induction xs with
  | nil => intro h; rfl
  | cons x xs ih =>
    intro h
    simp only [List.cons_append, appendBytes, bind]
    cases appendByte x h with
    | error f => rfl
    | ok h => exact ih h

/-- A byte that arrives at a full buffer flushes it first (R191). -/
theorem appendBytes_full {h g : HasherState} {xs : List Byte} (hb : h.bufLen = 1024) (hx : xs ≠ [])
    (hf : flush h = .ok g) (hg : g.bufLen.toNat + xs.length ≤ 1024) : appendBytes xs h = .ok (fill g xs) := by
  obtain ⟨x, xs, rfl⟩ := List.exists_cons_of_ne_nil hx
  simp only [List.length_cons] at hg
  have : appendByte x h = .ok (fill g [x]) := by
    rw [appendByte, if_pos hb, hf]; exact storeByte_eq x (by omega)
  have h1 : (fill g [x]).bufLen.toNat = g.bufLen.toNat + 1 := fill_bufLen (by simp; omega)
  rw [appendBytes, this]
  simp only [bind, Except.bind]
  rw [appendBytes_room xs (by omega), fill_fill (by simp; omega)]
  rfl

/-- Bytes that do not fit: the buffer is filled, flushed, and filled from its start (R191, R195, R196(c)). -/
theorem appendBytes_overflow {h g : HasherState} {xs : List Byte} (hb : h.bufLen.toNat ≤ 1024)
    (hlt : 1024 < h.bufLen.toNat + xs.length)
    (hf : flush (fill h (xs.take (1024 - h.bufLen.toNat))) = .ok g)
    (hg : g.bufLen = 0) (hx : xs.length ≤ 1024) :
    appendBytes xs h = .ok (fill g (xs.drop (1024 - h.bufLen.toNat))) := by
  have hlen : (xs.take (1024 - h.bufLen.toNat)).length = 1024 - h.bufLen.toNat := by simp; omega
  have h1 := fill_bufLen (h := h) (xs := xs.take (1024 - h.bufLen.toNat)) (by omega)
  conv => lhs; rw [← List.take_append_drop (1024 - h.bufLen.toNat) xs]
  rw [appendBytes_append, appendBytes_room _ (by omega)]
  simp only [Except.bind]
  refine appendBytes_full ((bufLen_eq_iff _).2 (by omega)) ?_ hf (by simp [hg]; omega)
  intro hn
  have := congrArg List.length hn
  simp at this; omega

/-- Filling keeps the invariant. -/
theorem HasherInv.fill {h : HasherState} (hi : HasherInv h) {xs : List Byte}
    (hle : h.bufLen.toNat + xs.length ≤ 1024) : HasherInv (fill h xs) where
  memWf := by rw [fill_mem]; exact memWriteList_wf _ hi.memWf _
  memInRange := by
    rw [fill_mem]
    exact memWriteList_inRange _ hi.memInRange (by simp only [bufAddr]; omega) (by simp only [bufAddr]; omega)
  bufLe := by rw [fill_bufLen hle]; exact hle
  spLe := by rw [fill_cvSp]; exact hi.spLe
  bufStored a h1 h2 := by
    rw [fill_bufLen hle] at h2
    rw [fill_mem]
    apply memRead_memWriteList_ne_none
    rcases lt_or_ge a (bufAddr h.bufLen.toNat) with h3 | h3
    · exact .inl (hi.bufStored a h1 h3)
    · refine .inr ⟨h3, ?_⟩; simp only [bufAddr] at h2 ⊢; omega
  stackStored a h1 h2 := by
    rw [fill_cvSp] at h2
    rw [fill_mem]
    exact memRead_memWriteList_ne_none _ (.inl (hi.stackStored a h1 h2))

/-- The pending bytes after a fill: the old ones, then the new ones (R193). -/
theorem bufBytes_fill {h : HasherState} {xs : List Byte} (hle : h.bufLen.toNat + xs.length ≤ 1024) :
    bufBytes (fill h xs).mem (fill h xs).bufLen.toNat = bufBytes h.mem h.bufLen.toNat ++ xs := by
  rw [fill_bufLen hle, fill_mem]
  apply List.ext_getElem
  · simp
  · intro i h1 h2
    simp only [bufBytes_length] at h1
    simp only [bufBytes, storedBytes, List.getElem_map, List.getElem_range, List.getElem_append, List.length_map,
      List.length_range, storedByte, memRead_memWriteList]
    by_cases hi : i < h.bufLen.toNat
    · rw [if_neg (by simp only [bufAddr]; omega), dif_pos hi]
    · rw [if_pos (by simp only [bufAddr]; omega), dif_neg hi,
        show bufAddr 0 + i - bufAddr h.bufLen.toNat = i - h.bufLen.toNat by simp only [bufAddr]; omega,
        List.getElem?_eq_getElem (by omega)]
      rfl

/-- A fill leaves the stack's entries (R193). -/
theorem stackEntries_fill {h : HasherState} {xs : List Byte} (hle : h.bufLen.toNat + xs.length ≤ 1024) :
    stackEntries (fill h xs) = stackEntries h := by
  simp only [stackEntries, fill_cvSp]
  refine List.map_congr_left fun e _ => stackEntry_congr fun c h1 _ => ?_
  rw [fill_mem, memRead_memWriteList, if_neg]
  simp only [stackAddr, bufAddr] at *; omega

/-- ChunkProcessor on a chunk of 1 to 1024 bytes answers (R150). -/
theorem processChunk_eq {bytes : List Byte} (key : CV) (t : BitVec 64) (isRoot ft : Bool) (h0 : 0 < bytes.length)
    (h1 : bytes.length ≤ 1024) : processChunk bytes key t isRoot ft =
      .ok (processBlocks t isRoot ft true key (blockCount bytes.length - 1) bytes) := by
  rw [processChunk, if_neg (by simp only [Config.bufBytes]; omega)]

/-- `chunkCV` on a chunk of 1 to 1024 bytes (R156). -/
theorem chunkCV_eq {bytes : List Byte} (t : BitVec 64) (h0 : 0 < bytes.length) (h1 : bytes.length ≤ 1024) :
    chunkCV bytes t = .ok (chunkCvOf bytes t) := by
  rw [chunkCV, processChunk_eq iv t false true h0 h1]; rfl

theorem toNat_succ64 {x : BitVec 64} (h : x ≠ BitVec.allOnes 64) : (x + 1).toNat = x.toNat + 1 := by
  have h1 := x.isLt
  have h2 : x.toNat ≠ 2 ^ 64 - 1 := fun h3 => h (BitVec.eq_of_toNat_eq (by rw [h3]; rfl))
  rw [BitVec.toNat_add]
  have h3 : (1 : BitVec 64).toNat = 1 := rfl
  rw [h3]; omega

/-- The flush of a full buffer (R194): the stack has popcount entries, the counter goes up, and no byte outside the
entries written is changed. -/
theorem flush_ok {h : HasherState} (hi : HasherInv h) (hc : h.chunkCtr ≠ BitVec.allOnes 64)
    (hsp : h.cvSp.toNat = popcount h.chunkCtr.toNat) :
    ∃ g, flush h = .ok g ∧ HasherInv g ∧ g.bufLen = 0 ∧ g.chunkCtr = h.chunkCtr + 1 ∧
      g.cvSp.toNat = popcount g.chunkCtr.toNat ∧ g.cvSp.toNat ≤ h.cvSp.toNat + 1 ∧
      ∀ a, a < stackAddr (g.cvSp.toNat - 1) ∨ stackAddr (h.cvSp.toNat + 1) ≤ a → memRead g.mem a = memRead h.mem a := by
  have hn : h.chunkCtr.toNat + 1 < 2 ^ 64 := by rw [← toNat_succ64 hc]; exact (h.chunkCtr + 1).isLt
  obtain ⟨g, hm, hinv, h1, h2, h3, h4, h5⟩ := merge_ok (n := h.chunkCtr.toNat + 1)
    (chunkCvOf (bufBytes h.mem 1024) h.chunkCtr) hi (by omega) hn hsp
  refine ⟨{ g with bufLen := 0, chunkCtr := g.chunkCtr + 1 }, ?_, ?_, rfl, ?_, ?_, h4, h5⟩
  · rw [flush, chunkCV_eq _ (by simp) (by simp)]
    simp only [bind, Except.bind, hm]
  · exact { memWf := hinv.memWf, memInRange := hinv.memInRange, bufLe := by simp, spLe := hinv.spLe,
            bufStored := fun a h6 h7 => by simp [bufAddr] at h6 h7; omega, stackStored := hinv.stackStored }
  · simp only [h2]
  · simp only [h2, h3, toNat_succ64 hc]

/-- What APPEND's bytes leave, with or without a flush, from a state that keeps the invariant (R192 to R196). -/
theorem appendBytes_ok {h : HasherState} {xs : List Byte} (hi : HasherInv h) (hx : xs.length ≤ 64)
    (hsp : h.cvSp.toNat = popcount h.chunkCtr.toNat)
    (hroom : h.bufLen.toNat + xs.length ≤ 1024 ∨ h.chunkCtr ≠ BitVec.allOnes 64) :
    ∃ g, appendBytes xs h = .ok g ∧ HasherInv g ∧ g.cvSp.toNat = popcount g.chunkCtr.toNat ∧
      ((h.bufLen.toNat + xs.length ≤ 1024 ∧ g = fill h xs) ∨
       (1024 < h.bufLen.toNat + xs.length ∧ g.bufLen.toNat = h.bufLen.toNat + xs.length - 1024 ∧
        g.chunkCtr = h.chunkCtr + 1 ∧
        bufBytes g.mem g.bufLen.toNat = xs.drop (1024 - h.bufLen.toNat) ∧ g.cvSp.toNat ≤ h.cvSp.toNat + 1)) := by
  rcases Nat.lt_or_ge 1024 (h.bufLen.toNat + xs.length) with hlt | hle
  · have hble := hi.bufLe
    have hc : h.chunkCtr ≠ BitVec.allOnes 64 := hroom.resolve_left (by omega)
    have hlen : (xs.take (1024 - h.bufLen.toNat)).length = 1024 - h.bufLen.toNat := by simp; omega
    have hfl := fill_bufLen (h := h) (xs := xs.take (1024 - h.bufLen.toNat)) (by omega)
    obtain ⟨g, hf, hinv, h1, h2, h3, h4, h5⟩ := flush_ok (hi.fill (xs := xs.take (1024 - h.bufLen.toNat)) (by omega))
      (by rwa [fill_chunkCtr]) (by rwa [fill_cvSp, fill_chunkCtr])
    have hg0 : g.bufLen.toNat = 0 := by rw [h1]; rfl
    have hdl : (xs.drop (1024 - h.bufLen.toNat)).length = h.bufLen.toNat + xs.length - 1024 := by simp; omega
    refine ⟨fill g (xs.drop (1024 - h.bufLen.toNat)), appendBytes_overflow hble hlt hf h1 (by omega),
      hinv.fill (by omega), by rwa [fill_cvSp, fill_chunkCtr], .inr ⟨hlt, ?_, ?_, ?_, ?_⟩⟩
    · rw [fill_bufLen (by omega), hg0, hdl]; omega
    · rw [fill_chunkCtr, h2, fill_chunkCtr]
    · rw [bufBytes_fill (by omega), hg0]; rfl
    · rw [fill_cvSp]; rwa [fill_cvSp] at h4
  · exact ⟨fill h xs, appendBytes_room xs hle, hi.fill hle, by rwa [fill_cvSp, fill_chunkCtr], .inl ⟨hle, rfl⟩⟩

/-- Whatever the stack, a flush that answers empties the buffer, counts one more chunk, and writes no byte outside the
entries from its final top up to the one pushed (R194). -/
theorem flush_frame {h g : HasherState} (hf : flush h = .ok g) :
    g.bufLen = 0 ∧ g.chunkCtr = h.chunkCtr + 1 ∧ g.cvSp.toNat ≤ h.cvSp.toNat + 1 ∧
    ∀ a, a < stackAddr (g.cvSp.toNat - 1) ∨ stackAddr (h.cvSp.toNat + 1) ≤ a → memRead g.mem a = memRead h.mem a := by
  rw [flush, chunkCV_eq _ (by simp) (by simp)] at hf
  simp only [bind, Except.bind] at hf
  cases hm : merge (chunkCvOf (bufBytes h.mem 1024) h.chunkCtr) (h.chunkCtr.toNat + 1) h with
  | error f => rw [hm] at hf; cases hf
  | ok f =>
    rw [hm] at hf
    injection hf with hf; subst hf
    obtain ⟨_, h2, h3, h4⟩ := merge_frame hm
    exact ⟨rfl, by simp only [h2], h3, h4⟩

/-- What an append of bytes that answers has done, in any state: nothing for no bytes, a plain fill where they fit, else a
fill, a flush and a fill (R191 to R195). -/
theorem appendBytes_cases {h g : HasherState} {xs : List Byte} (hx : xs.length ≤ 64) (hr : appendBytes xs h = .ok g) :
    (h.bufLen.toNat + xs.length ≤ 1024 ∧ g = fill h xs) ∨ (xs = [] ∧ g = h) ∨
    (1024 < h.bufLen.toNat + xs.length ∧ h.bufLen.toNat ≤ 1024 ∧
      ∃ f, flush (fill h (xs.take (1024 - h.bufLen.toNat))) = .ok f ∧
        g = fill f (xs.drop (1024 - h.bufLen.toNat))) := by
  rcases Nat.lt_or_ge 1024 (h.bufLen.toNat + xs.length) with hlt | hle
  · rcases xs with _ | ⟨x, xs⟩
    · injection hr with hr; exact .inr (.inl ⟨rfl, hr.symm⟩)
    rcases Nat.lt_or_ge 1024 h.bufLen.toNat with hb | hb
    · have : appendByte x h = .error (.unreachableState .bufferIndex) := by
        rw [appendByte, if_neg (by rw [bufLen_eq_iff]; omega)]
        simp only [bind, Except.bind, storeByte]
        rw [if_pos (by simp only [Config.bufBytes]; omega)]
      simp only [appendBytes, bind, Except.bind, this] at hr
      cases hr
    · refine .inr (.inr ⟨hlt, hb, ?_⟩)
      generalize hl : x :: xs = ys at *
      have hlen : (ys.take (1024 - h.bufLen.toNat)).length = 1024 - h.bufLen.toNat := by simp; omega
      have h1 := fill_bufLen (h := h) (xs := ys.take (1024 - h.bufLen.toNat)) (by omega)
      cases hf : flush (fill h (ys.take (1024 - h.bufLen.toNat))) with
      | ok f =>
        rw [appendBytes_overflow hb hlt hf (flush_frame hf).1 (by omega)] at hr
        injection hr with hr
        exact ⟨f, rfl, hr.symm⟩
      | error e =>
        exfalso
        rw [← List.take_append_drop (1024 - h.bufLen.toNat) ys, appendBytes_append, appendBytes_room _ (by omega)] at hr
        simp only [Except.bind] at hr
        have hd : ys.drop (1024 - h.bufLen.toNat) ≠ [] := by
          intro hn
          have := congrArg List.length hn
          simp at this; omega
        obtain ⟨z, zs, hz⟩ := List.exists_cons_of_ne_nil hd
        rw [hz, appendBytes, appendByte, if_pos ((bufLen_eq_iff _).2 (by omega)), hf] at hr
        cases hr
  · rw [appendBytes_room xs hle] at hr
    injection hr with hr
    exact .inl ⟨hle, hr.symm⟩

end Sys2Proof.Machine
end

