-- ==== Sys2Proof/Laws/State.lean ====
section
/-! SUPPORT. The fields of the state after each named update: one lemma a field, true by unfolding the update once. -/

namespace Sys2Proof.Machine

@[simp] theorem raiseError_phase (e : CmdError) (s : State) : (raiseError e s).phase = s.phase := rfl
@[simp] theorem raiseError_busy (e : CmdError) (s : State) : (raiseError e s).busy = false := rfl
@[simp] theorem raiseError_errSticky (e : CmdError) (s : State) : (raiseError e s).errSticky = true := rfl
@[simp] theorem raiseError_errcode (e : CmdError) (s : State) : (raiseError e s).errcode = errorCode e := rfl
@[simp] theorem raiseError_hasher (e : CmdError) (s : State) : (raiseError e s).hasher = s.hasher := rfl
@[simp] theorem raiseError_outValid (e : CmdError) (s : State) : (raiseError e s).outValid = s.outValid := rfl
@[simp] theorem raiseError_outlen (e : CmdError) (s : State) : (raiseError e s).outlen = s.outlen := rfl
@[simp] theorem raiseError_xofLen (e : CmdError) (s : State) : (raiseError e s).xofLen = s.xofLen := rfl
@[simp] theorem raiseError_xofIdx (e : CmdError) (s : State) : (raiseError e s).xofIdx = s.xofIdx := rfl
@[simp] theorem raiseError_cmpT (e : CmdError) (s : State) : (raiseError e s).cmpT = s.cmpT := rfl
@[simp] theorem raiseError_cmpB (e : CmdError) (s : State) : (raiseError e s).cmpB = s.cmpB := rfl
@[simp] theorem raiseError_cmpD (e : CmdError) (s : State) : (raiseError e s).cmpD = s.cmpD := rfl
@[simp] theorem raiseError_rootBlen (e : CmdError) (s : State) : (raiseError e s).rootBlen = s.rootBlen := rfl
@[simp] theorem raiseError_rootFlags (e : CmdError) (s : State) : (raiseError e s).rootFlags = s.rootFlags := rfl
@[simp] theorem raiseError_inWin (e : CmdError) (s : State) : (raiseError e s).inWin = s.inWin := rfl
@[simp] theorem raiseError_cmpH (e : CmdError) (s : State) : (raiseError e s).cmpH = s.cmpH := rfl
@[simp] theorem raiseError_cmpM (e : CmdError) (s : State) : (raiseError e s).cmpM = s.cmpM := rfl
@[simp] theorem raiseError_out (e : CmdError) (s : State) : (raiseError e s).out = s.out := rfl
@[simp] theorem raiseError_rootCv (e : CmdError) (s : State) : (raiseError e s).rootCv = s.rootCv := rfl
@[simp] theorem raiseError_rootMsg (e : CmdError) (s : State) : (raiseError e s).rootMsg = s.rootMsg := rfl
@[simp] theorem raiseError_cmdLatch (e : CmdError) (s : State) : (raiseError e s).cmdLatch = s.cmdLatch := rfl
@[simp] theorem raiseError_host (e : CmdError) (s : State) : (raiseError e s).host = s.host := rfl
@[simp] theorem raiseError_coreDelay (e : CmdError) (s : State) : (raiseError e s).coreDelay = s.coreDelay := rfl
@[simp] theorem raiseError_draws (e : CmdError) (s : State) : (raiseError e s).draws = s.draws := rfl

@[simp] theorem succeed_phase (s : State) : (succeed s).phase = s.phase := rfl
@[simp] theorem succeed_busy (s : State) : (succeed s).busy = false := rfl
@[simp] theorem succeed_errSticky (s : State) : (succeed s).errSticky = s.errSticky := rfl
@[simp] theorem succeed_errcode (s : State) : (succeed s).errcode = 0 := rfl
@[simp] theorem succeed_hasher (s : State) : (succeed s).hasher = s.hasher := rfl
@[simp] theorem succeed_outValid (s : State) : (succeed s).outValid = s.outValid := rfl
@[simp] theorem succeed_outlen (s : State) : (succeed s).outlen = s.outlen := rfl
@[simp] theorem succeed_xofLen (s : State) : (succeed s).xofLen = s.xofLen := rfl
@[simp] theorem succeed_xofIdx (s : State) : (succeed s).xofIdx = s.xofIdx := rfl
@[simp] theorem succeed_cmpT (s : State) : (succeed s).cmpT = s.cmpT := rfl
@[simp] theorem succeed_cmpB (s : State) : (succeed s).cmpB = s.cmpB := rfl
@[simp] theorem succeed_cmpD (s : State) : (succeed s).cmpD = s.cmpD := rfl
@[simp] theorem succeed_rootBlen (s : State) : (succeed s).rootBlen = s.rootBlen := rfl
@[simp] theorem succeed_rootFlags (s : State) : (succeed s).rootFlags = s.rootFlags := rfl
@[simp] theorem succeed_inWin (s : State) : (succeed s).inWin = s.inWin := rfl
@[simp] theorem succeed_cmpH (s : State) : (succeed s).cmpH = s.cmpH := rfl
@[simp] theorem succeed_cmpM (s : State) : (succeed s).cmpM = s.cmpM := rfl
@[simp] theorem succeed_out (s : State) : (succeed s).out = s.out := rfl
@[simp] theorem succeed_rootCv (s : State) : (succeed s).rootCv = s.rootCv := rfl
@[simp] theorem succeed_rootMsg (s : State) : (succeed s).rootMsg = s.rootMsg := rfl
@[simp] theorem succeed_cmdLatch (s : State) : (succeed s).cmdLatch = s.cmdLatch := rfl
@[simp] theorem succeed_host (s : State) : (succeed s).host = s.host := rfl
@[simp] theorem succeed_coreDelay (s : State) : (succeed s).coreDelay = s.coreDelay := rfl
@[simp] theorem succeed_draws (s : State) : (succeed s).draws = s.draws := rfl

@[simp] theorem issue_phase (w : Word) (s : State) : (issue w s).phase = s.phase := rfl
@[simp] theorem issue_busy (w : Word) (s : State) : (issue w s).busy = true := rfl
@[simp] theorem issue_errSticky (w : Word) (s : State) : (issue w s).errSticky = s.errSticky := rfl
@[simp] theorem issue_errcode (w : Word) (s : State) : (issue w s).errcode = s.errcode := rfl
@[simp] theorem issue_hasher (w : Word) (s : State) : (issue w s).hasher = s.hasher := rfl
@[simp] theorem issue_outValid (w : Word) (s : State) : (issue w s).outValid = s.outValid := rfl
@[simp] theorem issue_outlen (w : Word) (s : State) : (issue w s).outlen = s.outlen := rfl
@[simp] theorem issue_xofLen (w : Word) (s : State) : (issue w s).xofLen = s.xofLen := rfl
@[simp] theorem issue_xofIdx (w : Word) (s : State) : (issue w s).xofIdx = s.xofIdx := rfl
@[simp] theorem issue_cmpT (w : Word) (s : State) : (issue w s).cmpT = s.cmpT := rfl
@[simp] theorem issue_cmpB (w : Word) (s : State) : (issue w s).cmpB = s.cmpB := rfl
@[simp] theorem issue_cmpD (w : Word) (s : State) : (issue w s).cmpD = s.cmpD := rfl
@[simp] theorem issue_rootBlen (w : Word) (s : State) : (issue w s).rootBlen = s.rootBlen := rfl
@[simp] theorem issue_rootFlags (w : Word) (s : State) : (issue w s).rootFlags = s.rootFlags := rfl
@[simp] theorem issue_inWin (w : Word) (s : State) : (issue w s).inWin = s.inWin := rfl
@[simp] theorem issue_cmpH (w : Word) (s : State) : (issue w s).cmpH = s.cmpH := rfl
@[simp] theorem issue_cmpM (w : Word) (s : State) : (issue w s).cmpM = s.cmpM := rfl
@[simp] theorem issue_out (w : Word) (s : State) : (issue w s).out = s.out := rfl
@[simp] theorem issue_rootCv (w : Word) (s : State) : (issue w s).rootCv = s.rootCv := rfl
@[simp] theorem issue_rootMsg (w : Word) (s : State) : (issue w s).rootMsg = s.rootMsg := rfl
@[simp] theorem issue_cmdLatch (w : Word) (s : State) : (issue w s).cmdLatch = w := rfl
@[simp] theorem issue_host (w : Word) (s : State) : (issue w s).host = s.host := rfl
@[simp] theorem issue_coreDelay (w : Word) (s : State) : (issue w s).coreDelay = Config.latency s.draws := rfl
@[simp] theorem issue_draws (w : Word) (s : State) : (issue w s).draws = s.draws + 1 := rfl

@[simp] theorem placeCommand_phase (w : Word) (s : State) : (placeCommand w s).phase = s.phase := rfl
@[simp] theorem placeCommand_busy (w : Word) (s : State) : (placeCommand w s).busy = true := rfl
@[simp] theorem placeCommand_errSticky (w : Word) (s : State) : (placeCommand w s).errSticky = s.errSticky := rfl
@[simp] theorem placeCommand_errcode (w : Word) (s : State) : (placeCommand w s).errcode = s.errcode := rfl
@[simp] theorem placeCommand_hasher (w : Word) (s : State) : (placeCommand w s).hasher = s.hasher := rfl
@[simp] theorem placeCommand_outValid (w : Word) (s : State) : (placeCommand w s).outValid = s.outValid := rfl
@[simp] theorem placeCommand_outlen (w : Word) (s : State) : (placeCommand w s).outlen = s.outlen := rfl
@[simp] theorem placeCommand_xofLen (w : Word) (s : State) : (placeCommand w s).xofLen = s.xofLen := rfl
@[simp] theorem placeCommand_xofIdx (w : Word) (s : State) : (placeCommand w s).xofIdx = s.xofIdx := rfl
@[simp] theorem placeCommand_cmpT (w : Word) (s : State) : (placeCommand w s).cmpT = s.cmpT := rfl
@[simp] theorem placeCommand_cmpB (w : Word) (s : State) : (placeCommand w s).cmpB = s.cmpB := rfl
@[simp] theorem placeCommand_cmpD (w : Word) (s : State) : (placeCommand w s).cmpD = s.cmpD := rfl
@[simp] theorem placeCommand_rootBlen (w : Word) (s : State) : (placeCommand w s).rootBlen = s.rootBlen := rfl
@[simp] theorem placeCommand_rootFlags (w : Word) (s : State) : (placeCommand w s).rootFlags = s.rootFlags := rfl
@[simp] theorem placeCommand_inWin (w : Word) (s : State) : (placeCommand w s).inWin = s.inWin := rfl
@[simp] theorem placeCommand_cmpH (w : Word) (s : State) : (placeCommand w s).cmpH = s.cmpH := rfl
@[simp] theorem placeCommand_cmpM (w : Word) (s : State) : (placeCommand w s).cmpM = s.cmpM := rfl
@[simp] theorem placeCommand_out (w : Word) (s : State) : (placeCommand w s).out = s.out := rfl
@[simp] theorem placeCommand_rootCv (w : Word) (s : State) : (placeCommand w s).rootCv = s.rootCv := rfl
@[simp] theorem placeCommand_rootMsg (w : Word) (s : State) : (placeCommand w s).rootMsg = s.rootMsg := rfl
@[simp] theorem placeCommand_cmdLatch (w : Word) (s : State) : (placeCommand w s).cmdLatch = w := rfl
@[simp] theorem placeCommand_host (w : Word) (s : State) : (placeCommand w s).host = s.host := rfl
@[simp] theorem placeCommand_coreDelay (w : Word) (s : State) : (placeCommand w s).coreDelay = 0 := rfl
@[simp] theorem placeCommand_draws (w : Word) (s : State) : (placeCommand w s).draws = s.draws := rfl

@[simp] theorem drawn_phase (s : State) : (drawn s).phase = s.phase := rfl
@[simp] theorem drawn_busy (s : State) : (drawn s).busy = s.busy := rfl
@[simp] theorem drawn_errSticky (s : State) : (drawn s).errSticky = s.errSticky := rfl
@[simp] theorem drawn_errcode (s : State) : (drawn s).errcode = s.errcode := rfl
@[simp] theorem drawn_hasher (s : State) : (drawn s).hasher = s.hasher := rfl
@[simp] theorem drawn_outValid (s : State) : (drawn s).outValid = s.outValid := rfl
@[simp] theorem drawn_outlen (s : State) : (drawn s).outlen = s.outlen := rfl
@[simp] theorem drawn_xofLen (s : State) : (drawn s).xofLen = s.xofLen := rfl
@[simp] theorem drawn_xofIdx (s : State) : (drawn s).xofIdx = s.xofIdx := rfl
@[simp] theorem drawn_cmpT (s : State) : (drawn s).cmpT = s.cmpT := rfl
@[simp] theorem drawn_cmpB (s : State) : (drawn s).cmpB = s.cmpB := rfl
@[simp] theorem drawn_cmpD (s : State) : (drawn s).cmpD = s.cmpD := rfl
@[simp] theorem drawn_rootBlen (s : State) : (drawn s).rootBlen = s.rootBlen := rfl
@[simp] theorem drawn_rootFlags (s : State) : (drawn s).rootFlags = s.rootFlags := rfl
@[simp] theorem drawn_inWin (s : State) : (drawn s).inWin = s.inWin := rfl
@[simp] theorem drawn_cmpH (s : State) : (drawn s).cmpH = s.cmpH := rfl
@[simp] theorem drawn_cmpM (s : State) : (drawn s).cmpM = s.cmpM := rfl
@[simp] theorem drawn_out (s : State) : (drawn s).out = s.out := rfl
@[simp] theorem drawn_rootCv (s : State) : (drawn s).rootCv = s.rootCv := rfl
@[simp] theorem drawn_rootMsg (s : State) : (drawn s).rootMsg = s.rootMsg := rfl
@[simp] theorem drawn_cmdLatch (s : State) : (drawn s).cmdLatch = s.cmdLatch := rfl
@[simp] theorem drawn_host (s : State) : (drawn s).host = s.host := rfl
@[simp] theorem drawn_coreDelay (s : State) : (drawn s).coreDelay = s.coreDelay := rfl
@[simp] theorem drawn_draws (s : State) : (drawn s).draws = s.draws + 1 := rfl

@[simp] theorem advance_phase (s : State) : (advance s).phase = s.phase := rfl
@[simp] theorem advance_busy (s : State) : (advance s).busy = s.busy := rfl
@[simp] theorem advance_errSticky (s : State) : (advance s).errSticky = s.errSticky := rfl
@[simp] theorem advance_errcode (s : State) : (advance s).errcode = s.errcode := rfl
@[simp] theorem advance_hasher (s : State) : (advance s).hasher = s.hasher := rfl
@[simp] theorem advance_outValid (s : State) : (advance s).outValid = s.outValid := rfl
@[simp] theorem advance_outlen (s : State) : (advance s).outlen = s.outlen := rfl
@[simp] theorem advance_xofLen (s : State) : (advance s).xofLen = s.xofLen := rfl
@[simp] theorem advance_xofIdx (s : State) : (advance s).xofIdx = s.xofIdx := rfl
@[simp] theorem advance_cmpT (s : State) : (advance s).cmpT = s.cmpT := rfl
@[simp] theorem advance_cmpB (s : State) : (advance s).cmpB = s.cmpB := rfl
@[simp] theorem advance_cmpD (s : State) : (advance s).cmpD = s.cmpD := rfl
@[simp] theorem advance_rootBlen (s : State) : (advance s).rootBlen = s.rootBlen := rfl
@[simp] theorem advance_rootFlags (s : State) : (advance s).rootFlags = s.rootFlags := rfl
@[simp] theorem advance_inWin (s : State) : (advance s).inWin = s.inWin := rfl
@[simp] theorem advance_cmpH (s : State) : (advance s).cmpH = s.cmpH := rfl
@[simp] theorem advance_cmpM (s : State) : (advance s).cmpM = s.cmpM := rfl
@[simp] theorem advance_out (s : State) : (advance s).out = s.out := rfl
@[simp] theorem advance_rootCv (s : State) : (advance s).rootCv = s.rootCv := rfl
@[simp] theorem advance_rootMsg (s : State) : (advance s).rootMsg = s.rootMsg := rfl
@[simp] theorem advance_cmdLatch (s : State) : (advance s).cmdLatch = s.cmdLatch := rfl
@[simp] theorem advance_host (s : State) : (advance s).host = { s.host with pos := s.host.pos + 1 } := rfl
@[simp] theorem advance_coreDelay (s : State) : (advance s).coreDelay = s.coreDelay := rfl
@[simp] theorem advance_draws (s : State) : (advance s).draws = s.draws := rfl

@[simp] theorem setVar_phase (x : Fin 32) (v : Int) (s : State) : (setVar x v s).phase = s.phase := rfl
@[simp] theorem setVar_busy (x : Fin 32) (v : Int) (s : State) : (setVar x v s).busy = s.busy := rfl
@[simp] theorem setVar_errSticky (x : Fin 32) (v : Int) (s : State) : (setVar x v s).errSticky = s.errSticky := rfl
@[simp] theorem setVar_errcode (x : Fin 32) (v : Int) (s : State) : (setVar x v s).errcode = s.errcode := rfl
@[simp] theorem setVar_hasher (x : Fin 32) (v : Int) (s : State) : (setVar x v s).hasher = s.hasher := rfl
@[simp] theorem setVar_outValid (x : Fin 32) (v : Int) (s : State) : (setVar x v s).outValid = s.outValid := rfl
@[simp] theorem setVar_outlen (x : Fin 32) (v : Int) (s : State) : (setVar x v s).outlen = s.outlen := rfl
@[simp] theorem setVar_xofLen (x : Fin 32) (v : Int) (s : State) : (setVar x v s).xofLen = s.xofLen := rfl
@[simp] theorem setVar_xofIdx (x : Fin 32) (v : Int) (s : State) : (setVar x v s).xofIdx = s.xofIdx := rfl
@[simp] theorem setVar_cmpT (x : Fin 32) (v : Int) (s : State) : (setVar x v s).cmpT = s.cmpT := rfl
@[simp] theorem setVar_cmpB (x : Fin 32) (v : Int) (s : State) : (setVar x v s).cmpB = s.cmpB := rfl
@[simp] theorem setVar_cmpD (x : Fin 32) (v : Int) (s : State) : (setVar x v s).cmpD = s.cmpD := rfl
@[simp] theorem setVar_rootBlen (x : Fin 32) (v : Int) (s : State) : (setVar x v s).rootBlen = s.rootBlen := rfl
@[simp] theorem setVar_rootFlags (x : Fin 32) (v : Int) (s : State) : (setVar x v s).rootFlags = s.rootFlags := rfl
@[simp] theorem setVar_inWin (x : Fin 32) (v : Int) (s : State) : (setVar x v s).inWin = s.inWin := rfl
@[simp] theorem setVar_cmpH (x : Fin 32) (v : Int) (s : State) : (setVar x v s).cmpH = s.cmpH := rfl
@[simp] theorem setVar_cmpM (x : Fin 32) (v : Int) (s : State) : (setVar x v s).cmpM = s.cmpM := rfl
@[simp] theorem setVar_out (x : Fin 32) (v : Int) (s : State) : (setVar x v s).out = s.out := rfl
@[simp] theorem setVar_rootCv (x : Fin 32) (v : Int) (s : State) : (setVar x v s).rootCv = s.rootCv := rfl
@[simp] theorem setVar_rootMsg (x : Fin 32) (v : Int) (s : State) : (setVar x v s).rootMsg = s.rootMsg := rfl
@[simp] theorem setVar_cmdLatch (x : Fin 32) (v : Int) (s : State) : (setVar x v s).cmdLatch = s.cmdLatch := rfl
@[simp] theorem setVar_host (x : Fin 32) (v : Int) (s : State) :
    (setVar x v s).host = { s.host with vars := s.host.vars.set x v } := rfl
@[simp] theorem setVar_coreDelay (x : Fin 32) (v : Int) (s : State) : (setVar x v s).coreDelay = s.coreDelay := rfl
@[simp] theorem setVar_draws (x : Fin 32) (v : Int) (s : State) : (setVar x v s).draws = s.draws := rfl

@[simp] theorem keepNothing_phase (s : State) : (keepNothing s).phase = s.phase := rfl
@[simp] theorem keepNothing_busy (s : State) : (keepNothing s).busy = s.busy := rfl
@[simp] theorem keepNothing_errSticky (s : State) : (keepNothing s).errSticky = s.errSticky := rfl
@[simp] theorem keepNothing_errcode (s : State) : (keepNothing s).errcode = s.errcode := rfl
@[simp] theorem keepNothing_hasher (s : State) : (keepNothing s).hasher = s.hasher := rfl
@[simp] theorem keepNothing_outValid (s : State) : (keepNothing s).outValid = s.outValid := rfl
@[simp] theorem keepNothing_outlen (s : State) : (keepNothing s).outlen = s.outlen := rfl
@[simp] theorem keepNothing_xofLen (s : State) : (keepNothing s).xofLen = s.xofLen := rfl
@[simp] theorem keepNothing_xofIdx (s : State) : (keepNothing s).xofIdx = s.xofIdx := rfl
@[simp] theorem keepNothing_cmpT (s : State) : (keepNothing s).cmpT = s.cmpT := rfl
@[simp] theorem keepNothing_cmpB (s : State) : (keepNothing s).cmpB = s.cmpB := rfl
@[simp] theorem keepNothing_cmpD (s : State) : (keepNothing s).cmpD = s.cmpD := rfl
@[simp] theorem keepNothing_rootBlen (s : State) : (keepNothing s).rootBlen = s.rootBlen := rfl
@[simp] theorem keepNothing_rootFlags (s : State) : (keepNothing s).rootFlags = s.rootFlags := rfl
@[simp] theorem keepNothing_inWin (s : State) : (keepNothing s).inWin = s.inWin := rfl
@[simp] theorem keepNothing_cmpH (s : State) : (keepNothing s).cmpH = s.cmpH := rfl
@[simp] theorem keepNothing_cmpM (s : State) : (keepNothing s).cmpM = s.cmpM := rfl
@[simp] theorem keepNothing_out (s : State) : (keepNothing s).out = s.out := rfl
@[simp] theorem keepNothing_rootCv (s : State) : (keepNothing s).rootCv = s.rootCv := rfl
@[simp] theorem keepNothing_rootMsg (s : State) : (keepNothing s).rootMsg = s.rootMsg := rfl
@[simp] theorem keepNothing_cmdLatch (s : State) : (keepNothing s).cmdLatch = s.cmdLatch := rfl
@[simp] theorem keepNothing_host (s : State) :
    (keepNothing s).host = { s.host with digest := [], vars := s.host.vars.set 18 0 } := rfl
@[simp] theorem keepNothing_coreDelay (s : State) : (keepNothing s).coreDelay = s.coreDelay := rfl
@[simp] theorem keepNothing_draws (s : State) : (keepNothing s).draws = s.draws := rfl

@[simp] theorem keepBytes_phase (s : State) : (keepBytes s).phase = s.phase := rfl
@[simp] theorem keepBytes_busy (s : State) : (keepBytes s).busy = s.busy := rfl
@[simp] theorem keepBytes_errSticky (s : State) : (keepBytes s).errSticky = s.errSticky := rfl
@[simp] theorem keepBytes_errcode (s : State) : (keepBytes s).errcode = s.errcode := rfl
@[simp] theorem keepBytes_hasher (s : State) : (keepBytes s).hasher = s.hasher := rfl
@[simp] theorem keepBytes_outValid (s : State) : (keepBytes s).outValid = s.outValid := rfl
@[simp] theorem keepBytes_outlen (s : State) : (keepBytes s).outlen = s.outlen := rfl
@[simp] theorem keepBytes_xofLen (s : State) : (keepBytes s).xofLen = s.xofLen := rfl
@[simp] theorem keepBytes_xofIdx (s : State) : (keepBytes s).xofIdx = s.xofIdx := rfl
@[simp] theorem keepBytes_cmpT (s : State) : (keepBytes s).cmpT = s.cmpT := rfl
@[simp] theorem keepBytes_cmpB (s : State) : (keepBytes s).cmpB = s.cmpB := rfl
@[simp] theorem keepBytes_cmpD (s : State) : (keepBytes s).cmpD = s.cmpD := rfl
@[simp] theorem keepBytes_rootBlen (s : State) : (keepBytes s).rootBlen = s.rootBlen := rfl
@[simp] theorem keepBytes_rootFlags (s : State) : (keepBytes s).rootFlags = s.rootFlags := rfl
@[simp] theorem keepBytes_inWin (s : State) : (keepBytes s).inWin = s.inWin := rfl
@[simp] theorem keepBytes_cmpH (s : State) : (keepBytes s).cmpH = s.cmpH := rfl
@[simp] theorem keepBytes_cmpM (s : State) : (keepBytes s).cmpM = s.cmpM := rfl
@[simp] theorem keepBytes_out (s : State) : (keepBytes s).out = s.out := rfl
@[simp] theorem keepBytes_rootCv (s : State) : (keepBytes s).rootCv = s.rootCv := rfl
@[simp] theorem keepBytes_rootMsg (s : State) : (keepBytes s).rootMsg = s.rootMsg := rfl
@[simp] theorem keepBytes_cmdLatch (s : State) : (keepBytes s).cmdLatch = s.cmdLatch := rfl
@[simp] theorem keepBytes_coreDelay (s : State) : (keepBytes s).coreDelay = s.coreDelay := rfl
@[simp] theorem keepBytes_draws (s : State) : (keepBytes s).draws = s.draws := rfl

@[simp] theorem storeRoot_phase (len : Nat) (r : Root) (s : State) : (storeRoot len r s).phase = .finalized := rfl
@[simp] theorem storeRoot_busy (len : Nat) (r : Root) (s : State) : (storeRoot len r s).busy = s.busy := rfl
@[simp] theorem storeRoot_errSticky (len : Nat) (r : Root) (s : State) :
    (storeRoot len r s).errSticky = s.errSticky := rfl
@[simp] theorem storeRoot_errcode (len : Nat) (r : Root) (s : State) : (storeRoot len r s).errcode = s.errcode := rfl
@[simp] theorem storeRoot_hasher (len : Nat) (r : Root) (s : State) : (storeRoot len r s).hasher = r.after := rfl
@[simp] theorem storeRoot_outValid (len : Nat) (r : Root) (s : State) :
    (storeRoot len r s).outValid = BitVec.ofNat 7 (min 64 len) := rfl
@[simp] theorem storeRoot_outlen (len : Nat) (r : Root) (s : State) : (storeRoot len r s).outlen = s.outlen := rfl
@[simp] theorem storeRoot_xofLen (len : Nat) (r : Root) (s : State) :
    (storeRoot len r s).xofLen = BitVec.ofNat 64 len := rfl
@[simp] theorem storeRoot_xofIdx (len : Nat) (r : Root) (s : State) : (storeRoot len r s).xofIdx = 1 := rfl
@[simp] theorem storeRoot_cmpT (len : Nat) (r : Root) (s : State) : (storeRoot len r s).cmpT = s.cmpT := rfl
@[simp] theorem storeRoot_cmpB (len : Nat) (r : Root) (s : State) : (storeRoot len r s).cmpB = s.cmpB := rfl
@[simp] theorem storeRoot_cmpD (len : Nat) (r : Root) (s : State) : (storeRoot len r s).cmpD = s.cmpD := rfl
@[simp] theorem storeRoot_rootBlen (len : Nat) (r : Root) (s : State) : (storeRoot len r s).rootBlen = r.blen := rfl
@[simp] theorem storeRoot_rootFlags (len : Nat) (r : Root) (s : State) :
    (storeRoot len r s).rootFlags = r.flags := rfl
@[simp] theorem storeRoot_inWin (len : Nat) (r : Root) (s : State) : (storeRoot len r s).inWin = s.inWin := rfl
@[simp] theorem storeRoot_cmpH (len : Nat) (r : Root) (s : State) : (storeRoot len r s).cmpH = s.cmpH := rfl
@[simp] theorem storeRoot_cmpM (len : Nat) (r : Root) (s : State) : (storeRoot len r s).cmpM = s.cmpM := rfl
@[simp] theorem storeRoot_out (len : Nat) (r : Root) (s : State) : (storeRoot len r s).out = outWords r.out := rfl
@[simp] theorem storeRoot_rootCv (len : Nat) (r : Root) (s : State) : (storeRoot len r s).rootCv = r.cv := rfl
@[simp] theorem storeRoot_rootMsg (len : Nat) (r : Root) (s : State) : (storeRoot len r s).rootMsg = r.msg := rfl
@[simp] theorem storeRoot_cmdLatch (len : Nat) (r : Root) (s : State) :
    (storeRoot len r s).cmdLatch = s.cmdLatch := rfl
@[simp] theorem storeRoot_host (len : Nat) (r : Root) (s : State) : (storeRoot len r s).host = s.host := rfl
@[simp] theorem storeRoot_coreDelay (len : Nat) (r : Root) (s : State) :
    (storeRoot len r s).coreDelay = s.coreDelay := rfl
@[simp] theorem storeRoot_draws (len : Nat) (r : Root) (s : State) : (storeRoot len r s).draws = s.draws := rfl

@[simp] theorem tick_phase (s : State) : (tick s).phase = s.phase := by unfold tick; split <;> rfl
@[simp] theorem tick_busy (s : State) : (tick s).busy = s.busy := by unfold tick; split <;> rfl
@[simp] theorem tick_errSticky (s : State) : (tick s).errSticky = s.errSticky := by unfold tick; split <;> rfl
@[simp] theorem tick_errcode (s : State) : (tick s).errcode = s.errcode := by unfold tick; split <;> rfl
@[simp] theorem tick_hasher (s : State) : (tick s).hasher = s.hasher := by unfold tick; split <;> rfl
@[simp] theorem tick_outValid (s : State) : (tick s).outValid = s.outValid := by unfold tick; split <;> rfl
@[simp] theorem tick_outlen (s : State) : (tick s).outlen = s.outlen := by unfold tick; split <;> rfl
@[simp] theorem tick_xofLen (s : State) : (tick s).xofLen = s.xofLen := by unfold tick; split <;> rfl
@[simp] theorem tick_xofIdx (s : State) : (tick s).xofIdx = s.xofIdx := by unfold tick; split <;> rfl
@[simp] theorem tick_cmpT (s : State) : (tick s).cmpT = s.cmpT := by unfold tick; split <;> rfl
@[simp] theorem tick_cmpB (s : State) : (tick s).cmpB = s.cmpB := by unfold tick; split <;> rfl
@[simp] theorem tick_cmpD (s : State) : (tick s).cmpD = s.cmpD := by unfold tick; split <;> rfl
@[simp] theorem tick_rootBlen (s : State) : (tick s).rootBlen = s.rootBlen := by unfold tick; split <;> rfl
@[simp] theorem tick_rootFlags (s : State) : (tick s).rootFlags = s.rootFlags := by unfold tick; split <;> rfl
@[simp] theorem tick_inWin (s : State) : (tick s).inWin = s.inWin := by unfold tick; split <;> rfl
@[simp] theorem tick_cmpH (s : State) : (tick s).cmpH = s.cmpH := by unfold tick; split <;> rfl
@[simp] theorem tick_cmpM (s : State) : (tick s).cmpM = s.cmpM := by unfold tick; split <;> rfl
@[simp] theorem tick_out (s : State) : (tick s).out = s.out := by unfold tick; split <;> rfl
@[simp] theorem tick_rootCv (s : State) : (tick s).rootCv = s.rootCv := by unfold tick; split <;> rfl
@[simp] theorem tick_rootMsg (s : State) : (tick s).rootMsg = s.rootMsg := by unfold tick; split <;> rfl
@[simp] theorem tick_cmdLatch (s : State) : (tick s).cmdLatch = s.cmdLatch := by unfold tick; split <;> rfl
@[simp] theorem tick_host (s : State) : (tick s).host = s.host := by unfold tick; split <;> rfl
@[simp] theorem tick_draws (s : State) : (tick s).draws = s.draws := by unfold tick; split <;> rfl

@[simp] theorem blockReset_phase (s : State) : (blockReset s).phase = State.reset.phase := rfl
@[simp] theorem blockReset_busy (s : State) : (blockReset s).busy = State.reset.busy := rfl
@[simp] theorem blockReset_errSticky (s : State) : (blockReset s).errSticky = State.reset.errSticky := rfl
@[simp] theorem blockReset_errcode (s : State) : (blockReset s).errcode = State.reset.errcode := rfl
@[simp] theorem blockReset_hasher (s : State) : (blockReset s).hasher = State.reset.hasher := rfl
@[simp] theorem blockReset_outValid (s : State) : (blockReset s).outValid = State.reset.outValid := rfl
@[simp] theorem blockReset_outlen (s : State) : (blockReset s).outlen = State.reset.outlen := rfl
@[simp] theorem blockReset_xofLen (s : State) : (blockReset s).xofLen = State.reset.xofLen := rfl
@[simp] theorem blockReset_xofIdx (s : State) : (blockReset s).xofIdx = State.reset.xofIdx := rfl
@[simp] theorem blockReset_cmpT (s : State) : (blockReset s).cmpT = State.reset.cmpT := rfl
@[simp] theorem blockReset_cmpB (s : State) : (blockReset s).cmpB = State.reset.cmpB := rfl
@[simp] theorem blockReset_cmpD (s : State) : (blockReset s).cmpD = State.reset.cmpD := rfl
@[simp] theorem blockReset_rootBlen (s : State) : (blockReset s).rootBlen = State.reset.rootBlen := rfl
@[simp] theorem blockReset_rootFlags (s : State) : (blockReset s).rootFlags = State.reset.rootFlags := rfl
@[simp] theorem blockReset_inWin (s : State) : (blockReset s).inWin = State.reset.inWin := rfl
@[simp] theorem blockReset_cmpH (s : State) : (blockReset s).cmpH = State.reset.cmpH := rfl
@[simp] theorem blockReset_cmpM (s : State) : (blockReset s).cmpM = State.reset.cmpM := rfl
@[simp] theorem blockReset_out (s : State) : (blockReset s).out = State.reset.out := rfl
@[simp] theorem blockReset_rootCv (s : State) : (blockReset s).rootCv = State.reset.rootCv := rfl
@[simp] theorem blockReset_rootMsg (s : State) : (blockReset s).rootMsg = State.reset.rootMsg := rfl
@[simp] theorem blockReset_cmdLatch (s : State) : (blockReset s).cmdLatch = State.reset.cmdLatch := rfl
@[simp] theorem blockReset_host (s : State) : (blockReset s).host = s.host := rfl
@[simp] theorem blockReset_coreDelay (s : State) : (blockReset s).coreDelay = State.reset.coreDelay := rfl
@[simp] theorem blockReset_draws (s : State) : (blockReset s).draws = s.draws := rfl

end Sys2Proof.Machine
end

