-- ==== Sys2Proof/Laws/Finalizer.lean ====
section
/-! SUPPORT. The chunk's last block, the pops of rootTree, and what root selection answers (R220 to R227). -/

namespace Sys2Proof.Machine

/-- The last block's output is the compression of the returned inputs (R154). -/
theorem processBlocks_out (t : BitVec 64) (isRoot ft : Bool) (more : Nat) : ∀ (first : Bool) (cv : CV) (bs : List Byte),
    (processBlocks t isRoot ft first cv more bs).out =
      compress (processBlocks t isRoot ft first cv more bs).preCv (processBlocks t isRoot ft first cv more bs).lastMsg t
        (processBlocks t isRoot ft first cv more bs).lastBlen (processBlocks t isRoot ft first cv more bs).lastFlags ft := by
  induction more with
  | zero => intro first cv bs; simp only [processBlocks]
  | succ more ih => intro first cv bs; simp only [processBlocks]; exact ih _ _ _

/-- The last block's flags: it is the first block only in a chunk of one block (R152). -/
theorem processBlocks_flags (t : BitVec 64) (isRoot ft : Bool) (more : Nat) : ∀ (first : Bool) (cv : CV) (bs : List Byte),
    (processBlocks t isRoot ft first cv more bs).lastFlags = blockFlags (first && more == 0) true isRoot := by
  induction more with
  | zero => intro first cv bs; simp [processBlocks]
  | succ more ih => intro first cv bs; simp only [processBlocks]; rw [ih]; simp

/-- The last block's length is the bytes left for it (R151). -/
theorem processBlocks_blen (t : BitVec 64) (isRoot ft : Bool) (more : Nat) : ∀ (first : Bool) (cv : CV) (bs : List Byte),
    (processBlocks t isRoot ft first cv more bs).lastBlen = BitVec.ofNat 32 (bs.length - 64 * more) := by
  induction more with
  | zero => intro first cv bs; simp [processBlocks]
  | succ more ih => intro first cv bs; simp only [processBlocks]; rw [ih]; simp; congr 1; omega

/-- The last block's message is its bytes, zero-padded (R151). -/
theorem processBlocks_msg (t : BitVec 64) (isRoot ft : Bool) (more : Nat) : ∀ (first : Bool) (cv : CV) (bs : List Byte),
    (processBlocks t isRoot ft first cv more bs).lastMsg = words (bs.drop (64 * more)) := by
  induction more with
  | zero => intro first cv bs; simp [processBlocks]
  | succ more ih =>
    intro first cv bs
    simp only [processBlocks]
    rw [ih, List.drop_drop, show 64 + 64 * more = 64 * (more + 1) by omega]

/-- The value that enters the last block is the one threaded through the blocks before it (R154). -/
theorem processBlocks_preCv (t : BitVec 64) (isRoot ft : Bool) (bytes : List Byte) (more : Nat) : ∀ k : Nat,
    (processBlocks t isRoot ft (k == 0) (threadedCv bytes t k) more (bytes.drop (64 * k))).preCv =
      threadedCv bytes t (k + more) := by
  induction more with
  | zero => intro k; simp only [processBlocks, Nat.add_zero]
  | succ more ih =>
    intro k
    have hf : blockFlags (k == 0) false isRoot = if k = 0 then 0x1 else 0x0 := by
      cases isRoot <;> cases k <;> simp [blockFlags, flagIf, chunkStart]
    have := ih (k + 1)
    rw [threadedCv, Nat.add_right_comm, Nat.add_assoc] at this
    simp only [processBlocks, List.drop_drop, hf]
    rw [show 64 * k + 64 = 64 * (k + 1) by omega]
    exact this

/-- The bytes of a chunk's last block number 1 to 64 (R151, R227). -/
theorem lastBlock_length {n : Nat} (h0 : 0 < n) : n - 64 * (blockCount n - 1) = (n - 1) % 64 + 1 := by
  simp only [blockCount]; omega

/-- The pops of rootTree merge the entries from the top down to entry 1 (R223). -/
theorem foldStack_eq (n : Nat) : ∀ (run : CV) (h : HasherState), h.cvSp.toNat ≤ 64 → h.cvSp.toNat = n + 1 →
    foldStack n run h = .ok (treeRun h.mem n run, { h with cvSp := 1 }) := by
  induction n with
  | zero =>
    intro run h _ hn
    have : h.cvSp = 1 := BitVec.eq_of_toNat_eq hn
    simp only [foldStack, treeRun, ← this]
  | succ n ih =>
    intro run h hle hn
    have h1 : (h.cvSp - 1).toNat = n + 1 := by rw [toNat_pred7 (by omega)]; omega
    rw [foldStack, pop_eq (by omega) hle]
    simp only [bind, Except.bind]
    rw [ih _ _ (by simp only; omega) h1]
    simp only [treeRun, hn, Nat.add_sub_cancel]

/-- rootTree on a stack of 1 to 64 entries and a tail chunk of 1 to 1024 bytes (R223). -/
theorem rootTree_eq {h : HasherState} (hb : 1 ≤ h.bufLen.toNat) (hb' : h.bufLen.toNat ≤ 1024)
    (hs : 1 ≤ h.cvSp.toNat) (hs' : h.cvSp.toNat ≤ 64) :
    rootTree h = .ok
      { cv := iv
        msg := cat8 (stackEntry h.mem 0)
          (treeRun h.mem (h.cvSp.toNat - 1) (chunkCvOf (bufBytes h.mem h.bufLen.toNat) h.chunkCtr))
        blen := 64
        flags := parentFlag ||| rootFlag
        out := compress iv (cat8 (stackEntry h.mem 0)
          (treeRun h.mem (h.cvSp.toNat - 1) (chunkCvOf (bufBytes h.mem h.bufLen.toNat) h.chunkCtr)))
          0 64 (parentFlag ||| rootFlag) false
        after := { h with cvSp := 0 } } := by
  rw [rootTree, if_neg (by intro hz; simp [hz] at hb), chunkCV_eq _ (by simp; omega) (by simp; omega)]
  simp only [bind, Except.bind]
  rw [foldStack_eq (h.cvSp.toNat - 1) _ h hs' (by omega)]
  simp only
  rw [pop_eq (by simp) (by simp)]
  simp only [show (1 : BitVec 7).toNat - 1 = 0 from rfl, show (1 : BitVec 7) - 1 = 0 by decide]

/-- rootOneChunk on a chunk of 1 to 1024 bytes (R222). -/
theorem rootOneChunk_eq {h : HasherState} (hb : 1 ≤ h.bufLen.toNat) (hb' : h.bufLen.toNat ≤ 1024) :
    rootOneChunk h = .ok (
      let r := processBlocks h.chunkCtr true false true iv (blockCount h.bufLen.toNat - 1)
        (bufBytes h.mem h.bufLen.toNat)
      { cv := r.preCv, msg := r.lastMsg, blen := r.lastBlen, flags := r.lastFlags, out := r.out, after := h }) := by
  rw [rootOneChunk, processChunk_eq _ _ _ _ (by simp; omega) (by simp; omega)]
  simp only [bind, Except.bind, bufBytes_length]

theorem popcount_eq_zero {n : Nat} (hn : n < 2 ^ 64) (h : popcount n = 0) : n = 0 := by
  rcases Nat.eq_zero_or_pos n with h0 | h0
  · exact h0
  · have := popcountBits_pos 64 n h0 hn
    simp only [popcount] at h; omega

theorem bufLen_zero_iff (x : BitVec 11) : x = 0 ↔ x.toNat = 0 := by
  constructor
  · rintro rfl; rfl
  · intro h; exact BitVec.eq_of_toNat_eq (by simpa using h)

theorem cvSp_zero_iff (x : BitVec 7) : x = 0 ↔ x.toNat = 0 := by
  constructor
  · rintro rfl; rfl
  · intro h; exact BitVec.eq_of_toNat_eq (by simpa using h)

/-- What root selection answers in a state that keeps R28: the stack is emptied and nothing else of the hasher changes
(R224), the root's length and flags are legal (R227), and its output is the compression of the root input at counter 0
(R225). -/
theorem selectRoot_ok {h : HasherState} (hi : HasherInv h) (hsp : h.cvSp.toNat = popcount h.chunkCtr.toNat)
    (hne : h.chunkCtr ≠ 0 → 1 ≤ h.bufLen.toNat) :
    ∃ r, selectRoot h = .ok r ∧ r.after = { h with cvSp := 0 } ∧ r.blen.toNat ≤ 64 ∧
      (r.flags = 0xA ∨ r.flags = 0xB ∨ r.flags = 0xC) ∧ r.out = compress r.cv r.msg 0 r.blen r.flags false := by
  by_cases hs : h.cvSp = 0
  · have hc : h.chunkCtr = 0 := by
      rw [hs] at hsp
      exact BitVec.eq_of_toNat_eq (popcount_eq_zero h.chunkCtr.isLt hsp.symm)
    have haft : h = { h with cvSp := 0 } := by rw [← hs]
    by_cases hb : h.bufLen = 0
    · refine ⟨rootEmpty h, by rw [selectRoot, if_pos ⟨hb, hs⟩], haft, by simp [rootEmpty], ?_, rfl⟩
      exact .inr (.inl (show chunkStart ||| chunkEnd ||| rootFlag = 0xB by decide))
    · have hb1 : 1 ≤ h.bufLen.toNat := by
        rw [bufLen_zero_iff] at hb; omega
      refine ⟨_, by rw [selectRoot, if_neg (fun hh => hb hh.1), if_pos hs, rootOneChunk_eq hb1 hi.bufLe], haft, ?_, ?_, ?_⟩
      · simp only [processBlocks_blen, bufBytes_length, lastBlock_length hb1]
        rw [BitVec.toNat_ofNat, Nat.mod_eq_of_lt (by omega)]; omega
      · simp only [processBlocks_flags]
        by_cases hm : blockCount h.bufLen.toNat - 1 = 0
        · rw [hm]; exact .inr (.inl (by decide))
        · have : (blockCount h.bufLen.toNat - 1 == 0) = false := by simpa using hm
          rw [this]; exact .inl (by decide)
      · simp only
        rw [processBlocks_out, hc]
  · have hs1 : 1 ≤ h.cvSp.toNat := by rw [cvSp_zero_iff] at hs; omega
    have hc : h.chunkCtr ≠ 0 := by
      rintro hc
      rw [hc] at hsp
      have : popcount (0#64).toNat = 0 := by decide
      rw [show (0 : BitVec 64).toNat = (0#64).toNat from rfl, this] at hsp
      omega
    refine ⟨_, by rw [selectRoot, if_neg (fun hh => hs hh.2), if_neg hs, rootTree_eq (hne hc) hi.bufLe hs1 hi.spLe],
      rfl, by simp, .inr (.inr (show parentFlag ||| rootFlag = 0xC by decide)), rfl⟩

end Sys2Proof.Machine
end

