-- ==== Sys2Proof/Laws/Exec.lean ====
section
/-! SUPPORT. What each command and each host statement can do, said once, and which fields the invariant speaks of. -/

namespace Sys2Proof.Machine

/-- The invariant speaks of these fields only. -/
theorem Inv.congr {s t : State} (hi : Inv s) (h1 : t.hasher = s.hasher) (h2 : t.phase = s.phase)
    (h3 : t.rootFlags = s.rootFlags) (h4 : t.errcode.toNat ≤ 8) (h5 : t.outValid.toNat ≤ 64)
    (h6 : t.rootBlen = s.rootBlen) (h7 : t.xofLen = s.xofLen) : Inv t where
  hasher := h1 ▸ hi.hasher
  spPopcount := by rw [h1, h2]; exact hi.spPopcount
  bufNonempty := by rw [h1, h2]; exact hi.bufNonempty
  finalStack := by rw [h1, h2]; exact hi.finalStack
  finalRoot := by rw [h2, h3]; exact hi.finalRoot
  errcodeLe := h4
  outValidLe := h5
  rootBlenLe := h6 ▸ hi.rootBlenLe
  rootFlagsLe := h3 ▸ hi.rootFlagsLe
  xofLenLt := h7 ▸ hi.xofLenLt

theorem errorCode_le (e : CmdError) : (errorCode e).toNat ≤ 8 := by cases e <;> decide

/-- A command that ends in an error keeps the invariant (R268). -/
theorem Inv.raiseError {s : State} (hi : Inv s) (e : CmdError) : Inv (raiseError e s) :=
  hi.congr rfl rfl rfl (errorCode_le e) hi.outValidLe rfl rfl

theorem Inv.succeed {s : State} (hi : Inv s) : Inv (succeed s) :=
  hi.congr rfl rfl rfl (by simp) hi.outValidLe rfl rfl

theorem phase_cases (p : Phase) : p = .accepting ∨ p = .finalized := by cases p <;> simp

/-- APPEND's outcomes, in the order of its checks (R192, R262). -/
theorem execAppend_cases (n : Nat) (s : State) :
    (s.phase = .finalized ∧ execAppend n s = .next (raiseError .finalized s)) ∨
    (s.phase = .accepting ∧ 64 < n ∧ execAppend n s = .next (raiseError .appendLength s)) ∨
    (s.phase = .accepting ∧ n ≤ 64 ∧ 1024 < s.hasher.bufLen.toNat + n ∧ s.hasher.chunkCtr = BitVec.allOnes 64 ∧
      execAppend n s = .next (raiseError .counterOverflow s)) ∨
    (s.phase = .accepting ∧ n ≤ 64 ∧ (s.hasher.bufLen.toNat + n ≤ 1024 ∨ s.hasher.chunkCtr ≠ BitVec.allOnes 64) ∧
      execAppend n s = finish ((appendBytes (appendOperand n s) s.hasher).map fun h => { s with hasher := h })) := by
  rcases phase_cases s.phase with hp | hp
  · refine .inr ?_
    by_cases hn : 64 < n
    · refine .inl ⟨hp, hn, ?_⟩
      rw [execAppend, if_neg (by simp [hp]), if_pos (by simpa [Config.appendMax] using hn)]
    refine .inr ?_
    by_cases hc : 1024 < s.hasher.bufLen.toNat + n ∧ s.hasher.chunkCtr = BitVec.allOnes 64
    · refine .inl ⟨hp, by omega, hc.1, hc.2, ?_⟩
      rw [execAppend, if_neg (by simp [hp]), if_neg (by simpa [Config.appendMax] using hn), if_pos hc]
    · refine .inr ⟨hp, by omega, ?_, ?_⟩
      · by_cases h2 : s.hasher.chunkCtr = BitVec.allOnes 64
        · exact .inl (Nat.le_of_not_lt fun h1 => hc ⟨h1, h2⟩)
        · exact .inr h2
      · rw [execAppend, if_neg (by simp [hp]), if_neg (by simpa [Config.appendMax] using hn), if_neg hc]
        cases appendBytes (appendOperand n s) s.hasher <;> rfl
  · exact .inl ⟨hp, by rw [execAppend, if_pos hp]⟩

/-- FINALIZE's outcomes, in the order of its checks (R220, R262). -/
theorem execFinalize_cases (s : State) :
    (s.phase = .finalized ∧ execFinalize s = .next (raiseError .finalized s)) ∨
    (s.phase = .accepting ∧ requestedLength s < 0 ∧ execFinalize s = .next (raiseError .invalidOutputLength s)) ∨
    (s.phase = .accepting ∧ 0 ≤ requestedLength s ∧
      execFinalize s = finish ((selectRoot s.hasher).map fun r => storeRoot (requestedLength s).toNat r s)) := by
  rcases phase_cases s.phase with hp | hp
  · refine .inr ?_
    by_cases hl : requestedLength s < 0
    · exact .inl ⟨hp, hl, by rw [execFinalize, if_neg (by simp [hp]), if_pos hl]⟩
    · refine .inr ⟨hp, by omega, ?_⟩
      rw [execFinalize, if_neg (by simp [hp]), if_neg hl]
      cases selectRoot s.hasher <;> rfl
  · exact .inl ⟨hp, by rw [execFinalize, if_pos hp]⟩

/-- XOF_BLOCK's outcomes, in the order of its checks (R230, R262). -/
theorem execXofBlock_cases (s : State) :
    (s.phase = .accepting ∧ execXofBlock s = .next (raiseError .notFinalized s)) ∨
    (s.phase = .finalized ∧ blockCount s.xofLen.toNat ≤ s.xofIdx.toNat ∧
      execXofBlock s = .next (raiseError .xofRange s)) ∨
    (s.phase = .finalized ∧ s.xofIdx.toNat < blockCount s.xofLen.toNat ∧
      execXofBlock s = .next (succeed { s with
        out := outBlock s.xofIdx s
        outValid := BitVec.ofNat 7 (min 64 (s.xofLen.toNat - 64 * s.xofIdx.toNat))
        xofIdx := s.xofIdx + 1 })) := by
  rcases phase_cases s.phase with hp | hp
  · exact .inl ⟨hp, by rw [execXofBlock, if_pos hp]⟩
  · refine .inr ?_
    by_cases hk : blockCount s.xofLen.toNat ≤ s.xofIdx.toNat
    · exact .inl ⟨hp, hk, by rw [execXofBlock, if_neg (by simp [hp]), if_pos hk]⟩
    · exact .inr ⟨hp, by omega, by rw [execXofBlock, if_neg (by simp [hp]), if_neg hk]⟩

theorem appendOperand_length {n : Nat} (hn : n ≤ 64) (s : State) : (appendOperand n s).length = n := by
  simp [appendOperand, inBytes]; omega

theorem toNat_min64 (n : Nat) : (BitVec.ofNat 7 (min 64 n)).toNat = min 64 n := by
  rw [BitVec.toNat_ofNat, Nat.mod_eq_of_lt (by omega)]

theorem requestedLength_lt (s : State) : (requestedLength s).toNat < 2 ^ 63 := by
  have := BitVec.toInt_lt (x := s.outlen)
  simp only [requestedLength]; omega

theorem fill_bufLen_of_room {h : HasherState} {xs : List Byte} (hle : h.bufLen.toNat + xs.length ≤ 1024) :
    h.bufLen.toNat ≤ (fill h xs).bufLen.toNat := by rw [fill_bufLen hle]; omega

/-- What a write to a place of the window can change: the operand registers, and on CMD the latch (R64, R66, R67, R294).
The hasher, the root, the output and the error record are never written by the host. -/
theorem writeLoc_keeps (v : Word) (s : State) (l : Loc) :
    (writeLoc v s l).hasher = s.hasher ∧ (writeLoc v s l).phase = s.phase ∧
    (writeLoc v s l).rootFlags = s.rootFlags ∧ (writeLoc v s l).errcode = s.errcode ∧
    (writeLoc v s l).outValid = s.outValid ∧ (writeLoc v s l).rootBlen = s.rootBlen ∧
    (writeLoc v s l).xofLen = s.xofLen ∧ (writeLoc v s l).errSticky = s.errSticky ∧ (writeLoc v s l).out = s.out ∧
    (writeLoc v s l).rootCv = s.rootCv ∧ (writeLoc v s l).rootMsg = s.rootMsg ∧ (writeLoc v s l).host = s.host := by
  cases l <;> refine ⟨rfl, rfl, rfl, rfl, rfl, rfl, rfl, rfl, rfl, rfl, rfl, rfl⟩

/-- What a host step can be: idle, or one statement; and a statement either leaves the block alone but for `draws`, or
writes one place of the window, or is the reset (R68, R96). -/
theorem execHost_cases {st : HostStmt} {s t : State} (h : execHost st s = .next t) :
    (∃ (a : HostAgent) (n : Nat), t = { s with host := a, draws := n }) ∨
    (∃ (v : Word) (l : Loc) (a : HostAgent), t = { writeLoc v s l with host := a } ∧ s.busy = false) ∨
    (∃ a : HostAgent, t = { State.reset with host := a, draws := s.draws } ∧ st = .reset) := by
  have hjump : ∀ l, jump l s = .next t → ∃ a : HostAgent, t = { s with host := a } := by
    intro l hj
    simp only [jump] at hj
    split at hj
    · injection hj with hj; exact ⟨_, hj.symm⟩
    · cases hj
  have hjumpIf : ∀ c l, jumpIf c l s = .next t → ∃ a : HostAgent, t = { s with host := a } := by
    intro c l hj
    simp only [jumpIf] at hj
    split at hj
    · exact hjump l hj
    · injection hj with hj; exact ⟨_, hj.symm⟩
  have hold : (∃ a : HostAgent, t = { s with host := a }) →
      ∃ (a : HostAgent) (n : Nat), t = { s with host := a, draws := n } := by
    rintro ⟨a, rfl⟩; exact ⟨a, s.draws, rfl⟩
  cases st with
  | wr off width v =>
    simp only [execHost, busWrite, bind, Except.bind] at h
    cases hc : checkAccess false off width s with
    | error f => rw [hc] at h; cases h
    | ok u =>
      rw [hc] at h
      injection h with h
      refine .inr (.inl ⟨v, locate off, _, h.symm, ?_⟩)
      simp only [checkAccess] at hc
      split at hc
      · cases hc
      split at hc
      · cases hc
      split at hc
      · cases hc
      · rename_i hb; simpa using hb
  | rd x off width =>
    simp only [execHost, busRead, bind, Except.bind] at h
    cases hc : checkAccess true off width s with
    | error f => rw [hc] at h; cases h
    | ok u =>
      rw [hc] at h
      injection h with h
      refine .inl ?_
      split at h
      · exact ⟨_, _, h.symm⟩
      · exact ⟨_, s.draws, h.symm⟩
  | label l => injection h with h; exact .inl (hold ⟨_, h.symm⟩)
  | bnz x mask l => exact .inl (hold (hjumpIf _ _ h))
  | bz x mask l => exact .inl (hold (hjumpIf _ _ h))
  | b l => exact .inl (hold (hjump _ h))
  | addi x y imm => injection h with h; exact .inl (hold ⟨_, h.symm⟩)
  | blt x y l => exact .inl (hold (hjumpIf _ _ h))
  | reset => injection h with h; exact .inr (.inr ⟨_, h.symm, rfl⟩)
  | keepStart => injection h with h; exact .inl (hold ⟨_, h.symm⟩)
  | keep => injection h with h; exact .inl (hold ⟨_, h.symm⟩)

theorem Inv.tick {s : State} (hi : Inv s) : Inv (tick s) :=
  hi.congr (by simp) (by simp) (by simp) (by simpa using hi.errcodeLe) (by simpa using hi.outValidLe) (by simp) (by simp)

end Sys2Proof.Machine
end

