-- ==== Sys2Proof/Laws/PerInstr.lean ====
section
/-! SUPPORT. The statements made for every command as syntax: the word of a well-formed command selects its own row of the
opcode map (R94, R97). -/

/-- The word of the command, where it has one, selects the command's row of the opcode map (R94). -/
def Sys2Proof.Laws.Row.Statement (i : Sys2Proof.Instr) : Prop :=
  i.wellFormed = true → (Sys2Proof.rowOf i).selects (Sys2Proof.encode i) = true

theorem Sys2Proof.Laws.Row.init : Sys2Proof.Laws.Row.Statement .init := fun _ => by decide

theorem Sys2Proof.Laws.Row.append (n : Nat) : Sys2Proof.Laws.Row.Statement (.append n) := by
  have h : ∀ k : Fin 128, (Sys2Proof.rowOf (.append k.val)).selects (Sys2Proof.encode (.append k.val)) = true := by decide
  intro hw
  have hn : n ≤ 127 := by simpa [Sys2Proof.Instr.wellFormed] using hw
  exact h ⟨n, by omega⟩

theorem Sys2Proof.Laws.Row.finalize : Sys2Proof.Laws.Row.Statement .finalize := fun _ => by decide

theorem Sys2Proof.Laws.Row.xofBlock : Sys2Proof.Laws.Row.Statement .xofBlock := fun _ => by decide

theorem Sys2Proof.Laws.Row.compress (t : Bool) : Sys2Proof.Laws.Row.Statement (.compress t) := fun _ => by
  cases t <;> decide
end

