-- ==== Sys2Proof/Tests/Slice0.lean ====
section
/-! SUPPORT. Tests of the model against the spec's own examples (95_test_vectors.md), each naming its source, and for every
statement of the obligations a concrete state that meets its hypotheses. -/

namespace Sys2Proof.Tests

open Sys2Proof Sys2Proof.Machine

/-! ### Well-formedness and decoding -/

/-- R97: `append 128` is not encodable, `append 127` is. -/
theorem test_append_field_range : (Instr.append 128).wellFormed = false ∧ (Instr.append 127).wellFormed = true := by decide

/-- R91, R94: INIT, OP = 00000001 and every other bit 0. -/
theorem test_decode_init : decode 0b00000000000000000000000000000001 = .ok .init := by decide

/-- R91, R94: APPEND, OP = 00000010, N = 1000000 (64) in bits 14:8; and N = 0000011 (3). -/
theorem test_decode_append : decode 0b00000000000000000100000000000010 = .ok (.append 64) ∧
    decode 0b00000000000000000000001100000010 = .ok (.append 3) := by decide

/-- R91, R94: FINALIZE, OP = 00000011. -/
theorem test_decode_finalize : decode 0b00000000000000000000000000000011 = .ok .finalize := by decide

/-- R91, R94: XOF_BLOCK, OP = 00000100. -/
theorem test_decode_xof_block : decode 0b00000000000000000000000000000100 = .ok .xofBlock := by decide

/-- R91, R94: COMPRESS, OP = 00000101, T in bit 15. -/
theorem test_decode_compress : decode 0b00000000000000000000000000000101 = .ok (.compress false) ∧
    decode 0b00000000000000001000000000000101 = .ok (.compress true) := by decide

/-- V20: reserved bits of a legal opcode. -/
theorem test_decode_reserved : decode 0x00010002 = .error .reservedBits ∧ decode 0x00008002 = .error .reservedBits ∧
    decode 0x00000103 = .error .reservedBits ∧ decode 0x00000105 = .error .reservedBits ∧
    decode 0x80000001 = .error .reservedBits := by decide

/-- V20: illegal opcodes, the opcode check coming first. -/
theorem test_decode_illegal : decode 0x00000000 = .error .illegalOpcode ∧ decode 0x00000006 = .error .illegalOpcode ∧
    decode 0xffffffff = .error .illegalOpcode := by decide

/-- R97: the words of the mnemonics. -/
theorem test_encode_words : encode .init = 0x00000001 ∧ encode (.append 3) = 0x00000302 ∧ encode .finalize = 0x00000003 ∧
    encode .xofBlock = 0x00000004 ∧ encode (.compress false) = 0x00000005 ∧ encode (.compress true) = 0x00008005 := by
  decide

/-! ### The compression function -/

/-- V1, the rotation check. -/
theorem test_rotr : rotr 0x12345678 16 = 0x56781234 ∧ rotr 0x12345678 12 = 0x67812345 ∧ rotr 0x12345678 8 = 0x78123456 ∧
    rotr 0x12345678 7 = 0xf02468ac := by decide

/-- V1: one G step, and one whose first addition wraps. -/
theorem test_mixG : mixG 1 2 3 4 5 6 = (0x001000ce, 0x879c3839, 0xce0c1c03, 0xce001c00) ∧
    mixG 0xffffffff 1 0 0 0 0 = (0x00100000, 0x00002020, 0x00001000, 0x00001000) := by decide

/-- V3: the message of the bytes 00 to 3f. -/
def v3Message : Block := words ((List.range 64).map (BitVec.ofNat 8))

/-- V3: `words` is little-endian. -/
theorem test_words : v3Message[0] = 0x03020100 ∧ v3Message[15] = 0x3f3e3d3c := by decide

/-- V3: the state after round 1. -/
theorem test_round_one : (round (initState iv 0 64 0xB) v3Message)[0] = 0x841b353a ∧
    (round (initState iv 0 64 0xB) v3Message)[15] = 0xb48be36e := by decide

set_option maxRecDepth 100000 in
/-- V2: the empty-input root compression. -/
theorem test_compress_empty : (compress iv (Vector.replicate 16 0) 0 0 0xB false) =
    { cv := #v[0xb94913af, 0xa6a1f9f5, 0xea4d40a0, 0x49c9dc36, 0xc925cb9b, 0xb712c1ad, 0xca939acc, 0x62321fe4]
      forward := some #v[0xe7030fe0, 0x6bf29ab6, 0x9ff0aa7f, 0x503033cd, 0xe0df8d33, 0x86ccb885, 0x208ba99c, 0x3a24086c] } := by
  decide

set_option maxRecDepth 100000 in
/-- V5: the counter split, t = 0x0000000100000002, truncated. -/
theorem test_compress_counter : (compress iv v3Message 0x0000000100000002 64 0x1 true) =
    { cv := #v[0x552ef93e, 0x6f863155, 0xaacbc7ca, 0xdf9543d7, 0x6545d9db, 0x59a5e543, 0xa5019f02, 0xfc3f770c]
      forward := none } := by
  decide

set_option maxRecDepth 100000 in
/-- V12: the two blocks of `pat(65)` as a root chunk: the first block's value, and the last block's length, flags and first
output word. -/
theorem test_two_block_chunk :
    let r := processBlocks 0 true false true iv 1 ((List.range 65).map (BitVec.ofNat 8))
    r.preCv = #v[0x9d3729ff, 0x57f21cdb, 0xab5a0f7d, 0x4e8f734e, 0xb16cf69f, 0x888ccc5c, 0x2d1d84ac, 0x206f2607] ∧
    r.lastBlen = 1 ∧ r.lastFlags = 0xA ∧ r.out.cv[0] = 0xa05f1ede := by
  decide

set_option maxRecDepth 100000 in
/-- V14: the parent of the two chunk values of `pat(2049)`. -/
theorem test_parent : parentCV
    #v[0x44659e5c, 0xd193e311, 0x10c7bef4, 0x56bcd5cc, 0x7d17ab69, 0xb60e0a61, 0xe9fefc91, 0xb1e8b42f]
    #v[0xb8231f5b, 0xa2680339, 0x919550c1, 0xb7d18903, 0xa652eb16, 0x0a4dd3df, 0xa2226aa6, 0xa71c761b] =
    #v[0x4f7d1f81, 0x8e253517, 0x928bc627, 0x4a7cff14, 0x476d86ac, 0xf1ee3df7, 0xb50889fd, 0x4f808fe3] := by
  decide

/-- V15: popcount of the first chunk counts. -/
theorem test_popcount : (List.range 17).map popcount = [0, 1, 1, 2, 1, 2, 2, 3, 1, 2, 2, 3, 2, 3, 3, 4, 1] := by decide

/-! ### One step of each command -/

/-- The state an outcome goes on from, or the state after reset where it stops: what the tests look at. -/
def after (o : Host.Outcome State Fault Refusal) : State :=
  match o with
  | .next t => t
  | .fault _ => State.reset
  | .refused _ => State.reset

/-- A Finalized state with a given digest length and block index. -/
def finalizedState (len idx : BitVec 64) : State :=
  { State.reset with phase := .finalized, rootCv := iv, rootFlags := 0xB, xofLen := len, xofIdx := idx }

/-- The reset state with "abc" in the IN window (V18). -/
def abcWindow : State := { State.reset with inWin := words [0x61, 0x62, 0x63] }

/-- R190, V21: INIT clears ERR_STICKY and leaves Finalized. -/
theorem test_init_step :
    let t := after (step (State.withFetchWord { finalizedState 32 1 with errSticky := true, errcode := 3 } 32 0x1))
    t.phase = .accepting ∧ statusWord t = 0 ∧ t.errcode = 0 ∧ t.xofLen = 0 ∧ t.outlen = 32 := by decide

/-- V18, P2: APPEND 3 of "abc" puts its bytes in the buffer. -/
theorem test_append_step :
    let t := after (step (abcWindow.withFetchWord 32 0x302))
    t.hasher.mem = [(0x400, 0x61), (0x401, 0x62), (0x402, 0x63)] ∧ t.hasher.bufLen = 3 ∧ t.busy = false := by decide

/-- R262: `append 100` in the Finalized phase reports 3. -/
theorem test_append_priority :
    let t := after (step ((finalizedState 32 1).withFetchWord 32 0x6402))
    t.errcode = 3 ∧ t.errSticky = true ∧ t.hasher = State.reset.hasher := by decide

set_option maxRecDepth 100000 in
/-- R229, P1: FINALIZE of the empty input. -/
theorem test_finalize_step :
    let t := after (step (State.reset.withFetchWord 32 0x3))
    t.out[0] = 0xb94913af ∧ t.rootFlags = 0xB ∧ t.outValid = 32 ∧ t.xofIdx = 1 ∧ t.phase = .finalized := by decide

/-- V21: FINALIZE with OUTLEN = 80000000:00000000 fails with code 6 and stays Accepting. -/
theorem test_finalize_negative :
    let t := after (step (State.withFetchWord { State.reset with outlen := 0x8000000000000000 } 32 0x3))
    t.errcode = 6 ∧ t.phase = .accepting ∧ statusWord t = 0x4 := by decide

/-- R262: FINALIZE in the Finalized phase with OUTLEN = -1 reports 3. -/
theorem test_finalize_priority :
    let t := after (step (State.withFetchWord { finalizedState 32 1 with outlen := -1 } 32 0x3))
    t.errcode = 3 ∧ t.errSticky = true ∧ t.phase = .finalized := by decide

/-- V21: Finalized, XOF_LEN = 65, XOF_IDX = 1: one digest byte, XOF_IDX 2. -/
theorem test_xof_step :
    let t := after (step ((finalizedState 65 1).withFetchWord 32 0x4))
    t.errcode = 0 ∧ t.outValid = 1 ∧ t.xofIdx = 2 := by decide

/-- V21: Finalized, XOF_LEN = 64, XOF_IDX = 1 is out of range; and XOF_BLOCK before FINALIZE fails with code 4. -/
theorem test_xof_refused :
    (after (step ((finalizedState 64 1).withFetchWord 32 0x4))).errcode = 7 ∧
    (after (step (State.reset.withFetchWord 32 0x4))).errcode = 4 := by decide

/-- The operands of P4's last COMPRESS (V5). -/
def compressOperands : State :=
  { State.reset with cmpH := iv, cmpM := v3Message, cmpT := 0x0000000100000002, cmpB := 64, cmpD := 0x1 }

set_option maxRecDepth 100000 in
/-- P4: `compress.t` of V5. -/
theorem test_compress_step :
    let t := after (step (compressOperands.withFetchWord 32 0x8005))
    t.out[0] = 0x552ef93e ∧ t.out[8] = 0 ∧ t.outValid = 32 ∧ t.phase = .accepting := by decide

/-- P5: the word 6 is no command: code 1. -/
theorem test_illegal_step : (after (step (State.reset.withFetchWord 32 0x6))).errcode = 1 := by decide

/-! ### The register window (V22) and the host -/

/-- V22: reads after reset. -/
theorem test_reads_after_reset :
    (busRead 0x020 4 State.reset).map Prod.fst = .ok 0x20 ∧ (busRead 0x024 4 State.reset).map Prod.fst = .ok 0 ∧
    (busRead 0x180 4 State.reset).map Prod.fst = .ok 0x6a09e667 ∧
    (busRead 0x19C 4 State.reset).map Prod.fst = .ok 0x5be0cd19 ∧
    (busRead 0x000 4 State.reset).map Prod.fst = .ok 0 ∧ (busRead 0x050 4 State.reset).map Prod.fst = .ok 0 := by decide

/-- V22: writes to KEY[0] and STATUS are ignored. -/
theorem test_ignored_writes : busWrite 0x180 4 0 State.reset = .ok State.reset ∧
    busWrite 0x004 4 0xffffffff State.reset = .ok State.reset := by decide

/-- R65: a byte read and a misaligned write are bus faults. -/
theorem test_bus_fault : busRead 0x008 1 State.reset = .error (.busFault 0x008 1) ∧
    busWrite 0x082 4 0 State.reset = .error (.busFault 0x082 4) := by decide

/-- R96: a host program's read sets its variable and moves it on. -/
theorem test_host_read :
    let t := after (step { State.reset with host := { State.reset.host with prog := [.rd 5 0x020 4] } })
    t.host.vars[5] = 32 ∧ t.host.pos = 1 := by decide

/-- R97: the assembler refuses `append 128`; `append 65` assembles. -/
theorem test_assemble_append : assemble [.append 128] = none ∧
    assemble [.append 65] = some [.wr 0 4 0x4102, .label 0, .rd 31 0x004 4, .bnz 31 2 0] := by decide

/-- R99: a poll's label is fresh, so a branch of the source to a label it never defines does not reach it. -/
theorem test_fresh_label : assemble [.poll, .stmt (.b 0)] = some [.label 1, .rd 31 0x004 4, .bnz 31 2 1, .b 0] ∧
    labelIndex 0 [.label 1, .rd 31 0x004 4, .bnz 31 2 1, .b 0] 0 = none := by decide

/-- R100: the loop bound of `hash` is L whatever x0 holds: the two statements that set it, run from x0 = 5, give x19 = 32. -/
theorem test_hash_bound : ((hashStmts 0 [] 32).drop 10).take 2 = [.keepStart, .addi 19 18 32] ∧
    (let s := setVar 0 5 State.reset
     (after (execHost (.addi 19 18 32) (after (execHost .keepStart s)))).host.vars[19] = 32) := by decide

/-! ### States that keep the invariant -/

/-- A hasher that keeps its own invariant, in an Accepting state that is otherwise as after reset. -/
def acceptingWith (h : HasherState) (len : BitVec 64) : State := { State.reset with hasher := h, outlen := len }

theorem acceptingWith_inv {h : HasherState} (len : BitVec 64) (hi : HasherInv h)
    (hp : h.cvSp.toNat = popcount h.chunkCtr.toNat) (hb : h.chunkCtr ≠ 0 → 1 ≤ h.bufLen.toNat) :
    Inv (acceptingWith h len) where
  hasher := hi
  spPopcount _ := hp
  bufNonempty _ := hb
  finalStack h := by simp [acceptingWith, State.reset] at h
  finalRoot h := by simp [acceptingWith, State.reset] at h
  errcodeLe := by simp [acceptingWith, State.reset]
  outValidLe := by simp [acceptingWith, State.reset]
  rootBlenLe := by simp [acceptingWith, State.reset]
  rootFlagsLe := by simp [acceptingWith, State.reset]
  xofLenLt := by simp [acceptingWith, State.reset]

/-- The empty hasher with one chunk value pushed, or none. -/
def emptyHasher (entries : Nat) (ctr : BitVec 64) : HasherState :=
  { mem := if entries = 0 then [] else memWriteList [] (stackAddr 0) (lebytes iv.toList)
    bufLen := 0
    chunkCtr := ctr
    cvSp := BitVec.ofNat 7 entries }

theorem emptyHasher_inv (ctr : BitVec 64) : HasherInv (emptyHasher 0 ctr) where
  memWf := List.Pairwise.nil
  memInRange := fun c hc => by simp [emptyHasher] at hc
  bufLe := by simp [emptyHasher]
  spLe := by simp [emptyHasher]
  bufStored a h1 h2 := by simp [emptyHasher, bufAddr] at h1 h2; omega
  stackStored a h1 h2 := by simp [emptyHasher, stackAddr] at h1 h2; omega

theorem pushedHasher_inv : HasherInv (emptyHasher 1 1) :=
  HasherInv.push (emptyHasher_inv 1) (by decide) iv

/-- An Accepting state with `n` zero bytes pending and no chunk flushed. -/
def pendingState (n : Nat) (len : BitVec 64) : State := acceptingWith (fill (emptyHasher 0 0) (List.replicate n 0)) len

theorem pendingState_bufLen {n : Nat} (hn : n ≤ 1024) (len : BitVec 64) : (pendingState n len).hasher.bufLen.toNat = n := by
  have := fill_bufLen (h := emptyHasher 0 0) (xs := List.replicate n 0) (by simpa [emptyHasher] using hn)
  simpa [pendingState, acceptingWith, emptyHasher] using this

theorem pendingState_inv {n : Nat} (hn : n ≤ 1024) (len : BitVec 64) : Inv (pendingState n len) :=
  acceptingWith_inv len ((emptyHasher_inv 0).fill (by simpa [emptyHasher] using hn))
    (by rw [fill_cvSp, fill_chunkCtr]; decide) (by rw [fill_chunkCtr]; intro h; exact absurd rfl h)

theorem pendingState_chunkCtr (n : Nat) (len : BitVec 64) : (pendingState n len).hasher.chunkCtr = 0 := fill_chunkCtr ..

theorem pendingState_cvSp (n : Nat) (len : BitVec 64) : (pendingState n len).hasher.cvSp = 0 := fill_cvSp ..

/-- An Accepting state with one chunk flushed and one zero byte pending. -/
def treeState (len : BitVec 64) : State := acceptingWith (fill (emptyHasher 1 1) [0]) len

theorem treeState_inv (len : BitVec 64) : Inv (treeState len) :=
  acceptingWith_inv len (pushedHasher_inv.fill (by decide)) (by rw [fill_cvSp, fill_chunkCtr]; decide)
    (fun _ => by rw [fill_bufLen (by decide)]; decide)

/-- A command in flight, two host steps before its completion, the host's program ended. -/
def flyingState (w : Word) : State := { pendingState 3 32 with busy := true, cmdLatch := w, coreDelay := 2 }

theorem flyingState_inv (w : Word) : Inv (flyingState w) :=
  let hi := pendingState_inv (n := 3) (by decide) 32
  hi.congr rfl rfl rfl hi.errcodeLe hi.outValidLe rfl rfl

/-! ### Witnesses: every statement's hypotheses are met -/

theorem witness_ResetWhileBusyAbandonsCommand :
    let s : State := { State.reset with busy := true, coreDelay := 1, host := { State.reset.host with prog := [.reset] } }
    (s.busy = true ∧ s.coreDelay ≠ 0 ∧ s.host.prog[s.host.pos]? = some .reset) ∧ State.reset.busy = false := by decide

/-- The third clause: an idle block whose host writes CMD. -/
theorem witness_ResetWhileBusyAbandonsCommand_issue :
    let s : State := { State.reset with host := { State.reset.host with prog := [.wr 0x000 4 0x1] } }
    s.busy = false ∧ ∃ t, step s = .next t ∧ t.busy = true := ⟨rfl, _, rfl, rfl⟩

theorem witness_AppendChecksPhaseLengthCounter :
    (finalizedState 32 1).phase = .finalized ∧ (State.reset.phase = .accepting ∧ 64 < 65) ∧
    (let s := acceptingWith { emptyHasher 0 (BitVec.allOnes 64) with bufLen := 1024 } 32
     s.phase = .accepting ∧ 1 ≤ 64 ∧ 1024 < s.hasher.bufLen.toNat + 1 ∧ s.hasher.chunkCtr = BitVec.allOnes 64) := by
  decide

theorem witness_AppendStoresBytesThatFit :
    (pendingState 960 32).phase = .accepting ∧ 64 ≤ 64 ∧ (pendingState 960 32).hasher.bufLen.toNat + 64 ≤ 1024 := by
  refine ⟨rfl, by decide, ?_⟩
  rw [pendingState_bufLen (by decide)]

theorem witness_AppendStoresBytesThatFit_none :
    State.reset.phase = .accepting ∧ 0 ≤ 64 ∧ State.reset.hasher.bufLen.toNat + 0 ≤ 1024 := by decide

theorem witness_AppendFlushesFullChunk :
    Inv (pendingState 1024 32) ∧ (pendingState 1024 32).phase = .accepting ∧ 1 ≤ 64 ∧
    1024 < (pendingState 1024 32).hasher.bufLen.toNat + 1 ∧
    (pendingState 1024 32).hasher.chunkCtr ≠ BitVec.allOnes 64 := by
  refine ⟨pendingState_inv (by decide) 32, rfl, by decide, ?_, by rw [pendingState_chunkCtr]; decide⟩
  rw [pendingState_bufLen (by decide)]; decide

theorem witness_FlushPushesChunkValue :
    Inv (pendingState 1024 32) ∧ (pendingState 1024 32).phase = .accepting ∧ 64 ≤ 64 ∧
    1024 < (pendingState 1024 32).hasher.bufLen.toNat + 64 ∧
    (pendingState 1024 32).hasher.chunkCtr ≠ BitVec.allOnes 64 ∧ (pendingState 1024 32).hasher.chunkCtr.toNat % 2 = 0 := by
  refine ⟨pendingState_inv (by decide) 32, rfl, by decide, ?_, ?_, ?_⟩
  · rw [pendingState_bufLen (by decide)]; decide
  · rw [pendingState_chunkCtr]; decide
  · rw [pendingState_chunkCtr]; decide

/-- FlushPushesChunkValue at an odd counter: one chunk flushed and a full buffer, so that the flush merges. -/
theorem witness_FlushPushesChunkValue_merging :
    let s := acceptingWith (fill (emptyHasher 1 1) (List.replicate 1024 0)) 32
    Inv s ∧ s.phase = .accepting ∧ 1024 < s.hasher.bufLen.toNat + 1 ∧ s.hasher.chunkCtr ≠ BitVec.allOnes 64 ∧
    s.hasher.chunkCtr.toNat % 2 = 1 := by
  have hc : (fill (emptyHasher 1 1) (List.replicate 1024 0)).chunkCtr = 1 := fill_chunkCtr ..
  have hl : (emptyHasher 1 1).bufLen.toNat + (List.replicate 1024 (0 : Byte)).length = 1024 := by
    rw [List.length_replicate]; decide
  have hb : (fill (emptyHasher 1 1) (List.replicate 1024 0)).bufLen.toNat = 1024 := by rw [fill_bufLen hl.le, hl]
  refine ⟨acceptingWith_inv 32 (pushedHasher_inv.fill hl.le) (by rw [fill_cvSp, hc]; decide) (fun _ => by rw [hb]; decide),
    rfl, ?_, ?_, ?_⟩
  · show 1024 < (fill _ _).bufLen.toNat + 1
    rw [hb]; decide
  · show (fill _ _).chunkCtr ≠ _
    rw [hc]; decide
  · show (fill _ _).chunkCtr.toNat % 2 = 1
    rw [hc]; decide

/-- ChunkValueThreadsBlocks: the ends of its range. -/
theorem witness_ChunkValueThreadsBlocks : 1 ≤ [(0 : Byte)].length ∧ (List.replicate 1024 (0 : Byte)).length ≤ 1024 :=
  ⟨by decide, by rw [List.length_replicate]⟩

/-- AppendFrame: an error, a fit and a flush each answer a next state. -/
theorem witness_AppendFrame :
    (∃ t, exec (.append 65) State.reset = .next t ∧ t.errcode ≠ 0) ∧
    (∃ t, exec (.append 64) State.reset = .next t ∧ t.errcode = 0 ∧ State.reset.hasher.bufLen.toNat + 64 ≤ 1024) ∧
    (∃ t, exec (.append 1) (pendingState 1024 32) = .next t ∧ t.errcode = 0 ∧
      1024 < (pendingState 1024 32).hasher.bufLen.toNat + 1) := by
  refine ⟨⟨_, rfl, by decide⟩, ⟨_, rfl, by decide, by decide⟩, ?_⟩
  have hi := pendingState_inv (n := 1024) (by decide) 32
  have hb := pendingState_bufLen (n := 1024) (by decide) 32
  obtain ⟨g, hg, _⟩ := appendBytes_ok hi.hasher (xs := appendOperand 1 (pendingState 1024 32))
    (by rw [appendOperand_length (by decide)]; decide) (hi.spPopcount rfl)
    (.inr (by rw [pendingState_chunkCtr]; decide))
  refine ⟨succeed { pendingState 1024 32 with hasher := g }, ?_, rfl, by rw [hb]; decide⟩
  rcases execAppend_cases 1 (pendingState 1024 32) with ⟨h, _⟩ | ⟨_, h, _⟩ | ⟨_, _, _, h, _⟩ | ⟨_, _, _, h⟩
  · cases h
  · omega
  · rw [pendingState_chunkCtr] at h; exact absurd h (by decide)
  · rw [exec, h, hg]; rfl

theorem witness_MergeOfFirstFourChunks : (emptyHasher 0 0).cvSp = 0 := by decide

theorem witness_StackHoldsMaximalSubtrees : (emptyHasher 0 0).cvSp = 0 ∧ 3 < 2 ^ 64 := by decide

theorem witness_FeedEquivalence :
    State.reset.errcode = 0 ∧ State.reset.busy = false ∧ (∀ x ∈ ([[0x61], [0x62]] : List (List Byte)), x.length ≤ 64) ∧
    (∀ y ∈ ([[0x61, 0x62]] : List (List Byte)), y.length ≤ 64) ∧
    ([[0x61], [0x62]] : List (List Byte)).flatten = [[0x61, 0x62]].flatten ∧
    (∃ t, feed [[0x61], [0x62]] State.reset = some t) ∧ ∃ u, feed [[0x61, 0x62]] State.reset = some u :=
  ⟨rfl, rfl, by decide, by decide, rfl, ⟨_, rfl⟩, ⟨_, rfl⟩⟩

theorem witness_NegativeLengthIsTheOnlyFinalizeError :
    (Inv (pendingState 3 0x8000000000000000) ∧ (pendingState 3 0x8000000000000000).phase = .accepting ∧
      (pendingState 3 0x8000000000000000).outlen.getLsbD 63 = true) ∧
    (Inv (pendingState 3 0x7fffffffffffffff) ∧ (pendingState 3 0x7fffffffffffffff).outlen.getLsbD 63 = false) ∧
    (Inv (pendingState 3 0) ∧ (pendingState 3 0).outlen = 0) :=
  ⟨⟨pendingState_inv (by decide) _, rfl, by decide⟩, ⟨pendingState_inv (by decide) _, by decide⟩,
    pendingState_inv (by decide) _, rfl⟩

theorem witness_FinalizeCompletes :
    Inv (pendingState 3 64) ∧ (pendingState 3 64).phase = .accepting ∧ 0 ≤ (pendingState 3 64).outlen.toInt :=
  ⟨pendingState_inv (by decide) _, rfl, by decide⟩

/-- FinalizeCompletes' first clause, with R262's own example: the Finalized phase and OUTLEN = -1. -/
theorem witness_FinalizeCompletes_finalized :
    ({ finalizedState 32 1 with outlen := -1 } : State).phase = .finalized ∧
    ({ finalizedState 32 1 with outlen := -1 } : State).outlen.toInt < 0 := by decide

/-- RootFlagsByCase: each of its four cases, at the ends of its ranges. -/
theorem witness_RootFlagsByCase :
    (Inv (pendingState 0 64) ∧ (pendingState 0 64).hasher.cvSp = 0 ∧ (pendingState 0 64).hasher.bufLen = 0 ∧
      0 ≤ (pendingState 0 64).outlen.toInt) ∧
    (Inv (pendingState 64 64) ∧ (pendingState 64 64).hasher.cvSp = 0 ∧ (pendingState 64 64).hasher.bufLen.toNat = 64) ∧
    (Inv (pendingState 65 64) ∧ (pendingState 65 64).hasher.cvSp = 0 ∧ (pendingState 65 64).hasher.bufLen.toNat = 65) ∧
    (Inv (treeState 64) ∧ (treeState 64).hasher.cvSp ≠ 0 ∧ (treeState 64).phase = .accepting) :=
  ⟨⟨pendingState_inv (by decide) _, by decide, by decide, by decide⟩,
    ⟨pendingState_inv (by decide) _, pendingState_cvSp _ _, pendingState_bufLen (by decide) _⟩,
    ⟨pendingState_inv (by decide) _, pendingState_cvSp _ _, pendingState_bufLen (by decide) _⟩,
    treeState_inv _, by decide, rfl⟩

theorem witness_FinalizeOfEmptyInput :
    State.reset.phase = .accepting ∧ 0 ≤ State.reset.outlen.toInt ∧ State.reset.hasher.bufLen = 0 ∧
    State.reset.hasher.cvSp = 0 := by decide

/-- FinalizeOfOneChunk: one byte, and a full buffer. -/
theorem witness_FinalizeOfOneChunk :
    (let s := pendingState 1 32
     s.phase = .accepting ∧ 0 ≤ s.outlen.toInt ∧ s.hasher.cvSp = 0 ∧ s.hasher.bufLen.toNat = 1) ∧
    (let s := pendingState 1024 32
     s.phase = .accepting ∧ 0 ≤ s.outlen.toInt ∧ s.hasher.cvSp = 0 ∧ s.hasher.bufLen.toNat = 1024) :=
  ⟨⟨rfl, by decide, pendingState_cvSp _ _, pendingState_bufLen (by decide) _⟩,
    ⟨rfl, by decide, pendingState_cvSp _ _, pendingState_bufLen (by decide) _⟩⟩

theorem witness_FinalizeOfTree :
    let s := treeState 32
    s.phase = .accepting ∧ 0 ≤ s.outlen.toInt ∧ 1 ≤ s.hasher.cvSp.toNat ∧ s.hasher.cvSp.toNat ≤ 64 ∧
    1 ≤ s.hasher.bufLen.toNat ∧ s.hasher.bufLen.toNat ≤ 1024 := by decide

theorem witness_FinalizeFrame :
    (∃ t, exec .finalize State.reset = .next t ∧ t.errcode = 0) ∧
    (∃ t, exec .finalize (finalizedState 32 1) = .next t ∧ t.errcode ≠ 0) :=
  ⟨⟨_, rfl, rfl⟩, ⟨_, rfl, by decide⟩⟩

theorem witness_XofBlockCompletesOrRefuses :
    State.reset.phase = .accepting ∧
    ((finalizedState 64 1).phase = .finalized ∧ ((finalizedState 64 1).xofLen.toNat + 63) / 64 ≤ (finalizedState 64 1).xofIdx.toNat) ∧
    ((finalizedState 65 1).phase = .finalized ∧
      (finalizedState 65 1).xofIdx.toNat < ((finalizedState 65 1).xofLen.toNat + 63) / 64) := by decide

theorem witness_XofBlockFrame :
    (∃ t, exec .xofBlock (finalizedState 65 1) = .next t ∧ t.errcode = 0) ∧
    (∃ t, exec .xofBlock State.reset = .next t ∧ t.errcode ≠ 0) := ⟨⟨_, rfl, rfl⟩, ⟨_, rfl, by decide⟩⟩

/-- XofIndexZeroReloadsBlockZero and HostAssemblesDigest: a FINALIZE that answers, with length 64 and with length 0. -/
theorem witness_XofIndexZeroReloadsBlockZero :
    (Inv (pendingState 0 64) ∧ (pendingState 0 64).phase = .accepting ∧ 0 ≤ (pendingState 0 64).outlen.toInt ∧
      (∃ t, exec .finalize (pendingState 0 64) = .next t) ∧ (pendingState 0 64).outlen ≠ 0 ∧
      (pendingState 0 64).outlen.toNat ≤ 64) ∧
    (Inv (pendingState 0 0) ∧ (∃ t, exec .finalize (pendingState 0 0) = .next t) ∧ (pendingState 0 0).outlen = 0) :=
  ⟨⟨pendingState_inv (by decide) _, rfl, by decide, ⟨_, rfl⟩, by decide, by decide⟩,
    pendingState_inv (by decide) _, ⟨_, rfl⟩, rfl⟩

theorem witness_HostAssemblesDigest :
    Inv (pendingState 0 131) ∧ (pendingState 0 131).phase = .accepting ∧ 0 ≤ (pendingState 0 131).outlen.toInt ∧
    ∃ t, exec .finalize (pendingState 0 131) = .next t :=
  ⟨pendingState_inv (by decide) _, rfl, by decide, ⟨_, rfl⟩⟩

theorem witness_DigestPrefixConsistency : 16 ≤ 32 := by decide

theorem witness_CompressLeavesXofUnchanged :
    (∃ u, exec (.compress true) (finalizedState 100 1) = .next u) ∧ (finalizedState 100 1).phase = .finalized ∧
    (finalizedState 100 1).xofIdx.toNat < blockCount (finalizedState 100 1).xofLen.toNat ∧
    ∃ v, exec .xofBlock (finalizedState 100 1) = .next v := ⟨⟨_, rfl⟩, rfl, by decide, ⟨_, rfl⟩⟩

theorem witness_DecodeOfEncode : (Instr.append 127).wellFormed = true := by decide

theorem witness_EncodeOfDecode : decode 0x00007F02 = .ok (.append 127) := by decide

theorem witness_DecodeFollowsOpcodeMap :
    decode 0x00000005 = .ok (.compress false) ∧ decode 0x00008005 = .ok (.compress true) ∧
    decode 0x00004002 = .ok (.append 64) ∧
    ∃ r ∈ opcodeMap, r.selects 0x00000005 = true := ⟨by decide, by decide, by decide, ⟨"COMPRESS", 0x00000005, 0xFFFF7FFF⟩, by decide, by decide⟩

theorem witness_IllegalOpcodeExactly :
    ({ State.reset with cmdLatch := 0x6 } : State).cmdLatch = 0x6 ∧ decode 0x6 = .error .illegalOpcode := by decide

theorem witness_ReservedBitsExactly :
    ({ State.reset with cmdLatch := 0x103 } : State).cmdLatch = 0x103 ∧ decode 0x103 = .error .reservedBits := by decide

theorem witness_StepRunsDecodedCommand :
    let s := State.reset.withFetchWord 32 0x3
    s.busy = true ∧ s.coreDelay = 0 ∧ decode s.cmdLatch = .ok .finalize := by decide

theorem witness_CommandErrorsArePrecise :
    ∃ t, coreStep (State.reset.withFetchWord 32 0x4) = .next t ∧ t.errcode ≠ 0 := ⟨_, rfl, by decide⟩

theorem witness_ResultCodesByCommand :
    (∃ t, exec .init State.reset = .next t) ∧ (∃ t, exec (.append 64) State.reset = .next t) ∧
    (∃ t, exec .finalize State.reset = .next t) ∧ (∃ t, exec .xofBlock State.reset = .next t) ∧
    (∃ t, exec (.compress true) State.reset = .next t) ∧
    decode (State.reset.withFetchWord 32 0x6).cmdLatch = .error .illegalOpcode ∧
    (∃ t, coreStep (State.reset.withFetchWord 32 0x6) = .next t) :=
  ⟨⟨_, rfl⟩, ⟨_, rfl⟩, ⟨_, rfl⟩, ⟨_, rfl⟩, ⟨_, rfl⟩, by decide, ⟨_, rfl⟩⟩

theorem witness_CommandsKeepOperands : ∃ t, exec (.append 3) abcWindow = .next t := ⟨_, rfl⟩

/-- PhaseChangesOnlyByFinalizeInitReset: a step from each phase to the other. -/
theorem witness_PhaseChangesOnlyByFinalizeInitReset :
    (∃ t, step (State.reset.withFetchWord 32 0x3) = .next t ∧ t.phase = .finalized) ∧
    (∃ t, step ((finalizedState 32 1).withFetchWord 32 0x1) = .next t ∧ t.phase = .accepting) ∧
    (∃ t, step { finalizedState 32 1 with host := { State.reset.host with prog := [.reset] } } = .next t ∧
      t.phase = .accepting) := ⟨⟨_, rfl, rfl⟩, ⟨_, rfl, rfl⟩, ⟨_, rfl, rfl⟩⟩

/-- ErrStickyChangesOnlyByErrorInitReset: a step that clears the bit and one that sets it. -/
theorem witness_ErrStickyChangesOnlyByErrorInitReset :
    (∃ t, step (State.withFetchWord { State.reset with errSticky := true } 32 0x1) = .next t ∧ t.errSticky = false) ∧
    (∃ t, step (State.reset.withFetchWord 32 0x4) = .next t ∧ t.errSticky = true ∧ t.errcode ≠ 0 ∧
      coreTurn (State.reset.withFetchWord 32 0x4) = true) := ⟨⟨_, rfl, rfl⟩, ⟨_, rfl, rfl, by decide, by decide⟩⟩

/-- The register-window statements: an idle state and an offset at the ends of each range. -/
theorem witness_idle_offsets : State.reset.busy = false ∧ 0x04C % 4 = 0 ∧ (0x140 % 4 = 0 ∧ 0x140 < 0x200) ∧
    (0x1FC % 4 = 0 ∧ 0x1FC < 0x200) ∧ (0xFFC % 4 = 0 ∧ 0xFFC < 0x1000) ∧ (0x07C % 4 = 0 ∧ 0x07C < 0x080) ∧
    (0x0FC % 4 = 0 ∧ 0x0FC < 0x100) ∧ (0x3FC % 4 = 0 ∧ 0x3FC < 0x400) ∧ (0x024 % 4 = 0 ∧ 0x024 < 0x028) ∧
    (0x044 % 4 = 0 ∧ 0x044 < 0x048) ∧ (0x0DC % 4 = 0 ∧ 0x0DC < 0x0E0) ∧ (0x13C % 4 = 0 ∧ 0x13C < 0x140) := by decide

theorem witness_CmdWriteIssuesCommand : State.reset.busy = false := rfl

theorem witness_ReadOnlyWritesIgnored : State.reset.busy = false ∧ 0xFFC % 4 = 0 ∧ 0x400 ≤ 0xFFC ∧ 0xFFC < 0x1000 := by decide

theorem witness_ReservedOffsetsReadZero : State.reset.busy = false ∧ 0x3FC % 4 = 0 ∧ 0x200 ≤ 0x3FC ∧ 0x3FC < 0x400 := by
  decide

theorem witness_OperandWriteReadsBack :
    State.reset.busy = false ∧ 0x0DC % 4 = 0 ∧ 0x080 ≤ 0x0DC ∧ 0x0DC < 0x0E0 ∧
    (0x080 % 4 = 0 ∧ 0x080 < 0x1000 ∧ 0x080 ≠ 0x0DC) := by decide

theorem witness_ReadsChangeNothing : State.reset.busy = false ∧ 0xFFC % 4 = 0 ∧ 0xFFC < 0x1000 ∧ 0x3FC < 0x400 := by decide

theorem witness_MisalignedOrNarrowAccessFaults : (2 ≠ 4 ∨ 0x004 % 4 ≠ 0) ∧ (4 ≠ 4 ∨ 0x006 % 4 ≠ 0) := by decide

theorem witness_BusyAllowsOnlyStatusReads :
    (flyingState 0x1).busy = true ∧ 0x008 % 4 = 0 ∧ 0x008 < 0x1000 ∧ 0x008 ≠ 0x004 := by decide

theorem witness_KeyIsHardwired : State.reset.busy = false ∧ 7 < 8 := by decide

/-- HostStatementEffects: accesses that answer, in a program with no label; and a program that defines a label. -/
theorem witness_HostStatementEffects :
    (∃ t, busWrite 0x080 4 7 State.reset = .ok t) ∧ (∃ v t, busRead 0x020 4 State.reset = .ok (v, t)) ∧
    (let s : State := { State.reset with host := { State.reset.host with prog := [.addi 1 0 1, .label 5] } }
     labelIndex 5 s.host.prog 0 = some 1 ∧ 0 ≤ s.host.vars[(0 : Fin 32)]) := ⟨⟨_, rfl⟩, ⟨_, _, rfl⟩, by decide⟩

/-- DebugViewsShowLiveContents: a live and a stale byte, a live and a stale entry. -/
theorem witness_DebugViewsShowLiveContents :
    (treeState 32).busy = false ∧ (0 < (treeState 32).hasher.bufLen.toNat ∧ ¬ 1 < (treeState 32).hasher.bufLen.toNat) ∧
    (0 < (treeState 32).hasher.cvSp.toNat ∧ ¬ 63 < (treeState 32).hasher.cvSp.toNat) := by decide

theorem witness_Wr64WritesWholeRegister : State.reset.busy = false := rfl

theorem witness_StepKeepsInv :
    Inv (pendingState 3 32) ∧ ∃ t, step (pendingState 3 32) = .next t := ⟨pendingState_inv (by decide) _, ⟨_, rfl⟩⟩

theorem witness_AcceptingStateInvariants :
    Inv (treeState 32) ∧ (treeState 32).phase = .accepting ∧ 0 < (treeState 32).hasher.chunkCtr.toNat :=
  ⟨treeState_inv _, rfl, by decide⟩

theorem witness_NoCommandMeetsUnreachableState :
    Inv (treeState 32) ∧ (emptyHasher 0 0).bufLen = 0 ∧ (emptyHasher 0 0).cvSp = 0 ∧ ([] : List Byte).length = 0 ∧
    1024 < (List.replicate 1025 (0 : Byte)).length ∧ 64 ≤ (emptyHasher 64 0).cvSp.toNat :=
  ⟨treeState_inv _, by decide, by decide, rfl, by rw [List.length_replicate]; decide, by decide⟩

/-- StaleBytesNeverMatter: two states that differ in a stale BUF byte, and a command that answers. -/
theorem witness_StaleBytesNeverMatter :
    sameButStale State.reset (acceptingWith { emptyHasher 0 0 with mem := [(0x400, 1)] } 32) ∧
    ∃ t, exec (.append 3) State.reset = .next t := by
  refine ⟨⟨rfl, rfl, rfl, rfl, fun a ha => ?_⟩, ⟨_, rfl⟩⟩
  simp [liveAddr, State.reset, bufAddr, stackAddr] at ha
  omega

theorem witness_CommandCompletesUnderIdleHost :
    Inv (flyingState 0x1) ∧ (flyingState 0x1).busy = true ∧
    (flyingState 0x1).host.prog[(flyingState 0x1).host.pos]? = none := ⟨flyingState_inv _, rfl, rfl⟩

/-- PollReturnsAfterCompletion: a command, and a word that does not decode. -/
theorem witness_PollReturnsAfterCompletion :
    let s : Word → State := fun w => { flyingState w with host := { State.reset.host with prog := pollStmts 0 } }
    (s 0x1).busy = true ∧ (∃ u, coreStep (s 0x1) = .next u) ∧
    decode (s 0x6).cmdLatch = .error .illegalOpcode ∧ (∃ u, coreStep (s 0x6) = .next u) ∧
    (s 0x6).host.prog = [] ++ pollStmts 0 ++ [] ∧ (s 0x6).host.pos = ([] : List HostStmt).length ∧
    labelIndex 0 (s 0x6).host.prog 0 = some ([] : List HostStmt).length :=
  ⟨rfl, ⟨_, rfl⟩, by decide, ⟨_, rfl⟩, rfl, rfl, by decide⟩

end Sys2Proof.Tests
end

namespace Sys2Proof.Machine

/-! ### Commands in one form: a check that raises an error, or else work that ends in success -/

/-- The error a command raises before its first write, if any, in the order of its checks (R192, R220, R230). -/
def commandCheck : Instr → State → Option CmdError
  | .init, _ => none
  | .append n, s =>
    if s.phase = .finalized then some .finalized
    else if 64 < n then some .appendLength
    else if 1024 < s.hasher.bufLen.toNat + n ∧ s.hasher.chunkCtr = BitVec.allOnes 64 then some .counterOverflow
    else none
  | .finalize, s =>
    if s.phase = .finalized then some .finalized
    else if requestedLength s < 0 then some .invalidOutputLength
    else none
  | .xofBlock, s =>
    if s.phase = .accepting then some .notFinalized
    else if blockCount s.xofLen.toNat ≤ s.xofIdx.toNat then some .xofRange
    else none
  | .compress _, _ => none

/-- INIT's writes (R190). -/
def emptied (s : State) : State :=
  { s with
    phase := .accepting
    hasher := { s.hasher with bufLen := 0, chunkCtr := 0, cvSp := 0 }
    rootCv := Vector.replicate 8 0
    rootMsg := Vector.replicate 16 0
    rootBlen := 0
    rootFlags := 0
    xofLen := 0
    xofIdx := 0
    outValid := 0
    errSticky := false }

/-- XOF_BLOCK's writes (R230). -/
def withNextBlock (s : State) : State :=
  { s with
    out := outBlock s.xofIdx s
    outValid := BitVec.ofNat 7 (min 64 (s.xofLen.toNat - 64 * s.xofIdx.toNat))
    xofIdx := s.xofIdx + 1 }

/-- COMPRESS's writes (R131). -/
def withCompression (t : Bool) (s : State) : State :=
  { s with
    out := outWords (compress s.cmpH s.cmpM s.cmpT s.cmpB s.cmpD t)
    outValid := if t then 32 else 64 }

/-- What a command that passes its checks writes, before it ends in success. -/
def commandWork : Instr → State → Except Fault State
  | .init, s => .ok (emptied s)
  | .append n, s => (appendBytes (appendOperand n s) s.hasher).map fun h => { s with hasher := h }
  | .finalize, s => (selectRoot s.hasher).map fun r => storeRoot (requestedLength s).toNat r s
  | .xofBlock, s => .ok (withNextBlock s)
  | .compress t, s => .ok (withCompression t s)

/-- Every command is its check, then its work (R268: every check precedes the first write). -/
theorem exec_eq (i : Instr) (s : State) :
    exec i s = match commandCheck i s with
      | some e => .next (raiseError e s)
      | none => finish (commandWork i s) := by
  cases i with
  | init => rfl
  | append n =>
    rcases execAppend_cases n s with ⟨hp, h⟩ | ⟨hp, hn, h⟩ | ⟨hp, hn, hb, hc, h⟩ | ⟨hp, hn, hroom, h⟩
    · rw [exec, h, commandCheck, if_pos hp]
    · rw [exec, h, commandCheck, if_neg (by simp [hp]), if_pos hn]
    · rw [exec, h, commandCheck, if_neg (by simp [hp]), if_neg (by omega), if_pos ⟨hb, hc⟩]
    · rw [exec, h, commandCheck, if_neg (by simp [hp]), if_neg (by omega),
        if_neg fun hover => hroom.elim (not_le.2 hover.1) (· hover.2)]
      rfl
  | finalize =>
    rcases execFinalize_cases s with ⟨hp, h⟩ | ⟨hp, hl, h⟩ | ⟨hp, hl, h⟩
    · rw [exec, h, commandCheck, if_pos hp]
    · rw [exec, h, commandCheck, if_neg (by simp [hp]), if_pos hl]
    · rw [exec, h, commandCheck, if_neg (by simp [hp]), if_neg (not_lt.2 hl)]
      rfl
  | xofBlock =>
    rcases execXofBlock_cases s with ⟨hp, h⟩ | ⟨hp, hk, h⟩ | ⟨hp, hk, h⟩
    · rw [exec, h, commandCheck, if_pos hp]
    · rw [exec, h, commandCheck, if_neg (by simp [hp]), if_pos hk]
    · rw [exec, h, commandCheck, if_neg (by simp [hp]), if_neg (not_le.2 hk)]
      rfl
  | compress t => rfl

/-- What a command that answers has done: raised the error of its check, or passed it, worked and succeeded. -/
theorem exec_next {i : Instr} {s t : State} (h : exec i s = .next t) :
    (∃ e, commandCheck i s = some e ∧ t = raiseError e s) ∨
    (commandCheck i s = none ∧ ∃ u, commandWork i s = .ok u ∧ t = succeed u) := by
  rw [exec_eq] at h
  cases hc : commandCheck i s with
  | some e =>
    simp only [hc] at h
    injection h with h
    exact .inl ⟨e, rfl, h.symm⟩
  | none =>
    simp only [hc] at h
    cases hw : commandWork i s with
    | error f => rw [hw] at h; cases h
    | ok u =>
      rw [hw] at h
      injection h with h
      exact .inr ⟨rfl, u, rfl, h.symm⟩

theorem map_eq_ok {ε α β : Type} {x : Except ε α} {f : α → β} {b : β} :
    x.map f = .ok b ↔ ∃ a, x = .ok a ∧ b = f a := by
  cases x <;> simp [Except.map, eq_comm]

/-- An APPEND that passes its checks is Accepting, takes at most 64 bytes, and has room in the buffer or in the counter
(R192). -/
theorem commandCheck_append {n : Nat} {s : State} (h : commandCheck (.append n) s = none) :
    s.phase = .accepting ∧ n ≤ 64 ∧
      (s.hasher.bufLen.toNat + n ≤ 1024 ∨ s.hasher.chunkCtr ≠ BitVec.allOnes 64) := by
  simp only [commandCheck] at h
  split_ifs at h with hp hn hc
  exact ⟨(phase_cases s.phase).resolve_right hp, by omega, by
    rw [← not_lt, ← not_and_or]; exact hc⟩

/-- A FINALIZE that passes its checks is Accepting (R220). -/
theorem commandCheck_finalize {s : State} (h : commandCheck .finalize s = none) : s.phase = .accepting := by
  simp only [commandCheck] at h
  split_ifs at h with hp
  exact (phase_cases s.phase).resolve_right hp

/-! ### What a step of the machine can do -/

/-- The block's registers that only a command or reset writes (R66). -/
structure SameResults (s t : State) : Prop where
  phase : t.phase = s.phase
  errSticky : t.errSticky = s.errSticky
  errcode : t.errcode = s.errcode
  hasher : t.hasher = s.hasher
  outValid : t.outValid = s.outValid
  xofLen : t.xofLen = s.xofLen
  rootBlen : t.rootBlen = s.rootBlen
  rootFlags : t.rootFlags = s.rootFlags

/-- A host step leaves the results of the block's commands, or it is the platform's reset (R66, R68, R290). -/
theorem hostStep_next {s t : State} (h : hostStep s = .next t) :
    SameResults s t ∨ (s.host.prog[s.host.pos]? = some .reset ∧
      ∃ a : HostAgent, t = { State.reset with host := a, draws := s.draws }) := by
  simp only [hostStep] at h
  cases hst : s.host.prog[s.host.pos]? with
  | none =>
    simp only [hst] at h
    injection h with h; subst h
    exact .inl ⟨by simp, by simp, by simp, by simp, by simp, by simp, by simp, by simp⟩
  | some st =>
    simp only [hst] at h
    rcases execHost_cases h with ⟨a, n, rfl⟩ | ⟨v, l, a, rfl, _⟩ | ⟨a, rfl, rfl⟩
    · exact .inl ⟨by simp, by simp, by simp, by simp, by simp, by simp, by simp, by simp⟩
    · obtain ⟨hh, hp, hf, he, ho, hb, hx, hs, _⟩ := writeLoc_keeps v (tick s) l
      exact .inl ⟨by simp [hp], by simp [hs], by simp [he], by simp [hh], by simp [ho], by simp [hx], by simp [hb],
        by simp [hf]⟩
    · exact .inr ⟨rfl, a, by simp⟩

/-- What a completion step that answers has done: raised an error of the decoder or of the command's check, or decoded a
command, done its work and succeeded (R296). -/
theorem coreStep_next {s t : State} (h : coreStep s = .next t) :
    (∃ e, t = raiseError e s) ∨
    (∃ i u, decode s.cmdLatch = .ok i ∧ commandCheck i s = none ∧ commandWork i s = .ok u ∧ t = succeed u) := by
  simp only [coreStep] at h
  cases hd : decode s.cmdLatch with
  | error e =>
    simp only [hd] at h
    injection h with h
    exact .inl ⟨e, h.symm⟩
  | ok i =>
    simp only [hd] at h
    rcases exec_next h with ⟨e, _, rfl⟩ | ⟨hc, u, hw, rfl⟩
    · exact .inl ⟨e, rfl⟩
    · exact .inr ⟨i, u, rfl, hc, hw, rfl⟩

/-- What a step that answers has done (R15, R71): a completion in error, a completion in success, a host step that leaves
the results of the commands, or the reset. -/
theorem step_next {s t : State} (h : step s = .next t) :
    (coreTurn s = true ∧ ∃ e, t = raiseError e s) ∨
    (coreTurn s = true ∧ ∃ i u, decode s.cmdLatch = .ok i ∧ commandCheck i s = none ∧ commandWork i s = .ok u ∧
      t = succeed u) ∨
    (coreTurn s = false ∧ SameResults s t) ∨
    (coreTurn s = false ∧ s.host.prog[s.host.pos]? = some .reset ∧
      ∃ a : HostAgent, t = { State.reset with host := a, draws := s.draws }) := by
  simp only [step, stepAgents] at h
  cases hc : coreTurn s with
  | true =>
    rw [hc, if_pos rfl] at h
    rcases coreStep_next h with he | hw
    · exact .inl ⟨rfl, he⟩
    · exact .inr (.inl ⟨rfl, hw⟩)
  | false =>
    rw [hc, if_neg (by simp)] at h
    rcases hostStep_next h with hk | hr
    · exact .inr (.inr (.inl ⟨rfl, hk⟩))
    · exact .inr (.inr (.inr ⟨rfl, hr⟩))

/-! ### Every step keeps the invariant -/

theorem inv_of_sameResults {s t : State} (hi : Inv s) (h : SameResults s t) : Inv t :=
  hi.congr h.hasher h.phase h.rootFlags (h.errcode ▸ hi.errcodeLe) (h.outValid ▸ hi.outValidLe) h.rootBlen h.xofLen

/-- An emptied hasher keeps the invariant: it has no live byte (R190, R290). -/
theorem hasherInv_empty {m : Memory} (hwf : Memory.wf m) (hrange : Memory.inRange m) (ctr : BitVec 64) :
    HasherInv { mem := m, bufLen := 0, chunkCtr := ctr, cvSp := 0 } where
  memWf := hwf
  memInRange := hrange
  bufLe := by simp
  spLe := by simp
  bufStored a h1 h2 := by simp at h2; omega
  stackStored a h1 h2 := by simp at h2; omega

theorem popcount_zero : popcount 0 = 0 := by decide

/-- An Accepting state with nothing flushed, no entry and no root keeps the invariant. -/
theorem inv_cleared {s : State} (hh : HasherInv s.hasher) (hp : s.phase = .accepting) (hctr : s.hasher.chunkCtr = 0)
    (hsp : s.hasher.cvSp = 0) (herr : s.errcode.toNat ≤ 8) (hvalid : s.outValid = 0) (hblen : s.rootBlen = 0)
    (hflags : s.rootFlags = 0) (hlen : s.xofLen = 0) : Inv s where
  hasher := hh
  spPopcount _ := by rw [hctr, hsp]; exact popcount_zero.symm
  bufNonempty _ hne := absurd hctr hne
  finalStack _ := hsp
  finalRoot hf := by simp [hp] at hf
  errcodeLe := herr
  outValidLe := by simp [hvalid]
  rootBlenLe := by simp [hblen]
  rootFlagsLe := by simp [hflags]
  xofLenLt := by simp [hlen]

/-- The reset state keeps the invariant (R290, R28). -/
theorem inv_reset : Inv State.reset :=
  inv_cleared (hasherInv_empty .nil (by simp) 0) rfl rfl rfl (by decide) rfl rfl rfl rfl

/-- INIT's writes keep the invariant (R190). -/
theorem inv_emptied {s : State} (hi : Inv s) : Inv (emptied s) :=
  inv_cleared (hasherInv_empty hi.hasher.memWf hi.hasher.memInRange 0) rfl rfl rfl hi.errcodeLe rfl rfl rfl rfl

/-- A hasher with R28's properties put into an Accepting state keeps the invariant. -/
theorem inv_withHasher {s : State} (hi : Inv s) (hp : s.phase = .accepting) {h : HasherState} (hh : HasherInv h)
    (hsp : h.cvSp.toNat = popcount h.chunkCtr.toNat) (hne : h.chunkCtr ≠ 0 → 1 ≤ h.bufLen.toNat) :
    Inv { s with hasher := h } where
  hasher := hh
  spPopcount _ := hsp
  bufNonempty _ := hne
  finalStack hf := by simp [hp] at hf
  finalRoot hf := by simp [hp] at hf
  errcodeLe := hi.errcodeLe
  outValidLe := hi.outValidLe
  rootBlenLe := hi.rootBlenLe
  rootFlagsLe := hi.rootFlagsLe
  xofLenLt := hi.xofLenLt

/-- Where APPEND flushes, a byte that did not fit is pending after it; where it does not, the pending bytes stay (R28(b),
R196). -/
theorem inv_append {n : Nat} {s u : State} (hi : Inv s) (hc : commandCheck (.append n) s = none)
    (hw : commandWork (.append n) s = .ok u) : Inv u := by
  obtain ⟨hp, hn, hroom⟩ := commandCheck_append hc
  obtain ⟨h, hr, rfl⟩ := map_eq_ok.1 hw
  have hlen := appendOperand_length hn s
  obtain ⟨g, hg, hinv, hsp, hcase⟩ := appendBytes_ok hi.hasher (hlen.trans_le hn) (hi.spPopcount hp) (by rwa [hlen])
  obtain rfl : g = h := by rw [hr] at hg; injection hg with hg; exact hg.symm
  refine inv_withHasher hi hp hinv hsp fun hctr => ?_
  rcases hcase with ⟨hle, rfl⟩ | ⟨hlt, hbuf, _⟩
  · rw [fill_chunkCtr] at hctr
    exact (hi.bufNonempty hp hctr).trans (fill_bufLen_of_room hle)
  · omega

theorem inv_finalize {s u : State} (hi : Inv s) (hc : commandCheck .finalize s = none)
    (hw : commandWork .finalize s = .ok u) : Inv u := by
  have hp := commandCheck_finalize hc
  obtain ⟨r, hr, rfl⟩ := map_eq_ok.1 hw
  obtain ⟨r', hr', hafter, hblen, hflags, _⟩ :=
    selectRoot_ok hi.hasher (hi.spPopcount hp) (hi.bufNonempty hp)
  obtain rfl : r' = r := by rw [hr] at hr'; injection hr' with hr'; exact hr'.symm
  have hh := hi.hasher
  exact
    { hasher := by
        rw [storeRoot_hasher, hafter]
        exact { memWf := hh.memWf, memInRange := hh.memInRange, bufLe := hh.bufLe, spLe := by simp
                bufStored := hh.bufStored, stackStored := fun a h1 h2 => by simp at h2; omega }
      spPopcount := fun h => by simp at h
      bufNonempty := fun h => by simp at h
      finalStack := fun _ => by simp [hafter]
      finalRoot := fun _ => by rw [storeRoot_rootFlags]; rcases hflags with h | h | h <;> rw [h] <;> decide
      errcodeLe := hi.errcodeLe
      outValidLe := by rw [storeRoot_outValid, toNat_min64]; omega
      rootBlenLe := hblen
      rootFlagsLe := by rw [storeRoot_rootFlags]; rcases hflags with h | h | h <;> rw [h] <;> decide
      xofLenLt := by
        have := requestedLength_lt s
        rw [storeRoot_xofLen, BitVec.toNat_ofNat, Nat.mod_eq_of_lt (by omega)]; exact this }

/-- The work of every command keeps the invariant. -/
theorem inv_commandWork {i : Instr} {s u : State} (hi : Inv s) (hc : commandCheck i s = none)
    (hw : commandWork i s = .ok u) : Inv u := by
  cases i with
  | init => injection hw with hw; exact hw ▸ inv_emptied hi
  | append n => exact inv_append hi hc hw
  | finalize => exact inv_finalize hi hc hw
  | xofBlock =>
    injection hw with hw
    refine hw ▸ hi.congr rfl rfl rfl hi.errcodeLe ?_ rfl rfl
    rw [withNextBlock, toNat_min64]; omega
  | compress t =>
    injection hw with hw
    refine hw ▸ hi.congr rfl rfl rfl hi.errcodeLe ?_ rfl rfl
    cases t <;> simp [withCompression]

/-- Settles O55: the four things a step can do each keep the invariant (R28, R29, R224, R260). -/
theorem stepKeepsInv : Obligations.StepKeepsInv := by
  intro s t hi h
  rcases step_next h with ⟨_, e, rfl⟩ | ⟨_, i, u, _, hc, hw, rfl⟩ | ⟨_, hk⟩ | ⟨_, _, a, rfl⟩
  · exact hi.raiseError e
  · exact (inv_commandWork hi hc hw).succeed
  · exact inv_of_sameResults hi hk
  · exact inv_reset.congr rfl rfl rfl inv_reset.errcodeLe inv_reset.outValidLe rfl rfl

end Sys2Proof.Machine

namespace Sys2Proof.Machine

/-! ### Two runs that answer alike -/

/-- Where the first computation answers, the second answers too, and the answers are related. -/
def AnswersAlike {ε α β : Type} (R : α → β → Prop) (x : Except ε α) (y : Except ε β) : Prop :=
  ∀ a, x = .ok a → ∃ b, y = .ok b ∧ R a b

section AnswersAlike

variable {ε α β γ δ : Type} {R : α → β → Prop} {Q : γ → δ → Prop} {x : Except ε α} {y : Except ε β}

theorem answersAlike_ok {a : α} {b : β} (h : R a b) : AnswersAlike R (.ok a : Except ε α) (.ok b) := by
  rintro _ ⟨⟩; exact ⟨b, rfl, h⟩

theorem answersAlike_error {e : ε} : AnswersAlike R (.error e) y := fun _ h => by cases h

theorem answersAlike_bind {f : α → Except ε γ} {g : β → Except ε δ} (hx : AnswersAlike R x y)
    (hf : ∀ a b, R a b → AnswersAlike Q (f a) (g b)) : AnswersAlike Q (x >>= f) (y >>= g) := by
  intro c hc
  cases x with
  | error e => cases hc
  | ok a =>
    obtain ⟨b, rfl, hab⟩ := hx a rfl
    exact hf a b hab c hc

theorem answersAlike_map {f : α → γ} {g : β → δ} (hx : AnswersAlike R x y) (hf : ∀ a b, R a b → Q (f a) (g b)) :
    AnswersAlike Q (x.map f) (y.map g) := by
  intro c hc
  obtain ⟨a, ha, rfl⟩ := map_eq_ok.1 hc
  obtain ⟨b, rfl, hab⟩ := hx a ha
  exact ⟨g b, rfl, hf a b hab⟩

/-- One computation answers like itself, with one value. -/
theorem answersAlike_self (x : Except ε α) : AnswersAlike (· = ·) x x := fun a h => ⟨a, h, rfl⟩

end AnswersAlike

/-! ### The live bytes are all that the hasher's operations read (R25, R27) -/

/-- Hashers that agree on their live bytes agree on those of BUF. -/
theorem sameLive.bufBytes_eq {g h : HasherState} (hl : sameLive g h) {n : Nat} (hn : n ≤ g.bufLen.toNat) :
    bufBytes g.mem n = bufBytes h.mem n := by
  obtain ⟨_, _, _, hmem⟩ := hl
  refine storedBytes_congr fun c h1 h2 => hmem c (.inl ⟨h1, ?_⟩)
  simp only [bufAddr] at h2 ⊢; omega

/-- Hashers that agree on their live bytes agree on every live entry of STACK. -/
theorem sameLive.stackEntry_eq {g h : HasherState} (hl : sameLive g h) {e : Nat} (he : e < g.cvSp.toNat) :
    stackEntry g.mem e = stackEntry h.mem e := by
  obtain ⟨_, _, _, hmem⟩ := hl
  refine stackEntry_congr fun c h1 h2 => hmem c (.inr ⟨(stackAddr_le.2 e.zero_le).trans h1, ?_⟩)
  exact h2.trans_le (stackAddr_le.2 he)

/-- One write of the same bytes keeps the agreement, where every byte that is live afterwards was live before or has just
been written. -/
theorem sameLive.write {g h : HasherState} (hl : sameLive g h) {a : Nat} {bs : List Byte} {len : BitVec 11}
    {ctr : BitVec 64} {sp : BitVec 7}
    (hlive : ∀ c, liveAddr { g with bufLen := len, cvSp := sp } c → liveAddr g c ∨ (a ≤ c ∧ c < a + bs.length)) :
    sameLive { mem := memWriteList g.mem a bs, bufLen := len, chunkCtr := ctr, cvSp := sp }
      { mem := memWriteList h.mem a bs, bufLen := len, chunkCtr := ctr, cvSp := sp } := by
  obtain ⟨_, _, _, hmem⟩ := hl
  refine ⟨rfl, rfl, rfl, fun c hc => ?_⟩
  rw [memRead_memWriteList, memRead_memWriteList]
  split
  · rfl
  · exact hmem c ((hlive c hc).resolve_right ‹_›)

/-- Fewer live bytes agree where more did. -/
theorem sameLive.shrink {g h : HasherState} (hl : sameLive g h) {len : BitVec 11} {ctr : BitVec 64} {sp : BitVec 7}
    (hlen : len.toNat ≤ g.bufLen.toNat) (hsp : sp.toNat ≤ g.cvSp.toNat) :
    sameLive { g with bufLen := len, chunkCtr := ctr, cvSp := sp } { h with bufLen := len, chunkCtr := ctr, cvSp := sp } := by
  refine hl.write (a := 0) (bs := []) fun c hc => .inl (hc.imp (fun hb => ⟨hb.1, hb.2.trans_le ?_⟩) fun hs =>
    ⟨hs.1, hs.2.trans_le (stackAddr_le.2 hsp)⟩)
  simp only [bufAddr]; omega

/-- The relation between a popped entry with its hasher and another such pair: one entry, and the same live bytes. -/
def SameEntry (p q : CV × HasherState) : Prop := p.1 = q.1 ∧ sameLive p.2 q.2

theorem push_sameLive (cv : CV) {g h : HasherState} (hl : sameLive g h) :
    AnswersAlike sameLive (push cv g) (push cv h) := by
  obtain ⟨hlen, hctr, hsp, _⟩ := id hl
  rcases push_cases cv g with ⟨hlt, hg⟩ | ⟨_, hg⟩
  · rw [hg, push_eq (hsp ▸ hlt), ← hlen, ← hctr, ← hsp]
    refine answersAlike_ok (hl.write fun c hc => ?_)
    simp only [liveAddr, toNat_succ7 hlt.le, stackAddr_succ] at hc
    simp only [liveAddr, lebytes_cv_length]
    omega
  · rw [hg]; exact answersAlike_error

theorem pop_sameLive {g h : HasherState} (hl : sameLive g h) : AnswersAlike SameEntry (pop g) (pop h) := by
  obtain ⟨hlen, hctr, hsp, _⟩ := id hl
  rcases pop_cases g with ⟨h0, h64, hg⟩ | ⟨u, hg⟩
  · rw [hg, pop_eq (hsp ▸ h0) (hsp ▸ h64), ← hlen, ← hctr, ← hsp]
    exact answersAlike_ok ⟨hl.stackEntry_eq (by omega), hl.shrink le_rfl (by rw [toNat_pred7 h0]; omega)⟩
  · rw [hg]; exact answersAlike_error

theorem mergeLoop_sameLive (turns : Nat) : ∀ (total : Nat) {g h : HasherState}, sameLive g h →
    AnswersAlike sameLive (mergeLoop turns total g) (mergeLoop turns total h) := by
  induction turns with
  | zero => exact fun _ _ _ _ => answersAlike_error
  | succ turns ih =>
    intro total g h hl
    rw [mergeLoop, mergeLoop]
    split
    · refine answersAlike_bind (pop_sameLive hl) ?_
      rintro ⟨b, g⟩ ⟨_, h⟩ ⟨rfl, hl⟩
      refine answersAlike_bind (pop_sameLive hl) ?_
      rintro ⟨a, g⟩ ⟨_, h⟩ ⟨rfl, hl⟩
      exact answersAlike_bind (push_sameLive _ hl) fun _ _ hl => ih _ hl
    · exact answersAlike_ok hl

theorem merge_sameLive (cv : CV) (total : Nat) {g h : HasherState} (hl : sameLive g h) :
    AnswersAlike sameLive (merge cv total g) (merge cv total h) :=
  answersAlike_bind (push_sameLive cv hl) fun _ _ hl => mergeLoop_sameLive 64 total hl

/-- A flush of the full buffer reads live bytes only (R194). -/
theorem flush_sameLive {g h : HasherState} (hl : sameLive g h) (hfull : g.bufLen = 1024) :
    AnswersAlike sameLive (flush g) (flush h) := by
  obtain ⟨_, hctr, _, _⟩ := id hl
  rw [flush, flush, ← hl.bufBytes_eq (n := 1024) (by simp [hfull]), ← hctr]
  refine answersAlike_bind (answersAlike_self _) ?_
  rintro cv _ rfl
  refine answersAlike_bind (merge_sameLive cv _ hl) fun g h hl => ?_
  obtain ⟨_, hctr, hsp, _⟩ := id hl
  rw [← hctr, ← hsp]
  exact answersAlike_ok (hl.shrink (by simp) le_rfl)

theorem storeByte_sameLive (x : Byte) {g h : HasherState} (hl : sameLive g h) :
    AnswersAlike sameLive (storeByte x g) (storeByte x h) := by
  obtain ⟨hlen, hctr, hsp, _⟩ := id hl
  rcases lt_or_ge g.bufLen.toNat 1024 with hlt | hge
  · rw [storeByte_eq x hlt, storeByte_eq x (hlen ▸ hlt), fill, fill, ← hlen, ← hctr, ← hsp]
    refine answersAlike_ok (hl.write fun c hc => ?_)
    simp only [liveAddr, bufAddr, List.length_singleton, BitVec.toNat_ofNat] at hc ⊢
    omega
  · rw [storeByte, if_pos hge]; exact answersAlike_error

theorem appendByte_sameLive (x : Byte) {g h : HasherState} (hl : sameLive g h) :
    AnswersAlike sameLive (appendByte x g) (appendByte x h) := by
  obtain ⟨hlen, _, _, _⟩ := id hl
  rw [appendByte, appendByte, ← hlen]
  split
  · exact answersAlike_bind (flush_sameLive hl ‹_›) fun _ _ hl => storeByte_sameLive x hl
  · exact storeByte_sameLive x hl

theorem appendBytes_sameLive (xs : List Byte) : ∀ {g h : HasherState}, sameLive g h →
    AnswersAlike sameLive (appendBytes xs g) (appendBytes xs h) := by
  induction xs with
  | nil => exact fun hl => answersAlike_ok hl
  | cons x xs ih => exact fun hl => answersAlike_bind (appendByte_sameLive x hl) fun _ _ hl => ih hl

/-! ### The root is read from the live bytes (R220 to R223) -/

/-- Two roots that differ at most in stale bytes of the hashers they leave. -/
def SameRoot (q r : Root) : Prop := r = { q with after := r.after } ∧ sameLive q.after r.after

theorem foldStack_sameLive (n : Nat) : ∀ (run : CV) {g h : HasherState}, sameLive g h →
    AnswersAlike SameEntry (foldStack n run g) (foldStack n run h) := by
  induction n with
  | zero => exact fun _ _ _ hl => answersAlike_ok ⟨rfl, hl⟩
  | succ n ih =>
    intro run g h hl
    refine answersAlike_bind (pop_sameLive hl) ?_
    rintro ⟨left, g⟩ ⟨_, h⟩ ⟨rfl, hl⟩
    exact ih _ hl

theorem rootOneChunk_sameLive {g h : HasherState} (hl : sameLive g h) :
    AnswersAlike SameRoot (rootOneChunk g) (rootOneChunk h) := by
  obtain ⟨hlen, hctr, _, _⟩ := id hl
  rw [rootOneChunk, rootOneChunk, ← hlen, ← hctr, ← hl.bufBytes_eq le_rfl]
  refine answersAlike_bind (answersAlike_self _) ?_
  rintro r _ rfl
  exact answersAlike_ok ⟨rfl, hl⟩

theorem rootTree_sameLive {g h : HasherState} (hl : sameLive g h) :
    AnswersAlike SameRoot (rootTree g) (rootTree h) := by
  obtain ⟨hlen, hctr, hsp, _⟩ := id hl
  rw [rootTree, rootTree, ← hlen, ← hctr, ← hsp, ← hl.bufBytes_eq le_rfl]
  split
  · exact answersAlike_error
  · refine answersAlike_bind (answersAlike_self _) ?_
    rintro tail _ rfl
    refine answersAlike_bind (foldStack_sameLive _ tail hl) ?_
    rintro ⟨run, g⟩ ⟨_, h⟩ ⟨rfl, hl⟩
    refine answersAlike_bind (pop_sameLive hl) ?_
    rintro ⟨left, g⟩ ⟨_, h⟩ ⟨rfl, hl⟩
    exact answersAlike_ok ⟨rfl, hl⟩

theorem selectRoot_sameLive {g h : HasherState} (hl : sameLive g h) :
    AnswersAlike SameRoot (selectRoot g) (selectRoot h) := by
  obtain ⟨hlen, _, hsp, _⟩ := id hl
  rw [selectRoot, selectRoot, ← hlen, ← hsp]
  split
  · exact answersAlike_ok ⟨rfl, hl⟩
  split
  · exact rootOneChunk_sameLive hl
  · exact rootTree_sameLive hl

/-! ### No command reads a stale byte -/

/-- A command's check reads no byte of BUF or STACK. -/
theorem commandCheck_sameButStale (i : Instr) {s s' : State} (h : sameButStale s s') :
    commandCheck i s' = commandCheck i s := by
  obtain ⟨hs, hlen, hctr, _, _⟩ := h
  rw [hs]
  cases i with
  | append n => simp only [commandCheck, hlen, hctr]
  | init => rfl
  | finalize => rfl
  | xofBlock => rfl
  | compress t => rfl

/-- A command's work gives results that differ in stale bytes only. -/
theorem commandWork_sameButStale (i : Instr) {s s' : State} (h : sameButStale s s') :
    AnswersAlike sameButStale (commandWork i s) (commandWork i s') := by
  obtain ⟨hs, hl⟩ := h
  rw [hs]
  generalize s'.hasher = h' at hl
  cases i with
  | init => exact answersAlike_ok ⟨rfl, hl.shrink (by simp) (by simp)⟩
  | append n =>
    exact answersAlike_map (appendBytes_sameLive (appendOperand n s) hl) fun _ _ hl => ⟨rfl, hl⟩
  | finalize =>
    refine answersAlike_map (selectRoot_sameLive hl) ?_
    rintro q r ⟨hr, hl⟩
    exact ⟨by rw [hr]; rfl, hl⟩
  | xofBlock => exact answersAlike_ok ⟨rfl, hl⟩
  | compress t => exact answersAlike_ok ⟨rfl, hl⟩

theorem sameButStale.raiseError {s s' : State} (h : sameButStale s s') (e : CmdError) :
    sameButStale (raiseError e s) (raiseError e s') := by
  obtain ⟨hs, hl⟩ := h
  exact ⟨by rw [hs]; rfl, hl⟩

theorem sameButStale.succeed {s s' : State} (h : sameButStale s s') : sameButStale (succeed s) (succeed s') := by
  obtain ⟨hs, hl⟩ := h
  exact ⟨by rw [hs]; rfl, hl⟩

/-- Settles O58: a command's check reads no byte, and its work only live ones, operation by operation (R25, R27). -/
theorem staleBytesNeverMatter : Obligations.StaleBytesNeverMatter := by
  intro i s s' t hs h
  have hcheck := commandCheck_sameButStale i hs
  rcases exec_next h with ⟨e, he, rfl⟩ | ⟨hc, u, hu, rfl⟩
  · exact ⟨raiseError e s', by rw [exec_eq, hcheck, he], hs.raiseError e⟩
  · obtain ⟨u', hu', hsu⟩ := commandWork_sameButStale i hs u hu
    exact ⟨succeed u', by rw [exec_eq, hcheck, hc, hu']; rfl, hsu.succeed⟩

end Sys2Proof.Machine

namespace Sys2Proof.Machine

/-! ### What each command's work leaves and what it sets -/

/-- The operand registers, the latch, the host and the count of draws: what no command writes. -/
structure SameOperands (s t : State) : Prop where
  outlen : t.outlen = s.outlen
  inWin : t.inWin = s.inWin
  cmpH : t.cmpH = s.cmpH
  cmpM : t.cmpM = s.cmpM
  cmpT : t.cmpT = s.cmpT
  cmpB : t.cmpB = s.cmpB
  cmpD : t.cmpD = s.cmpD
  cmdLatch : t.cmdLatch = s.cmdLatch
  host : t.host = s.host
  draws : t.draws = s.draws

/-- What holds of each command's writes holds of whatever a command's work gives. -/
theorem commandWork_elim {s : State} {P : Instr → State → Prop} (init : P .init (emptied s))
    (append : ∀ n h, appendBytes (appendOperand n s) s.hasher = .ok h → P (.append n) { s with hasher := h })
    (finalize : ∀ r, selectRoot s.hasher = .ok r → P .finalize (storeRoot (requestedLength s).toNat r s))
    (xofBlock : P .xofBlock (withNextBlock s)) (compress : ∀ t, P (.compress t) (withCompression t s)) {i : Instr}
    {u : State} (hw : commandWork i s = .ok u) : P i u := by
  cases i with
  | init => injection hw with hw; exact hw ▸ init
  | append n => obtain ⟨h, hr, rfl⟩ := map_eq_ok.1 hw; exact append n h hr
  | finalize => obtain ⟨r, hr, rfl⟩ := map_eq_ok.1 hw; exact finalize r hr
  | xofBlock => injection hw with hw; exact hw ▸ xofBlock
  | compress t => injection hw with hw; exact hw ▸ compress t

theorem commandWork_sameOperands {i : Instr} {s u : State} (hw : commandWork i s = .ok u) : SameOperands s u := by
  refine commandWork_elim (P := fun _ u => SameOperands s u) ?init (fun n h _ => ?append) (fun r _ => ?finalize) ?xofBlock
    (fun t => ?compress) hw
  all_goals exact ⟨rfl, rfl, rfl, rfl, rfl, rfl, rfl, rfl, rfl, rfl⟩

/-- The phase after a command's work (R23): INIT makes it Accepting, FINALIZE Finalized, the others keep it. -/
theorem commandWork_phase {i : Instr} {s u : State} (hw : commandWork i s = .ok u) :
    u.phase = if i = .init then .accepting else if i = .finalize then .finalized else s.phase :=
  commandWork_elim
    (P := fun i u => u.phase = if i = .init then .accepting else if i = .finalize then .finalized else s.phase)
    rfl (fun _ _ _ => rfl) (fun _ _ => rfl) rfl (fun _ => rfl) hw

/-- ERR_STICKY after a command's work (R36): INIT clears it, the others keep it. -/
theorem commandWork_errSticky {i : Instr} {s u : State} (hw : commandWork i s = .ok u) :
    u.errSticky = if i = .init then false else s.errSticky :=
  commandWork_elim (P := fun i u => u.errSticky = if i = .init then false else s.errSticky)
    rfl (fun _ _ _ => rfl) (fun _ _ => rfl) rfl (fun _ => rfl) hw

/-- A command that answers keeps the operands, whether it ends in an error or in success. -/
theorem exec_sameOperands {i : Instr} {s t : State} (h : exec i s = .next t) : SameOperands s t := by
  rcases exec_next h with ⟨e, _, rfl⟩ | ⟨_, u, hw, rfl⟩
  · exact ⟨rfl, rfl, rfl, rfl, rfl, rfl, rfl, rfl, rfl, rfl⟩
  · obtain ⟨hl, hi, hh, hm, ht, hb, hd, hc, ho, hn⟩ := commandWork_sameOperands hw
    exact ⟨hl, hi, hh, hm, ht, hb, hd, hc, ho, hn⟩

/-- A command that answers has ended (R296). -/
theorem exec_busy {i : Instr} {s t : State} (h : exec i s = .next t) : t.busy = false := by
  rcases exec_next h with ⟨e, _, rfl⟩ | ⟨_, u, _, rfl⟩ <;> rfl

theorem errorCode_ne_zero (e : CmdError) : errorCode e ≠ 0 := by cases e <;> decide

/-- Settles O38. -/
theorem commandsKeepOperands : Obligations.CommandsKeepOperands := by
  intro i s t h
  obtain ⟨hl, hi, hh, hm, ht, hb, hd, hc, ho, hn⟩ := exec_sameOperands h
  exact ⟨hl, hi, hh, hm, ht, hb, hd, hc, ho, hn, exec_busy h⟩

/-- Settles O39: of the four things a step can do, only INIT's and FINALIZE's work and the reset set the phase (R23). -/
theorem phaseChangesOnlyByFinalizeInitReset : Obligations.PhaseChangesOnlyByFinalizeInitReset := by
  intro s t h
  rcases step_next h with ⟨_, e, rfl⟩ | ⟨hturn, i, u, hd, _, hw, rfl⟩ | ⟨_, hk⟩ | ⟨hturn, hreset, a, rfl⟩
  · simp +contextual
  · rw [succeed_phase, commandWork_phase hw]
    split
    · subst i; exact ⟨fun _ h => (by cases h), fun _ _ => .inl ⟨hturn, hd⟩⟩
    split
    · subst i; exact ⟨fun _ _ => ⟨hturn, hd, rfl⟩, fun _ h => (by cases h)⟩
    · simp +contextual
  · simp +contextual [hk.phase]
  · exact ⟨fun _ h => (by cases h), fun _ _ => .inr ⟨hturn, hreset⟩⟩

/-- Settles O40: of the four things a step can do, only an error sets ERR_STICKY, and only INIT's work and the reset clear it
(R36, R268, R269). -/
theorem errStickyChangesOnlyByErrorInitReset : Obligations.ErrStickyChangesOnlyByErrorInitReset := by
  intro s t h
  rcases step_next h with ⟨hturn, e, rfl⟩ | ⟨hturn, i, u, hd, _, hw, rfl⟩ | ⟨hturn, hk⟩ | ⟨hturn, hreset, a, rfl⟩
  · exact ⟨fun _ h => (by cases h), fun _ _ => ⟨hturn, errorCode_ne_zero e⟩, fun _ _ => rfl⟩
  · rw [succeed_errSticky, succeed_errcode, commandWork_errSticky hw]
    split
    · subst i; exact ⟨fun _ _ => .inl ⟨hturn, hd⟩, fun _ h => (by cases h), fun _ h => absurd rfl h⟩
    · simp +contextual
  · simp +contextual [hk.errSticky, hturn]
  · exact ⟨fun _ _ => .inr ⟨hturn, hreset⟩, fun _ h => (by cases h), fun h => absurd h (by simp [hturn])⟩

/-- A number below 2^64 has no one bit exactly when it is 0 (R28(c)). -/
theorem popcount_eq_zero_iff {n : Nat} (hn : n < 2 ^ 64) : popcount n = 0 ↔ n = 0 :=
  ⟨popcount_eq_zero hn, by rintro rfl; exact popcount_zero⟩

/-- Settles O56: R28(a), (b) and (d) are the invariant's, and (c) follows from (a). -/
theorem acceptingStateInvariants : Obligations.AcceptingStateInvariants := by
  intro s hi hp
  have hsp := hi.spPopcount hp
  have hctr : s.hasher.chunkCtr = 0 ↔ s.hasher.chunkCtr.toNat = 0 := by
    rw [← BitVec.toNat_inj]; rfl
  refine ⟨hsp, fun hpos => hi.bufNonempty hp fun h0 => ?_, ?_, hi.hasher.bufLe, hi.hasher.spLe⟩
  · rw [hctr] at h0; omega
  · calc s.hasher.cvSp = 0 ↔ s.hasher.cvSp.toNat = 0 := cvSp_zero_iff _
      _ ↔ popcount s.hasher.chunkCtr.toNat = 0 := by rw [hsp]
      _ ↔ s.hasher.chunkCtr.toNat = 0 := popcount_eq_zero_iff s.hasher.chunkCtr.isLt
      _ ↔ s.hasher.chunkCtr = 0 := hctr.symm

/-! ### STATUS and KEY -/

@[simp] theorem getLsbD_flagIf (c : Bool) (f : Word) (i : Nat) : (flagIf c f).getLsbD i = (c && f.getLsbD i) := by
  cases c <;> simp [flagIf]

/-- STATUS at any bit: each of its three flags stands at its own bit (R36). -/
theorem getLsbD_statusWord (s : State) (i : Nat) :
    (statusWord s).getLsbD i =
      ((phaseBit s.phase && decide (i = 0)) || (s.busy && decide (i = 1)) || (s.errSticky && decide (i = 2))) := by
  have hbit : ∀ k : Nat, k < 3 → (BitVec.twoPow 32 k).getLsbD i = decide (i = k) := fun k hk => by
    simp [BitVec.getLsbD_twoPow, eq_comm]; omega
  have h0 := hbit 0 (by omega)
  have h1 := hbit 1 (by omega)
  have h2 := hbit 2 (by omega)
  simp only [statusWord, BitVec.getLsbD_or, getLsbD_flagIf, ← h0, ← h1, ← h2]
  rfl

/-- Settles O48. -/
theorem statusBits : Obligations.StatusBits := by
  intro s
  simp only [getLsbD_statusWord, phaseBit]
  refine ⟨by simp, by simp, by simp, fun i hi => ?_⟩
  simp [show i ≠ 0 by omega, show i ≠ 1 by omega, show i ≠ 2 by omega]

/-- An aligned 32-bit access inside the window to an idle block is allowed (R60, R65). -/
theorem checkAccess_idle {s : State} (hb : s.busy = false) {off : Nat} (ha : off % 4 = 0) (hw : off < 0x1000)
    (isRead : Bool) : checkAccess isRead off 4 s = .ok () := by
  rw [checkAccess, if_neg (by simp [ha]), if_neg (by simpa [Config.windowBytes] using hw), if_neg (by simp [hb])]

/-- A read of an idle block gives what stands at the offset (R63). -/
theorem busRead_idle {s : State} (hb : s.busy = false) {off : Nat} (ha : off % 4 = 0) (hw : off < 0x1000) :
    busRead off 4 s = .ok (readLoc s (locate off), if readDraws s (locate off) then drawn s else s) := by
  rw [busRead, checkAccess_idle hb ha hw]; rfl

/-- A write to an idle block is the write of what stands at the offset (R64). -/
theorem busWrite_idle {s : State} (hb : s.busy = false) {off : Nat} (ha : off % 4 = 0) (hw : off < 0x1000) (v : Word) :
    busWrite off 4 v s = .ok (writeLoc v s (locate off)) := by
  rw [busWrite, checkAccess_idle hb ha hw]; rfl

/-- KEY stands at 0x180 to 0x19C (R41). -/
theorem locate_key (i : Fin 8) : locate (0x180 + 4 * i) = .key i := by
  revert i; decide

/-- Settles O49: KEY is no field of the state, so its read is the IV and its write is ignored (R24, R67). -/
theorem keyIsHardwired : Obligations.KeyIsHardwired := by
  intro s i v hb hi
  have hloc : locate (0x180 + 4 * i) = .key ⟨i, hi⟩ := locate_key ⟨i, hi⟩
  rw [busRead_idle hb (by omega) (by omega), busWrite_idle hb (by omega) (by omega), hloc]
  exact ⟨rfl, rfl⟩

end Sys2Proof.Machine

namespace Sys2Proof.Machine

/-! ### The register map as a table of offsets (R41): the inverse of `locate` -/

/-- The offset R41 gives each place of the window; for `reserved` the first of its offsets (R67). -/
def Loc.offset : Loc → Nat
  | .cmd => 0x000
  | .status => 0x004
  | .errcode => 0x008
  | .bufLen => 0x00C
  | .chunkCtr hi => if hi then 0x014 else 0x010
  | .cvSp => 0x018
  | .outValid => 0x01C
  | .outlen hi => if hi then 0x024 else 0x020
  | .xofLen hi => if hi then 0x02C else 0x028
  | .xofIdx hi => if hi then 0x034 else 0x030
  | .cmpT hi => if hi then 0x03C else 0x038
  | .cmpB => 0x040
  | .cmpD => 0x044
  | .rootBlen => 0x048
  | .rootFlags => 0x04C
  | .reserved => 0x050
  | .input i => 0x080 + 4 * i
  | .cmpH i => 0x0C0 + 4 * i
  | .cmpM i => 0x100 + 4 * i
  | .out i => 0x140 + 4 * i
  | .key i => 0x180 + 4 * i
  | .rootCv i => 0x1A0 + 4 * i
  | .rootMsg i => 0x1C0 + 4 * i
  | .bufView j => 0x400 + 4 * j
  | .stackView e w => 0x800 + 32 * e + 4 * w

theorem offset_aligned (l : Loc) : l.offset % 4 = 0 := by
  cases l <;> simp only [Loc.offset] <;> grind

theorem offset_lt (l : Loc) : l.offset < 0x1000 := by
  cases l <;> simp only [Loc.offset] <;> grind

theorem locate_bufView (j : Fin 256) : locate (0x400 + 4 * j) = .bufView j := by
  have hj := j.isLt
  unfold locate
  iterate 10 rw [if_neg (by omega)]
  rw [if_pos (by omega)]
  exact congrArg Loc.bufView (Fin.ext (by simp))

theorem locate_stackView (e : Fin 64) (w : Fin 8) : locate (0x800 + 32 * e + 4 * w) = .stackView e w := by
  have he := e.isLt
  have hw := w.isLt
  unfold locate
  iterate 11 rw [if_neg (by omega)]
  exact congrArg₂ Loc.stackView (Fin.ext (by simp; omega)) (Fin.ext (by simp; omega))

/-- `locate` finds each place at the offset R41 gives it. -/
theorem locate_offset (l : Loc) : locate l.offset = l := by
  cases l with
  | bufView j => exact locate_bufView j
  | stackView e w => exact locate_stackView e w
  | chunkCtr hi | outlen hi | xofLen hi | xofIdx hi | cmpT hi => cases hi <;> rfl
  | input i | cmpH i | cmpM i | out i | key i | rootCv i | rootMsg i => revert i; decide
  | _ => rfl

/-- The reserved offsets (R67). -/
def reservedOffset (off : Nat) : Prop :=
  (0x050 ≤ off ∧ off < 0x080) ∨ (0x0E0 ≤ off ∧ off < 0x100) ∨ (0x200 ≤ off ∧ off < 0x400)

theorem offset_locateLow (k : Fin 32) :
    (locateLow k).offset = 4 * k ∨ (locateLow k = .reserved ∧ 0x050 ≤ 4 * k.val) := by
  revert k; decide

/-- What `locate` finds at an aligned offset stands there in R41, or the offset is a reserved one. -/
theorem offset_locate {off : Nat} (ha : off % 4 = 0) (hw : off < 0x1000) :
    (locate off).offset = off ∨ (locate off = .reserved ∧ reservedOffset off) := by
  unfold locate reservedOffset
  split
  next hlow =>
    have hoff : 4 * (off / 4) = off := by omega
    have hk := offset_locateLow ⟨off / 4, by omega⟩
    rw [hoff] at hk
    exact hk.imp_right fun ⟨hl, hge⟩ => ⟨hl, .inl ⟨hge, hlow⟩⟩
  split_ifs <;> simp [Loc.offset] <;> omega

/-- Nothing stands at the reserved offsets (R67). -/
theorem locate_reserved {off : Nat} (ha : off % 4 = 0) (hres : reservedOffset off) : locate off = .reserved := by
  have hw : off < 0x1000 := by unfold reservedOffset at hres; omega
  rcases offset_locate ha hw with h | ⟨h, _⟩
  · rw [← h] at hres
    generalize locate off = l at hres
    cases l <;> simp only [Loc.offset, reservedOffset] at hres <;> grind
  · exact h

/-- A place of the window that is not `reserved` stands at one offset only. -/
theorem eq_of_locate_eq {off off' : Nat} (ha : off % 4 = 0) (hw : off < 0x1000) (ha' : off' % 4 = 0)
    (hw' : off' < 0x1000) (hl : locate off ≠ .reserved) (heq : locate off' = locate off) : off' = off := by
  have h := (offset_locate ha hw).resolve_right fun h => hl h.1
  have h' := (offset_locate ha' hw').resolve_right fun h' => hl (heq ▸ h'.1)
  rw [← h', heq, h]

/-- CMD stands at offset 0 only (R41). -/
theorem locate_ne_cmd {off : Nat} (ha : off % 4 = 0) (hw : off < 0x1000) (h0 : off ≠ 0) : locate off ≠ .cmd :=
  fun h => h0 (eq_of_locate_eq (off := 0) rfl (by omega) ha hw (by decide) h)

/-! ### The RW registers (R64) -/

/-- The RW registers, which a write sets (R64). -/
def Loc.isOperand : Loc → Bool
  | .outlen _ | .xofIdx _ | .cmpT _ | .cmpB | .cmpD | .input _ | .cmpH _ | .cmpM _ => true
  | _ => false

/-- The offsets of the RW registers (R41). -/
def operandOffset (off : Nat) : Prop :=
  (0x020 ≤ off ∧ off < 0x028) ∨ (0x030 ≤ off ∧ off < 0x048) ∨ (0x080 ≤ off ∧ off < 0x0E0) ∨ (0x100 ≤ off ∧ off < 0x140)

theorem isOperand_iff_offset (l : Loc) : l.isOperand = true ↔ operandOffset l.offset := by
  cases l <;> simp only [Loc.isOperand, Loc.offset, operandOffset] <;> grind

/-- The RW registers stand at the RW offsets and nowhere else (R41). -/
theorem isOperand_locate {off : Nat} (ha : off % 4 = 0) (hw : off < 0x1000) :
    (locate off).isOperand = true ↔ operandOffset off := by
  rcases offset_locate ha hw with h | ⟨h, hres⟩
  · rw [isOperand_iff_offset, h]
  · unfold reservedOffset at hres
    rw [isOperand_iff_offset, h, operandOffset, operandOffset, Loc.offset]
    omega

theorem loWord_hiLo (hi lo : Word) : loWord (hiLo hi lo) = lo := BitVec.extractLsb'_append_eq_right

theorem hiWord_hiLo (hi lo : Word) : hiWord (hiLo hi lo) = hi := BitVec.extractLsb'_append_eq_left

/-- A half written reads back, the other half reads as before (R62(d)). -/
theorem halfOf_setHalf (hi hi' : Bool) (x : BitVec 64) (v : Word) :
    halfOf hi' (setHalf hi x v) = if hi' = hi then v else halfOf hi' x := by
  cases hi <;> cases hi' <;> simp [halfOf, setHalf, loWord_hiLo, hiWord_hiLo]

/-- After a write of an RW register, that register reads as the value and every other place as before. -/
theorem readLoc_writeLoc {l : Loc} (hl : l.isOperand = true) (v : Word) (s : State) (l' : Loc) :
    readLoc (writeLoc v s l) l' = if l' = l then v else readLoc s l' := by
  cases l with
  | outlen hi | xofIdx hi | cmpT hi =>
    cases l' with
    | outlen hi' | xofIdx hi' | cmpT hi' => simp [readLoc, writeLoc, halfOf_setHalf]
    | _ => rfl
  | input i | cmpH i | cmpM i =>
    cases l' with
    | input j | cmpH j | cmpM j => simp [readLoc, writeLoc, Vector.getElem_set, Fin.ext_iff, eq_comm]
    | _ => rfl
  | cmpB | cmpD => cases l' <;> rfl
  | _ => cases hl

theorem writeLoc_operand_busy {l : Loc} (hl : l.isOperand = true) (v : Word) (s : State) :
    (writeLoc v s l).busy = s.busy := by
  cases l <;> cases hl <;> rfl

/-- A write of any place but the RW registers and CMD is ignored (R66, R67). -/
theorem writeLoc_ignored {l : Loc} (hl : l.isOperand = false) (hc : l ≠ .cmd) (v : Word) (s : State) :
    writeLoc v s l = s := by
  cases l with
  | cmd => exact absurd rfl hc
  | outlen _ | xofIdx _ | cmpT _ | cmpB | cmpD | input _ | cmpH _ | cmpM _ => cases hl
  | _ => rfl

/-! ### The halves of a 64-bit register as numbers (R62(d)) -/

theorem hiWord_eq (x : BitVec 64) : hiWord x = BitVec.ofNat 32 (x.toNat / 2 ^ 32) := by
  rw [← Nat.shiftRight_eq_div_pow]; rfl

theorem hiLo_eq (hi lo : Word) : hiLo hi lo = BitVec.ofNat 64 (hi.toNat * 2 ^ 32 + lo.toNat) := by
  apply BitVec.eq_of_toNat_eq
  rw [hiLo, BitVec.toNat_append, ← Nat.shiftLeft_add_eq_or_of_lt lo.isLt, Nat.shiftLeft_eq, BitVec.toNat_ofNat]
  omega

theorem setHalf_lo (x : BitVec 64) (v : Word) :
    setHalf false x v = BitVec.ofNat 64 (x.toNat / 2 ^ 32 * 2 ^ 32 + v.toNat) := by
  have hlt : x.toNat / 2 ^ 32 < 2 ^ 32 := by omega
  have hhi : (hiWord x).toNat = x.toNat / 2 ^ 32 := by rw [hiWord_eq, BitVec.toNat_ofNat, Nat.mod_eq_of_lt hlt]
  rw [← hhi]; exact hiLo_eq _ _

theorem setHalf_hi (x : BitVec 64) (v : Word) :
    setHalf true x v = BitVec.ofNat 64 (v.toNat * 2 ^ 32 + x.toNat % 2 ^ 32) := hiLo_eq _ _

/-! ### Accesses of an idle block by place -/

theorem busRead_offset {s : State} (hb : s.busy = false) (l : Loc) :
    busRead l.offset 4 s = .ok (readLoc s l, if readDraws s l then drawn s else s) := by
  rw [busRead_idle hb (offset_aligned l) (offset_lt l), locate_offset]

theorem busWrite_offset {s : State} (hb : s.busy = false) (l : Loc) (v : Word) :
    busWrite l.offset 4 v s = .ok (writeLoc v s l) := by
  rw [busWrite_idle hb (offset_aligned l) (offset_lt l), locate_offset]

/-- The word a read of an idle block gives. -/
theorem busRead_value {s : State} (hb : s.busy = false) {off : Nat} (ha : off % 4 = 0) (hw : off < 0x1000) :
    (busRead off 4 s).map Prod.fst = .ok (readLoc s (locate off)) := by
  rw [busRead_idle hb ha hw]; rfl

/-- A read changes at most the count of draws (R68; log 3). -/
theorem stateAfterRead_eq (s : State) (draw : Bool) :
    (if draw then drawn s else s) = { s with draws := (if draw then drawn s else s).draws } := by
  cases draw <;> rfl

/-- Only the debug views draw, and they stand from 0x400 on (R69). -/
theorem offset_of_readDraws {l : Loc} {s : State} (h : readDraws s l = true) : 0x400 ≤ l.offset := by
  cases l with
  | bufView j | stackView e w => simp only [Loc.offset]; omega
  | _ => cases h

/-- A read below the debug views draws nothing (R69). -/
theorem readDraws_locate_low {off : Nat} (ha : off % 4 = 0) (hlow : off < 0x400) (s : State) :
    readDraws s (locate off) = false := by
  rcases offset_locate ha (by omega) with h | ⟨h, _⟩
  · refine Bool.eq_false_iff.2 fun hd => ?_
    have hview := offset_of_readDraws hd
    omega
  · rw [h]; rfl

/-- A write at an RW offset reads back, and every other offset reads as before (R63, R64). -/
theorem operandWrite_readsBack {s : State} (hb : s.busy = false) (v : Word) {off : Nat} (ha : off % 4 = 0)
    (hop : operandOffset off) :
    ∃ t, busWrite off 4 v s = .ok t ∧ busRead off 4 t = .ok (v, t) ∧
      ∀ off', off' % 4 = 0 → off' < 0x1000 → off' ≠ off →
        (busRead off' 4 t).map Prod.fst = (busRead off' 4 s).map Prod.fst := by
  have hlow : off < 0x400 := by unfold operandOffset at hop; omega
  have hw : off < 0x1000 := by omega
  have hl : (locate off).isOperand = true := (isOperand_locate ha hw).2 hop
  have hbt : (writeLoc v s (locate off)).busy = false := by rw [writeLoc_operand_busy hl, hb]
  refine ⟨_, busWrite_idle hb ha hw v, ?_, fun off' ha' hw' hne => ?_⟩
  · rw [busRead_idle hbt ha hw, readLoc_writeLoc hl, if_pos rfl, readDraws_locate_low ha hlow]
    rfl
  · have hres : locate off ≠ .reserved := fun h => by rw [h] at hl; cases hl
    have hne' : locate off' ≠ locate off := fun h => hne (eq_of_locate_eq ha hw ha' hw' hres h)
    rw [busRead_value hbt ha' hw', busRead_value hb ha' hw', readLoc_writeLoc hl, if_neg hne']

/-- Settles O44: each RW register is found at its offset by `locate_offset`, and the read of another place does not see it. -/
theorem operandWriteReadsBack : Obligations.OperandWriteReadsBack := by
  intro s v hb
  have hwr := busWrite_offset hb (v := v)
  simp only [← setHalf_lo, ← setHalf_hi]
  exact ⟨hwr (.outlen false), hwr (.outlen true), hwr (.xofIdx false), hwr (.xofIdx true), hwr (.cmpT false),
    hwr (.cmpT true), hwr .cmpB, hwr .cmpD, fun i hi => hwr (.input ⟨i, hi⟩), fun i hi => hwr (.cmpH ⟨i, hi⟩),
    fun i hi => hwr (.cmpM ⟨i, hi⟩), fun _ ha hop => operandWrite_readsBack hb v ha hop⟩

/-- Settles O42: the offset is neither an RW register's nor CMD's. -/
theorem readOnlyWritesIgnored : Obligations.ReadOnlyWritesIgnored := by
  intro s off v hb ha hro
  simp only [List.mem_cons, List.not_mem_nil, or_false] at hro
  have hw : off < 0x1000 := by omega
  have hop : (locate off).isOperand = false := by
    rw [← Bool.not_eq_true, isOperand_locate ha hw, operandOffset]; omega
  rw [busWrite_idle hb ha hw, writeLoc_ignored hop (locate_ne_cmd ha hw (by omega))]

/-- Settles O43. -/
theorem reservedOffsetsReadZero : Obligations.ReservedOffsetsReadZero := by
  intro s off v hb ha hres
  have hw : off < 0x1000 := by omega
  rw [busRead_idle hb ha hw, busWrite_idle hb ha hw, locate_reserved ha hres]
  exact ⟨rfl, rfl⟩

/-- Settles O45: each register is found at its offset by `locate_offset`. -/
theorem readsChangeNothing : Obligations.ReadsChangeNothing := by
  intro s hb
  have hrd := busRead_offset hb
  simp only [BitVec.ofNat_toNat, ← hiWord_eq]
  refine ⟨hrd .cmd, hrd .status, hrd .errcode, hrd .bufLen, hrd (.chunkCtr false), hrd (.chunkCtr true), hrd .cvSp,
    hrd .outValid, hrd (.outlen false), hrd (.outlen true), hrd (.xofLen false), hrd (.xofLen true), hrd (.xofIdx false),
    hrd (.xofIdx true), hrd (.cmpT false), hrd (.cmpT true), hrd .cmpB, hrd .cmpD, hrd .rootBlen, hrd .rootFlags,
    fun i hi => hrd (.input ⟨i, hi⟩), fun i hi => hrd (.cmpH ⟨i, hi⟩), fun i hi => hrd (.cmpM ⟨i, hi⟩),
    fun i hi => hrd (.out ⟨i, hi⟩), fun i hi => hrd (.rootCv ⟨i, hi⟩), fun i hi => hrd (.rootMsg ⟨i, hi⟩),
    fun off ha hw => ⟨_, _, busRead_idle hb ha hw, stateAfterRead_eq s _, fun hlow => ?_⟩⟩
  rw [readDraws_locate_low ha hlow]
  rfl

/-! ### Faults, debug views and the base -/

theorem checkAccess_misaligned {off width : Nat} (h : width ≠ 4 ∨ off % 4 ≠ 0) (isRead : Bool) (s : State) :
    checkAccess isRead off width s = .error (.busFault off width) := if_pos h

/-- Settles O46: width and alignment are checked first. -/
theorem misalignedOrNarrowAccessFaults : Obligations.MisalignedOrNarrowAccessFaults := by
  intro s off width v h
  rw [busRead, busWrite, checkAccess_misaligned h, checkAccess_misaligned h]
  exact ⟨rfl, rfl⟩

/-- Byte `k` of BUF debug word `j` is that of index `4j + k` (R69). -/
theorem wordByte_bufViewWord (s : State) (j k : Nat) (hk : k < 4) :
    wordByte (bufViewWord s j) k = bufViewByte s (4 * j + k) := by
  rw [bufViewWord, wordByte_le32_aux _ _ _ _ k hk]
  obtain rfl | rfl | rfl | rfl : k = 0 ∨ k = 1 ∨ k = 2 ∨ k = 3 := by omega
  all_goals rfl

/-- Settles O50. -/
theorem debugViewsShowLiveContents : Obligations.DebugViewsShowLiveContents := by
  intro s hb
  refine ⟨fun j hj => ⟨_, _, busRead_offset hb (.bufView ⟨j, hj⟩), stateAfterRead_eq s _, fun k hk => ?_⟩,
    fun e w hw he => ⟨_, _, busRead_offset hb (.stackView ⟨e, he⟩ ⟨w, hw⟩), stateAfterRead_eq s _, rfl⟩⟩
  have hmod : (4 * j + k) % 4 = k := by omega
  rw [readLoc, wordByte_bufViewWord s j k hk, bufViewByte, hmod]

theorem offsetOf_b3Base_add (off : Nat) : offsetOf (Config.b3Base + off) = some off := by
  rw [offsetOf, if_pos (Nat.le_add_right _ _), Nat.add_sub_cancel_left]

/-- Settles O51. -/
theorem windowStandsAtBase : Obligations.WindowStandsAtBase := by
  refine ⟨Nat.mul_mod_right _ _, fun s off width v => ?_⟩
  rw [memReadAt, memWriteAt, offsetOf_b3Base_add]
  exact ⟨rfl, rfl⟩

end Sys2Proof.Machine

namespace Sys2Proof

/-! ### The fields of a command word (R91) -/

/-- A mask of the `len` bits from bit `lo` on keeps the field that stands there. -/
theorem and_fieldMask (w : Word) (lo len : Nat) :
    w &&& ((BitVec.allOnes len).setWidth 32 <<< lo) = (w.extractLsb' lo len).setWidth 32 <<< lo := by
  apply BitVec.eq_of_getLsbD_eq
  intro j hj
  simp only [BitVec.getLsbD_and, BitVec.getLsbD_shiftLeft, BitVec.getLsbD_setWidth, BitVec.getLsbD_allOnes,
    BitVec.getLsbD_extractLsb']
  rcases lt_or_ge j lo with h | h
  · simp [h]
  · rw [Nat.add_sub_cancel' h]
    simp only [Bool.and_assoc, Bool.and_left_comm, Bool.and_comm]

/-- The OP field is what the mask 0xFF keeps. -/
theorem and_opMask (w : Word) : w &&& 0xFF = (opField w).setWidth 32 := by
  rw [← BitVec.shiftLeft_zero (x := BitVec.setWidth 32 _)]
  exact and_fieldMask w 0 8

@[simp] theorem opField_setWidth (b : BitVec 8) : opField (b.setWidth 32) = b := by
  apply BitVec.eq_of_toNat_eq
  rw [opField, BitVec.extractLsb'_toNat, BitVec.toNat_setWidth, Nat.shiftRight_zero]
  omega

/-- The N field is what the mask of bits 14:8 keeps. -/
theorem and_nMask (w : Word) : w &&& (0x7F00 : Word) = BitVec.ofNat 32 (nField w) <<< 8 := by
  have hfield : BitVec.ofNat 32 (nField w) = (w.extractLsb' 8 7).setWidth 32 := BitVec.ofNat_toNat 32 _
  rw [hfield]
  exact and_fieldMask w 8 7

/-- The T field is what the mask of bit 15 keeps. -/
theorem and_tMask (w : Word) : w &&& (0x8000 : Word) = (BitVec.ofBool (tField w)).setWidth 32 <<< 15 := by
  have hbit : w.extractLsb' 15 1 = BitVec.ofBool (tField w) := by
    apply BitVec.eq_of_getLsbD_eq
    intro j hj
    obtain rfl : j = 0 := by omega
    simp [tField]
  rw [← hbit]
  exact and_fieldMask w 15 1

theorem nField_eq (w : Word) : nField w = w.toNat / 256 % 128 := by
  rw [nField, BitVec.extractLsb'_toNat, Nat.shiftRight_eq_div_pow]

theorem tField_eq_true_iff (w : Word) : tField w = true ↔ w.toNat / 32768 % 2 = 1 := by
  simp [tField, BitVec.getLsbD, Nat.testBit_eq_decide_div_mod_eq]

/-! ### One command per opcode, and what each needs of its word (R93, R94) -/

/-- The opcode of a command (R94). -/
def Instr.opcode : Instr → BitVec 8
  | .init => 0x01
  | .append _ => 0x02
  | .finalize => 0x03
  | .xofBlock => 0x04
  | .compress _ => 0x05

/-- The command of the same opcode whose operands are those in the word (R92). -/
def Instr.withOperandsOf (w : Word) : Instr → Instr
  | .append _ => .append (nField w)
  | .compress _ => .compress (tField w)
  | .init => .init
  | .finalize => .finalize
  | .xofBlock => .xofBlock

@[simp] theorem rowOf_withOperandsOf (w : Word) (i : Instr) : rowOf (i.withOperandsOf w) = rowOf i := by cases i <;> rfl

@[simp] theorem withOperandsOf_idem (w : Word) (i : Instr) :
    (i.withOperandsOf w).withOperandsOf w = i.withOperandsOf w := by cases i <;> rfl

/-- The rows of the opcode map are the commands' rows (R94). -/
theorem mem_opcodeMap_iff (r : OpRow) : r ∈ opcodeMap ↔ ∃ i, r = rowOf i := by
  simp only [opcodeMap, List.mem_cons, List.not_mem_nil, or_false]
  constructor
  · rintro (h | h | h | h | h)
    exacts [⟨.init, h⟩, ⟨.append 0, h⟩, ⟨.finalize, h⟩, ⟨.xofBlock, h⟩, ⟨.compress false, h⟩]
  · rintro ⟨i, rfl⟩
    cases i <;> simp [rowOf]

/-- No two rows of the opcode map match the same bits (R94). -/
theorem eq_of_matchBits_eq : ∀ r ∈ opcodeMap, ∀ r' ∈ opcodeMap, r.matchBits = r'.matchBits → r = r' := by decide

theorem matchBits_rowOf (i : Instr) : (rowOf i).matchBits = i.opcode.setWidth 32 := by cases i <;> rfl

/-- A row's mask is the opcode and the bits that it does not use (R93, R94). -/
theorem mask_rowOf (i : Instr) : (rowOf i).mask = ~~~usedBits i.opcode ||| 0xFF := by
  cases i <;> simp only [rowOf, Instr.opcode] <;> decide

/-- Every opcode uses the bits of the OP field (R93). -/
theorem opMask_and_not_usedBits (op : BitVec 8) : 0xFF &&& ~~~usedBits op = 0 := by
  rw [usedBits]; split_ifs <;> decide

theorem setWidth_and_not_usedBits (b op : BitVec 8) : b.setWidth 32 &&& ~~~usedBits op = 0 := by
  rw [← opField_setWidth b, ← and_opMask, BitVec.and_assoc, opMask_and_not_usedBits]
  exact BitVec.and_zero

/-- A word that names a command: its reserved bits decide whether it decodes, and its fields are the operands (R93). -/
theorem decode_of_opcode {w : Word} {i : Instr} (h : opField w = i.opcode) :
    decode w = if w &&& ~~~usedBits i.opcode ≠ 0 then .error .reservedBits else .ok (i.withOperandsOf w) := by
  cases i <;> simp only [decode, h] <;> rfl

/-- A word that names no command (R93). -/
theorem decode_of_no_opcode {w : Word} (h : ∀ i : Instr, opField w ≠ i.opcode) : decode w = .error .illegalOpcode :=
  if_pos ⟨h .init, h (.append 0), h .finalize, h .xofBlock, h (.compress false)⟩

/-- A word selects a command's row exactly when it holds the opcode and no bit that the opcode does not use (R93, R94). -/
theorem selects_rowOf_iff (i : Instr) (w : Word) :
    (rowOf i).selects w = true ↔ opField w = i.opcode ∧ w &&& ~~~usedBits i.opcode = 0 := by
  rw [OpRow.selects, beq_iff_eq, mask_rowOf, matchBits_rowOf, BitVec.and_or_distrib_left, and_opMask]
  constructor
  · intro h
    have hres : w &&& ~~~usedBits i.opcode = 0 := by
      calc w &&& ~~~usedBits i.opcode
          = ((w &&& ~~~usedBits i.opcode) ||| (opField w).setWidth 32) &&& ~~~usedBits i.opcode := by
            rw [BitVec.and_or_distrib_right, setWidth_and_not_usedBits, BitVec.and_assoc, BitVec.and_self]
            exact BitVec.or_zero.symm
        _ = 0 := by rw [h, setWidth_and_not_usedBits]
    have hop : (opField w).setWidth 32 = i.opcode.setWidth 32 := by
      rw [hres] at h
      exact BitVec.zero_or.symm.trans h
    exact ⟨by simpa using congrArg opField hop, hres⟩
  · rintro ⟨hop, hres⟩
    rw [hres, hop]
    exact BitVec.zero_or

/-- A word decodes to the command whose row it selects and whose operands it holds, and to no other (R93, R94). -/
theorem decode_eq_ok_iff (w : Word) (i : Instr) :
    decode w = .ok i ↔ (rowOf i).selects w = true ∧ i.withOperandsOf w = i := by
  constructor
  · intro h
    by_cases hj : ∃ j : Instr, opField w = j.opcode
    · obtain ⟨j, hj⟩ := hj
      rw [decode_of_opcode hj] at h
      split at h
      · cases h
      · next hres =>
        injection h with h
        subst h
        rw [rowOf_withOperandsOf, withOperandsOf_idem, selects_rowOf_iff]
        exact ⟨⟨hj, not_not.1 hres⟩, rfl⟩
    · rw [decode_of_no_opcode (not_exists.1 hj)] at h
      cases h
  · rintro ⟨hsel, hargs⟩
    obtain ⟨hop, hres⟩ := (selects_rowOf_iff i w).1 hsel
    rw [decode_of_opcode hop, if_neg (not_not.2 hres), hargs]

/-- Settles O31. -/
theorem decodeFollowsOpcodeMap : Obligations.DecodeFollowsOpcodeMap := by
  refine ⟨fun w => ⟨?_, ?_⟩, fun w i h => ?_, fun w r r' hr hr' hs hs' => ?_, fun w n h => ?_, fun w t h => ?_⟩
  · rintro ⟨i, h⟩
    exact ⟨rowOf i, (mem_opcodeMap_iff _).2 ⟨i, rfl⟩, ((decode_eq_ok_iff w i).1 h).1⟩
  · rintro ⟨r, hr, hs⟩
    obtain ⟨i, rfl⟩ := (mem_opcodeMap_iff r).1 hr
    exact ⟨i.withOperandsOf w, (decode_eq_ok_iff w _).2 ⟨by rwa [rowOf_withOperandsOf], withOperandsOf_idem w i⟩⟩
  · exact ⟨(mem_opcodeMap_iff _).2 ⟨i, rfl⟩, ((decode_eq_ok_iff w i).1 h).1⟩
  · refine eq_of_matchBits_eq r hr r' hr' ?_
    obtain ⟨i, rfl⟩ := (mem_opcodeMap_iff r).1 hr
    obtain ⟨j, rfl⟩ := (mem_opcodeMap_iff r').1 hr'
    obtain ⟨hi, _⟩ := (selects_rowOf_iff i w).1 hs
    obtain ⟨hj, _⟩ := (selects_rowOf_iff j w).1 hs'
    rw [matchBits_rowOf, matchBits_rowOf, ← hi, ← hj]
  · obtain ⟨_, hn⟩ := (decode_eq_ok_iff w _).1 h
    rw [Instr.withOperandsOf, nField_eq] at hn
    injection hn with hn
    exact hn.symm
  · obtain ⟨_, ht⟩ := (decode_eq_ok_iff w _).1 h
    injection ht with ht
    rw [← ht, tField_eq_true_iff]

/-! ### Encoding and decoding undo each other (R93, R97) -/

/-- T stands in bit 15 (R97). -/
theorem encode_compress (t : Bool) : encode (.compress t) = 0x00000005 ||| ((BitVec.ofBool t).setWidth 32 <<< 15) := by
  cases t <;> decide

/-- A word without reserved bits that holds a command's opcode and operands is the command's word. -/
theorem encode_withOperandsOf {w : Word} {i : Instr} (hop : opField w = i.opcode)
    (hres : w &&& ~~~usedBits i.opcode = 0) : encode (i.withOperandsOf w) = w := by
  have hused : w &&& usedBits i.opcode = w := by
    calc w &&& usedBits i.opcode
        = (w &&& usedBits i.opcode) ||| (w &&& ~~~usedBits i.opcode) := by rw [hres]; exact BitVec.or_zero.symm
      _ = w := by rw [← BitVec.and_or_distrib_left, BitVec.or_not_self, BitVec.and_allOnes]
  have hopw : w &&& 0xFF = i.opcode.setWidth 32 := by rw [and_opMask, hop]
  cases i with
  | append n =>
    calc encode (.append (nField w)) = (w &&& 0xFF) ||| (w &&& (0x7F00 : Word)) := by rw [hopw, and_nMask]; rfl
      _ = w &&& usedBits 0x02 := BitVec.and_or_distrib_left.symm
      _ = w := hused
  | compress t =>
    calc encode (.compress (tField w)) = (w &&& 0xFF) ||| (w &&& (0x8000 : Word)) := by
          rw [hopw, and_tMask, encode_compress]; rfl
      _ = w &&& usedBits 0x05 := BitVec.and_or_distrib_left.symm
      _ = w := hused
  | init => exact hopw.symm.trans hused
  | finalize => exact hopw.symm.trans hused
  | xofBlock => exact hopw.symm.trans hused

/-- The N field holds at most 127 (R92). -/
theorem wellFormed_withOperandsOf (w : Word) (i : Instr) : (i.withOperandsOf w).wellFormed = true := by
  cases i with
  | append n => simp only [Instr.withOperandsOf, Instr.wellFormed, nField_eq, decide_eq_true_eq]; omega
  | _ => rfl

/-- Settles O30: the word is put together again from its opcode and its operands. -/
theorem encodeOfDecode : Obligations.EncodeOfDecode := by
  intro w i h
  obtain ⟨hsel, hargs⟩ := (decode_eq_ok_iff w i).1 h
  obtain ⟨hop, hres⟩ := (selects_rowOf_iff i w).1 hsel
  rw [← hargs]
  exact ⟨encode_withOperandsOf hop hres, wellFormed_withOperandsOf w i⟩

/-- The word of `append N` as a number (R97). -/
theorem encode_append_toNat {n : Nat} (hn : n ≤ 127) : (encode (.append n)).toNat = n * 256 + 2 := by
  have hshift : (BitVec.ofNat 32 n <<< 8).toNat = n <<< 8 := by
    rw [BitVec.toNat_shiftLeft, BitVec.toNat_ofNat, Nat.shiftLeft_eq, Nat.shiftLeft_eq]; omega
  rw [encode, BitVec.toNat_or, hshift, Nat.or_comm, ← Nat.shiftLeft_eq n 8]
  exact (Nat.shiftLeft_add_eq_or_of_lt (by decide) n).symm

/-- The word of a well-formed command selects its row (R94). -/
theorem selects_encode {i : Instr} (hw : i.wellFormed = true) : (rowOf i).selects (encode i) = true :=
  match i with
  | .init => Laws.Row.init hw
  | .append n => Laws.Row.append n hw
  | .finalize => Laws.Row.finalize hw
  | .xofBlock => Laws.Row.xofBlock hw
  | .compress t => Laws.Row.compress t hw

/-- The word of a well-formed command holds its operands (R97). -/
theorem withOperandsOf_encode {i : Instr} (hw : i.wellFormed = true) : i.withOperandsOf (encode i) = i := by
  cases i with
  | append n =>
    have hn : n ≤ 127 := by simpa [Instr.wellFormed] using hw
    rw [Instr.withOperandsOf, nField_eq, encode_append_toNat hn]
    congr 1; omega
  | compress t => cases t <;> rfl
  | init => rfl
  | finalize => rfl
  | xofBlock => rfl

/-- Settles O29: the word of the command selects its row and holds its operands. -/
theorem decodeOfEncode : Obligations.DecodeOfEncode := fun i hw =>
  (decode_eq_ok_iff _ i).2 ⟨selects_encode hw, withOperandsOf_encode hw⟩

/-- Settles O34: each word is decoded by its opcode, its reserved bits and its fields. -/
theorem decodeSanity : Obligations.DecodeSanity := by
  unfold Obligations.DecodeSanity
  decide

end Sys2Proof

namespace Sys2Proof.Machine

/-! ### Host statements (R96, R98) -/

theorem loWord_ofInt (v : Int) : loWord (BitVec.ofInt 64 v) = BitVec.ofInt 32 v := by
  apply BitVec.eq_of_toNat_eq
  rw [loWord, BitVec.extractLsb'_toNat, BitVec.toNat_ofInt, BitVec.toNat_ofInt, Nat.shiftRight_zero]
  omega

theorem hiWord_ofInt (v : Int) : hiWord (BitVec.ofInt 64 v) = BitVec.ofInt 32 (v / 2 ^ 32) := by
  apply BitVec.eq_of_toNat_eq
  rw [hiWord_eq, BitVec.toNat_ofNat, BitVec.toNat_ofInt, BitVec.toNat_ofInt]
  omega

theorem hiLo_hiWord_loWord (x : BitVec 64) : hiLo (hiWord x) (loWord x) = x := by
  rw [hiLo_eq, hiWord_eq, loWord]
  apply BitVec.eq_of_toNat_eq
  simp only [BitVec.toNat_ofNat, BitVec.extractLsb'_toNat, Nat.shiftRight_zero]
  omega

/-- The high half written after the low half sets the whole register (R62(d), R98). -/
theorem setHalf_setHalf (x y : BitVec 64) : setHalf true (setHalf false x (loWord y)) (hiWord y) = y := by
  simp only [setHalf, loWord_hiLo, if_true, Bool.false_eq_true, if_false, hiLo_hiWord_loWord]

/-- Settles O52: OUTLEN is found at its two offsets, and its halves are written one after the other. -/
theorem wr64WritesWholeRegister : Obligations.Wr64WritesWholeRegister := by
  refine ⟨fun off v => ?_, by decide, fun s v hb => ?_⟩
  · rw [wr64Stmts, loWord_ofInt, hiWord_ofInt]; rfl
  · generalize BitVec.ofInt 64 v = x
    have hlo := busWrite_offset hb (.outlen false) (loWord x)
    have hhi := busWrite_offset (s := writeLoc (loWord x) s (.outlen false)) hb (.outlen true) (hiWord x)
    calc (busWrite 0x020 4 (loWord x) s).bind (busWrite 0x024 4 (hiWord x))
        = busWrite 0x024 4 (hiWord x) (writeLoc (loWord x) s (.outlen false)) := congrArg (Except.bind · _) hlo
      _ = .ok (writeLoc (hiWord x) (writeLoc (loWord x) s (.outlen false)) (.outlen true)) := hhi
      _ = .ok { s with outlen := x } := by simp only [writeLoc, setHalf_setHalf]

/-- The mask test of a variable that is not negative, on natural numbers (R96). -/
theorem maskVar_eq_zero_iff {v : Int} (h : 0 ≤ v) (mask : Word) : maskVar v mask = 0 ↔ v.toNat &&& mask.toNat = 0 := by
  obtain ⟨n, rfl⟩ := Int.eq_ofNat_of_zero_le h
  have hmask : mask.toNat = mask.toNat % 2 ^ 32 := (Nat.mod_eq_of_lt mask.isLt).symm
  have hlt : n &&& mask.toNat < 2 ^ 32 := Nat.and_lt_two_pow n mask.isLt
  have hnat : (maskVar n mask).toNat = n &&& mask.toNat := by
    rw [maskVar, BitVec.ofInt_natCast, BitVec.toNat_and, BitVec.toNat_ofNat, hmask, ← Nat.and_mod_two_pow, ← hmask,
      Nat.mod_eq_of_lt hlt]
  rw [Int.toNat_natCast, ← hnat, ← BitVec.toNat_inj]
  rfl

/-- A branch to a label the program defines goes there, and where its condition fails the host moves on (R96). -/
theorem jumpIf_eq {s : State} {l k : Nat} (hl : labelIndex l s.host.prog 0 = some k) (c : Bool) :
    jumpIf c l s = .next { s with host := { s.host with pos := if c then k else s.host.pos + 1 } } := by
  cases c with
  | false => rfl
  | true => rw [jumpIf, if_pos rfl, jump, hl]; rfl

theorem setVar_same (x : Fin 32) (v : Int) (s : State) : (setVar x v s).host.vars[x] = v := by
  simp

theorem setVar_other {x z : Fin 32} (h : z ≠ x) (v : Int) (s : State) :
    (setVar x v s).host.vars[z] = s.host.vars[z] :=
  Vector.getElem_set_ne x.isLt z.isLt fun hxz => h (Fin.ext hxz.symm)

/-- A read changes no state of the host (R68). -/
theorem busRead_host {off width : Nat} {v : Word} {s t : State} (h : busRead off width s = .ok (v, t)) :
    t.host = s.host := by
  cases hc : checkAccess true off width s with
  | error f => rw [busRead, hc] at h; cases h
  | ok u =>
    rw [busRead, hc] at h
    injection h with h
    injection h with _ ht
    rw [← ht]
    split <;> rfl

/-- Settles O53. -/
theorem hostStatementEffects : Obligations.HostStatementEffects := by
  refine fun s => ⟨fun off v t h => ?_, fun x off v t h => ?_, fun l => rfl, fun x y imm => ?_, rfl, fun l k hl => ?_⟩
  · rw [execHost, h]
  · rw [execHost, h]
    refine ⟨_, rfl, setVar_same x v.toNat t, fun z hz => ?_, ?_⟩
    · rw [← busRead_host h]; exact setVar_other hz _ t
    · rw [← busRead_host h]; rfl
  · exact ⟨_, rfl, setVar_same x _ s, fun z hz => setVar_other hz _ s, rfl⟩
  · refine ⟨fun x mask hx => ?_, ?_, fun x y => ?_⟩
    · rw [execHost, execHost, jumpIf_eq hl, jumpIf_eq hl]
      simp only [bne_iff_ne, beq_iff_eq, ne_eq, ite_not, maskVar_eq_zero_iff hx, and_self]
    · rw [execHost, jump, hl]
    · rw [execHost, jumpIf_eq hl]; simp only [decide_eq_true_eq]

end Sys2Proof.Machine

namespace Sys2Proof.Machine

/-! ### A completion step does not look at the host (R296) -/

/-- The state with the host agent and the latency counter replaced. -/
def withHost (a : HostAgent) (d : Nat) (s : State) : State := { s with host := a, coreDelay := d }

theorem commandCheck_withHost (i : Instr) (a : HostAgent) (d : Nat) (s : State) :
    commandCheck i (withHost a d s) = commandCheck i s := by
  cases i <;> rfl

theorem commandWork_withHost (i : Instr) (a : HostAgent) (d : Nat) (s : State) :
    commandWork i (withHost a d s) = (commandWork i s).map (withHost a d) := by
  cases i with
  | append n =>
    show (appendBytes (appendOperand n s) s.hasher).map _ = ((appendBytes (appendOperand n s) s.hasher).map _).map _
    cases appendBytes (appendOperand n s) s.hasher <;> rfl
  | finalize =>
    show (selectRoot s.hasher).map _ = ((selectRoot s.hasher).map _).map _
    cases selectRoot s.hasher <;> rfl
  | init => rfl
  | xofBlock => rfl
  | compress t => rfl

/-- A completion step that answers gives the same registers whatever the host does. -/
theorem coreStep_withHost {s u : State} (h : coreStep s = .next u) (a : HostAgent) (d : Nat) :
    coreStep (withHost a d s) = .next (withHost a d u) := by
  have hlatch : (withHost a d s).cmdLatch = s.cmdLatch := rfl
  rw [coreStep] at h ⊢
  rw [hlatch]
  cases hd : decode s.cmdLatch with
  | error e =>
    simp only [hd] at h
    injection h with h
    exact h ▸ rfl
  | ok i =>
    simp only [hd] at h
    simp only
    rcases exec_next h with ⟨e, hc, rfl⟩ | ⟨hc, v, hw, rfl⟩
    · rw [exec_eq, commandCheck_withHost, hc]; rfl
    · rw [exec_eq, commandCheck_withHost, hc, commandWork_withHost, hw]; rfl

/-- A completion step that answers ends the command (R296, R268). -/
theorem coreStep_busy {s u : State} (h : coreStep s = .next u) : u.busy = false := by
  rcases coreStep_next h with ⟨e, rfl⟩ | ⟨i, v, _, _, _, rfl⟩ <;> rfl

/-! ### Runs -/

/-- Some number of steps leads from one state to the other. -/
def Reaches (s t : State) : Prop := ∃ n, runSteps n s = .next t

theorem Reaches.refl (s : State) : Reaches s s := ⟨0, rfl⟩

theorem Reaches.head {s t u : State} (h : step s = .next t) (htu : Reaches t u) : Reaches s u := by
  obtain ⟨n, hn⟩ := htu
  exact ⟨n + 1, by rw [runSteps, h]; exact hn⟩

theorem Reaches.trans {s t u : State} (hst : Reaches s t) (htu : Reaches t u) : Reaches s u := by
  obtain ⟨n, hn⟩ := hst
  induction n generalizing s with
  | zero => injection hn with hn; exact hn ▸ htu
  | succ n ih =>
    rw [runSteps] at hn
    cases h : step s with
    | next v => rw [h] at hn; exact .head h (ih hn)
    | fault f => rw [h] at hn; cases hn
    | refused r => rw [h] at hn; cases hn

/-! ### The three statements of a poll (R99) -/

/-- The program has the poll with label `k` at position `b`. -/
structure PollAt (k b : Nat) (prog : List HostStmt) : Prop where
  label : prog[b]? = some (.label k)
  read : prog[b + 1]? = some (rd4 31 0x004)
  branch : prog[b + 2]? = some (.bnz 31 0x2 k)
  target : labelIndex k prog 0 = some b

theorem pollAt_of_eq {k : Nat} {prog before after : List HostStmt} (h : prog = before ++ pollStmts k ++ after)
    (hl : labelIndex k prog 0 = some before.length) : PollAt k before.length prog := by
  have hget : ∀ j, j < 3 → prog[before.length + j]? = (pollStmts k)[j]? := fun j hj => by
    rw [h, List.append_assoc, List.getElem?_append_right (by omega), Nat.add_sub_cancel_left,
      List.getElem?_append_left hj]
  exact ⟨hget 0 (by omega), hget 1 (by omega), hget 2 (by omega), hl⟩

/-- The host is inside the poll at position `b`, and where it is about to branch it has read BUSY = 1. -/
def Polling (k b : Nat) (a : HostAgent) : Prop :=
  PollAt k b a.prog ∧ (a.pos = b ∨ a.pos = b + 1 ∨ (a.pos = b + 2 ∧ maskVar a.vars[31] 0x2 ≠ 0))

/-- The host agent moved to a position. -/
def HostAgent.atPos (a : HostAgent) (p : Nat) : HostAgent := { a with pos := p }

/-- The host agent after it has read the STATUS word into x31. -/
def HostAgent.afterStatus (a : HostAgent) (w : Word) : HostAgent :=
  { a with pos := a.pos + 1, vars := a.vars.set 31 (Int.ofNat w.toNat) }

/-- STATUS may be read while a command is in flight (R297), and the read changes nothing (R68). -/
theorem busRead_status (s : State) : busRead 0x004 4 s = .ok (statusWord s, s) := by
  have hc : checkAccess true 0x004 4 s = .ok () := by
    rw [checkAccess, if_neg (by decide), if_neg (by decide), if_neg (by simp)]
  rw [busRead, hc]; rfl

/-- The mask 0x2 of a STATUS word is its BUSY bit (R36, R99). -/
theorem maskVar_statusWord (s : State) : maskVar (Int.ofNat (statusWord s).toNat) 0x2 = flagIf s.busy 2 := by
  have hbits : ∀ p b e : Bool, (flagIf p 1 ||| flagIf b 2 ||| flagIf e 4) &&& (0x2 : Word) = flagIf b 2 := by decide
  have hword : BitVec.ofInt 32 (Int.ofNat (statusWord s).toNat) = statusWord s := by
    rw [Int.ofNat_eq_natCast, BitVec.ofInt_natCast, BitVec.ofNat_toNat, BitVec.setWidth_eq]
  rw [maskVar, hword]
  exact hbits _ _ _

/-- The branch of the poll sees the BUSY bit that its read has seen. -/
theorem afterStatus_mask (a : HostAgent) (s : State) :
    maskVar (a.afterStatus (statusWord s)).vars[31] 0x2 = flagIf s.busy 2 := by
  rw [← maskVar_statusWord s]
  simp [HostAgent.afterStatus]

section
variable {k b : Nat} {s : State} (hp : PollAt k b s.host.prog)
include hp

theorem hostStep_poll_label (hpos : s.host.pos = b) :
    hostStep s = .next { tick s with host := s.host.atPos (b + 1) } := by
  rw [hostStep, hpos, hp.label]
  simp only [execHost, advance, tick_host, hpos]; rfl

theorem hostStep_poll_read (hpos : s.host.pos = b + 1) :
    hostStep s = .next { tick s with host := s.host.afterStatus (statusWord s) } := by
  have hstatus : statusWord (tick s) = statusWord s := by simp [statusWord]
  rw [hostStep, hpos, hp.read]
  simp only [rd4, execHost, busRead_status, hstatus]
  simp only [advance, setVar, tick_host]; rfl

theorem hostStep_poll_branch (hpos : s.host.pos = b + 2) :
    hostStep s =
      .next { tick s with host := s.host.atPos (if maskVar s.host.vars[31] 0x2 ≠ 0 then b else b + 3) } := by
  have hl : labelIndex k (tick s).host.prog 0 = some b := by rw [tick_host]; exact hp.target
  rw [hostStep, hpos, hp.branch]
  simp only [execHost]
  rw [jumpIf_eq hl]
  simp only [tick_host, hpos, bne_iff_ne, HostAgent.atPos]
  rfl

end

/-! ### While the command is in flight the host goes round the poll (R71, R99) -/

theorem step_of_core {s : State} (hb : s.busy = true) (hd : s.coreDelay = 0) : step s = coreStep s := by
  simp [step, stepAgents, coreTurn, hb, hd]

theorem step_of_host {s : State} (h : s.busy = false ∨ s.coreDelay ≠ 0) : step s = hostStep s := by
  have hturn : coreTurn s = false := by rcases h with h | h <;> simp [coreTurn, h]
  rw [step, stepAgents, hturn]; rfl

/-- A host step of the poll in flight stays in the poll. -/
theorem hostStep_polling {k b : Nat} {s : State} (hb : s.busy = true) (hp : Polling k b s.host) :
    ∃ a, hostStep s = .next { tick s with host := a } ∧ Polling k b a ∧ a.prog = s.host.prog := by
  obtain ⟨hat, hpos | hpos | ⟨hpos, hx⟩⟩ := hp
  · exact ⟨_, hostStep_poll_label hat hpos, ⟨hat, .inr (.inl rfl)⟩, rfl⟩
  · refine ⟨_, hostStep_poll_read hat hpos, ⟨hat, .inr (.inr ⟨congrArg (· + 1) hpos, ?_⟩)⟩, rfl⟩
    rw [afterStatus_mask, hb]
    decide
  · refine ⟨_, hostStep_poll_branch hat hpos, ⟨hat, .inl ?_⟩, rfl⟩
    rw [if_pos hx]; rfl

/-- The latency passes with the host in the poll, and nothing but the host and the latency counter changes. -/
theorem reaches_core_turn {k b : Nat} (d : Nat) : ∀ {s : State}, s.busy = true → s.coreDelay = d →
    Polling k b s.host → ∃ a, Reaches s (withHost a 0 s) ∧ Polling k b a ∧ a.prog = s.host.prog := by
  induction d with
  | zero => intro s _ hd hp; exact ⟨s.host, hd ▸ Reaches.refl s, hp, rfl⟩
  | succ d ih =>
    intro s hb hd hp
    obtain ⟨a, hstep, ha, hprog⟩ := hostStep_polling hb hp
    have htick : { tick s with host := a } = withHost a d s := by
      rw [tick, if_pos hb, hd]; rfl
    obtain ⟨a', hreach, ha', hprog'⟩ := ih (s := withHost a d s) hb rfl ha
    exact ⟨a', .head (by rw [step_of_host (.inr (by omega)), hstep, htick]) hreach, ha', hprog'.trans hprog⟩

/-! ### After the completion step the host leaves the poll (R99) -/

/-- The host reaches the statement after the poll, and nothing but the host changes on the way. -/
def Leaves (b : Nat) (s : State) : Prop :=
  ∃ a, Reaches s { s with host := a } ∧ a.pos = b + 3 ∧ a.prog = s.host.prog

/-- One host step of an idle block on the way out of the poll. -/
theorem Leaves.head {b : Nat} {s : State} {a : HostAgent} (hb : s.busy = false)
    (h : hostStep s = .next { tick s with host := a }) (hprog : a.prog = s.host.prog)
    (hl : Leaves b { s with host := a }) : Leaves b s := by
  obtain ⟨c, hreach, hpos, hc⟩ := hl
  have htick : tick s = s := by simp [tick, hb]
  exact ⟨c, .head (by rw [step_of_host (.inl hb), h, htick]) hreach, hpos, hc.trans hprog⟩

/-- From the read on, an idle block lets the host pass the branch. -/
theorem leaves_of_read {k b : Nat} {s : State} (hb : s.busy = false) (hat : PollAt k b s.host.prog)
    (hpos : s.host.pos = b + 1) : Leaves b s := by
  refine .head hb (hostStep_poll_read hat hpos) rfl (.head hb (hostStep_poll_branch hat (congrArg (· + 1) hpos)) rfl
    ⟨_, .refl _, ?_, rfl⟩)
  rw [afterStatus_mask, hb]
  rfl

theorem leaves_of_label {k b : Nat} {s : State} (hb : s.busy = false) (hat : PollAt k b s.host.prog)
    (hpos : s.host.pos = b) : Leaves b s :=
  .head hb (hostStep_poll_label hat hpos) rfl (leaves_of_read hb hat rfl)

theorem leaves_of_polling {k b : Nat} {s : State} (hb : s.busy = false) (hp : Polling k b s.host) : Leaves b s := by
  obtain ⟨hat, hpos | hpos | ⟨hpos, hx⟩⟩ := hp
  · exact leaves_of_label hb hat hpos
  · exact leaves_of_read hb hat hpos
  · refine .head hb (hostStep_poll_branch hat hpos) rfl (leaves_of_label hb hat ?_)
    exact if_pos hx

/-- Settles O60: the latency passes in the poll, the completion step does not look at the host, and then the poll reads
BUSY = 0. -/
theorem pollReturnsAfterCompletion : Obligations.PollReturnsAfterCompletion := by
  intro s u before after k hb hcore hprog hpos hl
  obtain ⟨a, hreach, ha, haprog⟩ := reaches_core_turn s.coreDelay hb rfl ⟨pollAt_of_eq hprog hl, .inl hpos⟩
  have hstep : step (withHost a 0 s) = .next (withHost a 0 u) :=
    (step_of_core (s := withHost a 0 s) hb rfl).trans (coreStep_withHost hcore a 0)
  have hidle : u.busy = false := coreStep_busy hcore
  obtain ⟨c, hleave, hcpos, hcprog⟩ := leaves_of_polling (s := withHost a 0 u) hidle ha
  obtain ⟨n, hn⟩ := hreach.trans (.head hstep hleave)
  exact ⟨n, _, hn, hcpos, rfl, hcprog.trans haprog⟩

end Sys2Proof.Machine

namespace Sys2Proof.Machine

/-! ### The words of a block built from two halves (R8, R127, R131) -/

theorem cat8_getElem_low (a b : CV) (i : Nat) (hi : i < 8) : (cat8 a b)[i] = a[i] := by
  interval_cases i <;> rfl

theorem cat8_getElem_high (a b : CV) (i : Nat) (hi : i < 8) : (cat8 a b)[i + 8] = b[i] := by
  interval_cases i <;> rfl

theorem outWords_getElem_low (o : CompOut) (i : Nat) (hi : i < 8) : (outWords o)[i] = o.cv[i] :=
  cat8_getElem_low _ _ i hi

theorem outWords_getElem_high (o : CompOut) (i : Nat) (hi : i < 8) :
    (outWords o)[i + 8] = (o.forward.getD (Vector.replicate 8 0))[i] :=
  cat8_getElem_high _ _ i hi

/-! ### The compression function, part by part (R121 to R127) -/

theorem initState_getElem_low (h : CV) (t : BitVec 64) (b d : Word) (i : Nat) (hi : i < 8) :
    (initState h t b d)[i] = h[i] := by
  interval_cases i <;> rfl

theorem initState_getElem_iv (h : CV) (t : BitVec 64) (b d : Word) (i : Nat) (hi : i < 4) :
    (initState h t b d)[i + 8] = iv[i] := by
  interval_cases i <;> rfl

theorem loWord_eq (x : BitVec 64) : loWord x = BitVec.ofNat 32 x.toNat := rfl

/-- Word by word, the four values a round passes from its column steps to its diagonal steps are those the mixing steps
by index leave at the places the next step reads (R123). -/
theorem round_eq_eightSteps (v s : Block) : round v s = eightSteps v s := by
  ext i hi
  interval_cases i <;> simp [round, eightSteps, stepG_getElem]

theorem rounds_zero (v s : Block) : rounds 0 v s = v := rfl

/-- One round more is a round at the end, with the schedule permuted once for each round before it (R124, R125). -/
theorem rounds_succ (n : Nat) : ∀ v s : Block, rounds (n + 1) v s = round (rounds n v s) (permuteTimes n s) := by
  induction n with
  | zero => exact fun _ _ => rfl
  | succ n ih => exact fun v s => ih (round v s) (permute s)

theorem chainingHalf_getElem (v : Block) (i : Nat) (hi : i < 8) : (chainingHalf v)[i] = v[i] ^^^ v[i + 8] := by
  interval_cases i <;> rfl

theorem forwardHalf_getElem (v : Block) (h : CV) (i : Nat) (hi : i < 8) : (forwardHalf v h)[i] = v[i + 8] ^^^ h[i] := by
  interval_cases i <;> rfl

theorem compress_cv (h : CV) (m : Block) (t : BitVec 64) (b d : Word) (truncate : Bool) :
    (compress h m t b d truncate).cv = chainingHalf (rounds 7 (initState h t b d) m) := rfl

theorem compress_forward (h : CV) (m : Block) (t : BitVec 64) (b d : Word) (truncate : Bool) :
    (compress h m t b d truncate).forward =
      if truncate then none else some (forwardHalf (rounds 7 (initState h t b d) m) h) := rfl

/-- Settles O26, from one lemma per part of the compression function. -/
theorem compressionOutputHalves : Obligations.CompressionOutputHalves := by
  intro h m t b d v0 v full cut
  have hrounds : v = round (round (round (round (round (round (round v0 (permuteTimes 0 m)) (permuteTimes 1 m))
      (permuteTimes 2 m)) (permuteTimes 3 m)) (permuteTimes 4 m)) (permuteTimes 5 m)) (permuteTimes 6 m) := by
    simp only [v, rounds_succ, rounds_zero]
  have hcv : ∀ i (hi : i < 8), full.cv[i] = v[i] ^^^ v[i + 8] := fun i hi => by
    simp only [full, compress_cv, chainingHalf_getElem, v, v0]
  have hforward : ∀ i (hi : i < 8), (outWords full)[i + 8] = v[i + 8] ^^^ h[i] := fun i hi => by
    simp [full, outWords_getElem_high, compress_forward, forwardHalf_getElem, v, v0, hi]
  exact ⟨initState_getElem_low h t b d, initState_getElem_iv h t b d, loWord_eq t, hiWord_eq t, rfl, rfl,
    round_eq_eightSteps, hrounds, hcv, rfl, rfl, fun i hi => (outWords_getElem_low full i hi).trans (hcv i hi), hforward⟩

/-- Settles O27, each row by computing the permutations of the one literal message the statement names. -/
theorem messageScheduleTable : Obligations.MessageScheduleTable :=
  ⟨rfl, rfl, rfl, rfl, rfl, rfl, rfl⟩

/-! ### The COMPRESS command (R131) -/

/-- COMPRESS checks no operand, so it always ends in success with its writes done. -/
theorem exec_compress (c : Bool) (s : State) : exec (.compress c) s = .next (succeed (withCompression c s)) :=
  exec_eq (.compress c) s

/-- Settles O25: the frame is that of COMPRESS's writes, and a truncated output fills words 8 to 15 of OUT with 0. -/
theorem compressCompletes : Obligations.CompressCompletes := by
  intro s
  refine ⟨⟨_, exec_compress true s, rfl, fun i hi => ?_, fun i hi => ?_⟩, ⟨_, exec_compress false s, rfl, rfl⟩⟩
  · exact outWords_getElem_low _ i hi
  · simp [withCompression, outWords_getElem_high, compress_forward, hi]

end Sys2Proof.Machine

namespace Sys2Proof.Machine

/-! ### The last block of a chunk (R151 to R156) -/

/-- The flags of a chunk's last block: CHUNK_START beside CHUNK_END only where it is the first block too, and ROOT only
in a root chunk (R152). -/
theorem blockFlags_last (k : Nat) (isRoot : Bool) :
    blockFlags (k == 0) true isRoot = (if k = 0 then 0x3 else 0x2) ||| flagIf isRoot rootFlag := by
  cases k with
  | zero => simp [blockFlags, flagIf, chunkStart, chunkEnd]
  | succ k => simp [blockFlags, flagIf, chunkEnd]

/-- A whole chunk enters its last block with the value threaded from the key (R154). -/
theorem processBlocks_preCv_chunk (t : BitVec 64) (isRoot ft : Bool) (bytes : List Byte) (more : Nat) :
    (processBlocks t isRoot ft true iv more bytes).preCv = threadedCv bytes t more := by
  simpa [threadedCv] using processBlocks_preCv t isRoot ft bytes more 0

/-- The output of a whole chunk is the compression of its last block (R151 to R154). -/
theorem processBlocks_out_chunk (t : BitVec 64) (isRoot ft : Bool) (bytes : List Byte) (more : Nat) :
    (processBlocks t isRoot ft true iv more bytes).out =
      compress (threadedCv bytes t more) (words (bytes.drop (64 * more))) t (BitVec.ofNat 32 (bytes.length - 64 * more))
        ((if more = 0 then 0x3 else 0x2) ||| flagIf isRoot rootFlag) ft := by
  rw [processBlocks_out, processBlocks_preCv_chunk, processBlocks_msg, processBlocks_blen, processBlocks_flags,
    Bool.true_and, blockFlags_last]

/-- Settles O8: the chunk's value is the chaining half of its last block's output, and a non-root chunk adds no ROOT
(R152, R156). -/
theorem chunkValueThreadsBlocks : Obligations.ChunkValueThreadsBlocks := by
  intro bytes t h1 hle k
  have hnoRoot : ∀ f : Word, f ||| flagIf false rootFlag = f := fun _ => BitVec.or_zero
  refine ⟨chunkCV_eq t h1 hle, ?_⟩
  rw [chunkCvOf, processBlocks_out_chunk, hnoRoot]
  rfl

end Sys2Proof.Machine

namespace Sys2Proof.Machine

/-! ### The complete subtrees of R175 grow by a level when the chunks are taken in pairs -/

/-- The chaining values one level up the tree: the parent of each pair of neighbours (R170). -/
def parentCVs (cvs : Nat → CV) (i : Nat) : CV := parentCV (cvs (2 * i)) (cvs (2 * i + 1))

/-- A subtree over chunks is the subtree one level lower over their parents. -/
theorem subtree_parentCVs (cvs : Nat → CV) : ∀ (k start : Nat),
    subtree cvs (2 * start) (k + 1) = subtree (parentCVs cvs) start k
  | 0, _ => rfl
  | k + 1, start => by
    rw [subtree, subtree.eq_2 (parentCVs cvs), subtree_parentCVs cvs k start, Nat.pow_succ', ← Nat.mul_add,
      subtree_parentCVs cvs k (start + 2 ^ k)]

/-- The lowest bit `b` of a chunk count stands for a chunk of its own, behind the subtrees over the pairs. -/
theorem subtreesOf_pairs (cvs : Nat → CV) {b : Nat} (hb : b < 2) : ∀ {k m : Nat} (start : Nat), m < 2 ^ k →
    subtreesOf cvs (k + 1) (2 * m + b) (2 * start)
      = subtreesOf (parentCVs cvs) k m start ++ subtreesOf cvs 1 b (2 * (start + m))
  | 0, m, start, hm => by
    obtain rfl : m = 0 := by simpa using hm
    simp [subtreesOf]
  | k + 1, m, start, hm => by
    have hpow : 2 ^ (k + 1) = 2 * 2 ^ k := Nat.pow_succ'
    rw [subtreesOf, subtreesOf.eq_2 (parentCVs cvs)]
    by_cases h : 2 ^ k ≤ m
    · rw [if_pos (by omega), if_pos h, subtree_parentCVs, List.cons_append, hpow,
        show 2 * m + b - 2 * 2 ^ k = 2 * (m - 2 ^ k) + b by omega, ← Nat.mul_add,
        subtreesOf_pairs cvs hb (start + 2 ^ k) (by omega), show start + 2 ^ k + (m - 2 ^ k) = start + m by omega]
    · rw [if_neg (by omega), if_neg h, subtreesOf_pairs cvs hb start (by omega)]

/-- An even count of chunks leaves the subtrees over their pairs. -/
theorem subtreesOf_even (cvs : Nat → CV) {k m : Nat} (hm : m < 2 ^ k) :
    subtreesOf cvs (k + 1) (2 * m) 0 = subtreesOf (parentCVs cvs) k m 0 := by
  simpa [subtreesOf] using subtreesOf_pairs cvs (b := 0) (by decide) 0 hm

/-- An odd count of chunks leaves the subtrees over their pairs, then the last chunk. -/
theorem subtreesOf_odd (cvs : Nat → CV) {k m : Nat} (hm : m < 2 ^ k) :
    subtreesOf cvs (k + 1) (2 * m + 1) 0 = subtreesOf (parentCVs cvs) k m 0 ++ [cvs (2 * m)] := by
  simpa [subtreesOf, subtree] using subtreesOf_pairs cvs (b := 1) (by decide) 0 hm

/-- There is one subtree for each one bit (R173, R175). -/
theorem length_subtreesOf (k : Nat) : ∀ (cvs : Nat → CV) (n : Nat), n < 2 ^ k →
    (subtreesOf cvs k n 0).length = popcountBits k n := by
  induction k with
  | zero => intro cvs n _; rfl
  | succ k ih =>
    intro cvs n hn
    obtain ⟨m, rfl | rfl⟩ : ∃ m, n = 2 * m ∨ n = 2 * m + 1 := ⟨n / 2, by omega⟩
    · rw [subtreesOf_even cvs (by omega), ih _ m (by omega), popcountBits]
      simp
    · rw [subtreesOf_odd cvs (by omega), List.length_append, ih _ m (by omega), popcountBits,
        show (2 * m + 1) / 2 = m by omega, show (2 * m + 1) % 2 = 1 by omega, List.length_singleton, Nat.add_comm]

/-- Leading zero bits of the count add no subtree. -/
theorem subtreesOf_leadingZeros (cvs : Nat → CV) {k n : Nat} (start : Nat) (hn : n < 2 ^ k) : ∀ d : Nat,
    subtreesOf cvs (k + d) n start = subtreesOf cvs k n start
  | 0 => rfl
  | d + 1 => by
    have := Nat.pow_le_pow_right (n := 2) (by decide) (Nat.le_add_right k d)
    rw [← Nat.add_assoc, subtreesOf, if_neg (by omega), subtreesOf_leadingZeros cvs start hn d]

/-! ### The merge of one chunk, and of the chunks in order (R171, R175) -/

/-- The merge loop folds the chunk just pushed into the subtrees of the chunks before it: at an even count it merges the
last pair and goes on one level up, where the count is half as large (R171). -/
theorem mergeLoop_subtrees (k : Nat) : ∀ (cvs : Nat → CV) (n : Nat) (h : HasherState), n + 1 < 2 ^ k →
    h.cvSp.toNat ≤ 64 → stackEntries h = subtreesOf cvs k n 0 ++ [cvs n] →
    ∃ g, mergeLoop k (n + 1) h = .ok g ∧ stackEntries g = subtreesOf cvs k (n + 1) 0 := by
  induction k with
  | zero => intro _ n _ hn; simp at hn
  | succ k ih =>
    intro cvs n h hn h64 hs
    obtain ⟨m, rfl | rfl⟩ : ∃ m, n = 2 * m ∨ n = 2 * m + 1 := ⟨n / 2, by omega⟩
    · refine ⟨h, mergeLoop_odd (by omega), ?_⟩
      rw [hs, subtreesOf_even cvs (by omega), subtreesOf_odd cvs (by omega)]
    · rw [subtreesOf_odd cvs (by omega), List.append_assoc] at hs
      have h2 : 2 ≤ h.cvSp.toNat := by rw [← stackEntries_length, hs]; simp
      have hsp : (mergedTop h).cvSp.toNat = h.cvSp.toNat - 1 := toNat_pred7 (by omega)
      rw [mergeLoop_even (by omega) h2 h64, show 2 * m + 1 + 1 = 2 * (m + 1) by omega,
        subtreesOf_even cvs (by omega), Nat.mul_div_cancel_left _ (by decide)]
      exact ih (parentCVs cvs) m (mergedTop h) (by omega) (by omega) (stackEntries_mergedTop h2 h64 hs)

/-- Merging chunk `n` turns the subtrees of `n` chunks into those of `n + 1` (R175). -/
theorem merge_subtrees (cvs : Nat → CV) {n : Nat} {h : HasherState} (hn : n + 1 < 2 ^ 64)
    (hs : stackEntries h = subtreesOf cvs 64 n 0) :
    ∃ g, merge (cvs n) (n + 1) h = .ok g ∧ stackEntries g = subtreesOf cvs 64 (n + 1) 0 := by
  have hlt : h.cvSp.toNat < 64 := by
    rw [← stackEntries_length, hs, length_subtreesOf 64 cvs n (by omega)]
    exact popcountBits_lt 64 n hn
  rw [merge, push_eq hlt]
  exact mergeLoop_subtrees 64 cvs n _ hn (by simp only; rw [toNat_succ7 (by omega)]; omega)
    (by rw [stackEntries_push hlt, hs])

/-- An empty stack holds the subtrees of no chunk. -/
theorem stackEntries_of_empty {h : HasherState} (h0 : h.cvSp = 0) (cvs : Nat → CV) :
    stackEntries h = subtreesOf cvs 64 0 0 := by
  rw [subtreesOf_leadingZeros cvs 0 (k := 0) (by decide) 64]
  simp [stackEntries, h0, subtreesOf]

/-- Settles O11, by induction on the number of chunks. -/
theorem stackHoldsMaximalSubtrees : Obligations.StackHoldsMaximalSubtrees := by
  intro cvs n h h0
  induction n with
  | zero => exact fun _ => ⟨h, rfl, stackEntries_of_empty h0 cvs⟩
  | succ n ih =>
    intro hn
    obtain ⟨g, hg, hs⟩ := ih (by omega)
    obtain ⟨g', hg', hs'⟩ := merge_subtrees cvs hn hs
    exact ⟨g', by rw [mergeChunks, hg]; exact hg', hs'⟩

/-- Chunk values of which the first four are given (R177). -/
def firstFour (c0 c1 c2 c3 : CV) (i : Nat) : CV := [c0, c1, c2, c3].getD i c0

/-- Settles O10: the subtrees of 1, 2, 3 and 4 chunks, written out in the three bits those counts need. -/
theorem mergeOfFirstFourChunks : Obligations.MergeOfFirstFourChunks := by
  intro h c0 c1 c2 c3 h0
  obtain ⟨h1, m1, s1⟩ := merge_subtrees (firstFour c0 c1 c2 c3) (n := 0) (by decide) (stackEntries_of_empty h0 _)
  obtain ⟨h2, m2, s2⟩ := merge_subtrees _ (n := 1) (by decide) s1
  obtain ⟨h3, m3, s3⟩ := merge_subtrees _ (n := 2) (by decide) s2
  obtain ⟨h4, m4, s4⟩ := merge_subtrees _ (n := 3) (by decide) s3
  have hbits {n : Nat} (hn : n < 2 ^ 3) := subtreesOf_leadingZeros (firstFour c0 c1 c2 c3) 0 hn 61
  rw [hbits (by decide)] at s1 s2 s3 s4
  exact ⟨h1, h2, h3, h4, m1, s1, m2, s2, m3, s3, m4, s4⟩

end Sys2Proof.Machine

namespace Sys2Proof.Machine

/-! ### INIT (R190) -/

/-- INIT checks nothing, so it always ends in success with its writes done. -/
theorem exec_init (s : State) : exec .init s = .next (succeed (emptied s)) := exec_eq .init s

/-- Settles O3: what INIT keeps is what `emptied` does not write, and emptying an emptied hasher again changes nothing. -/
theorem initCreatesEmptyHasher : Obligations.InitCreatesEmptyHasher := by
  intro s
  refine ⟨_, exec_init s, rfl, rfl, rfl, rfl, rfl, rfl, rfl, rfl, rfl, rfl, rfl, rfl, rfl, rfl, rfl, rfl, rfl, rfl, rfl, rfl,
    rfl, rfl, fun _ => rfl, rfl, rfl, rfl, rfl, ?status, ?again⟩
  case status => simp [statusWord, emptied, phaseBit, flagIf]
  case again => exact exec_init (succeed (emptied s))

/-! ### When APPEND raises an error, and when it stores its bytes (R192) -/

theorem exec_of_commandCheck {i : Instr} {s : State} {e : CmdError} (h : commandCheck i s = some e) :
    exec i s = .next (raiseError e s) := by
  rw [exec_eq, h]

/-- Settles O4: the clauses are the branches of APPEND's check. -/
theorem appendChecksPhaseLengthCounter : Obligations.AppendChecksPhaseLengthCounter := by
  intro s n
  refine ⟨fun hp => exec_of_commandCheck (e := .finalized) ?phase,
    fun hp hn => exec_of_commandCheck (e := .appendLength) ?length,
    fun hp hn hover hctr => exec_of_commandCheck (e := .counterOverflow) ?counter⟩
  case phase => rw [commandCheck, if_pos hp]
  case length => rw [commandCheck, if_neg (by simp [hp]), if_pos hn]
  case counter => rw [commandCheck, if_neg (by simp [hp]), if_neg (by omega), if_pos ⟨hover, hctr⟩]

/-- An Accepting APPEND of at most 64 bytes with room in the buffer or in the counter passes its checks (R192). -/
theorem commandCheck_append_eq_none {n : Nat} {s : State} (hp : s.phase = .accepting) (hn : n ≤ 64)
    (hroom : s.hasher.bufLen.toNat + n ≤ 1024 ∨ s.hasher.chunkCtr ≠ BitVec.allOnes 64) :
    commandCheck (.append n) s = none := by
  rw [commandCheck, if_neg (by simp [hp]), if_neg (by omega),
    if_neg fun hover => hroom.elim (not_le.2 hover.1) (· hover.2)]

/-- An APPEND that passes its checks leaves the hasher its bytes leave (R192). -/
theorem exec_append_of_appendBytes {n : Nat} {s : State} {h : HasherState} (hp : s.phase = .accepting) (hn : n ≤ 64)
    (hroom : s.hasher.bufLen.toNat + n ≤ 1024 ∨ s.hasher.chunkCtr ≠ BitVec.allOnes 64)
    (hr : appendBytes (appendOperand n s) s.hasher = .ok h) :
    exec (.append n) s = .next (succeed { s with hasher := h }) := by
  rw [exec_eq, commandCheck_append_eq_none hp hn hroom, commandWork, hr]
  rfl

/-- What an APPEND that answers has done: raised an error, or stored at most 64 bytes and succeeded (R192, R268). -/
theorem exec_append_next {n : Nat} {s t : State} (h : exec (.append n) s = .next t) :
    (∃ e, t = raiseError e s) ∨
    (n ≤ 64 ∧ ∃ g, appendBytes (appendOperand n s) s.hasher = .ok g ∧ t = succeed { s with hasher := g }) := by
  rcases exec_next h with ⟨e, _, rfl⟩ | ⟨hc, u, hw, rfl⟩
  · exact .inl ⟨e, rfl⟩
  · obtain ⟨_, hn, _⟩ := commandCheck_append hc
    obtain ⟨g, hr, rfl⟩ := map_eq_ok.1 hw
    exact .inr ⟨hn, g, hr, rfl⟩

/-- An APPEND that answers without an error has stored its bytes (R268). -/
theorem exec_append_success {n : Nat} {s t : State} (h : exec (.append n) s = .next t) (h0 : t.errcode = 0) :
    n ≤ 64 ∧ ∃ g, appendBytes (appendOperand n s) s.hasher = .ok g ∧ t = succeed { s with hasher := g } := by
  rcases exec_append_next h with ⟨e, rfl⟩ | hok
  · exact absurd h0 (errorCode_ne_zero e)
  · exact hok

/-- Settles O5: bytes that fit are a fill of the buffer, and a fill with no bytes is no change. -/
theorem appendStoresBytesThatFit : Obligations.AppendStoresBytesThatFit := by
  intro s n hp hn hle
  have hlen := appendOperand_length hn s
  have hfit : s.hasher.bufLen.toNat + (appendOperand n s).length ≤ 1024 := by rwa [hlen]
  refine ⟨_, exec_append_of_appendBytes hp hn (.inl hle) (appendBytes_room _ hfit), ?len, bufBytes_fill hfit,
    fill_chunkCtr _ _, fill_cvSp _ _, rfl, rfl, rfl, ?noBytes⟩
  case len => exact (fill_bufLen hfit).trans (by rw [hlen])
  case noBytes =>
    rintro rfl
    rw [show appendOperand 0 s = [] from rfl, fill_nil]
    rfl

/-- Settles O6: of the two things the bytes can do from a state that keeps the invariant, these ones flush. -/
theorem appendFlushesFullChunk : Obligations.AppendFlushesFullChunk := by
  intro s n hi hp hn hlt hctr
  have hlen := appendOperand_length hn s
  obtain ⟨g, hr, _, hsp, hcase⟩ := appendBytes_ok hi.hasher (hlen.trans_le hn) (hi.spPopcount hp) (.inr hctr)
  obtain ⟨hle, _⟩ | ⟨_, hbuf, hcount, hbytes, _⟩ := hcase
  · omega
  refine ⟨_, exec_append_of_appendBytes hp hn (.inr hctr) hr, ?_, hbytes, hcount, ?_, rfl, rfl, rfl⟩
  · rwa [hlen] at hbuf
  · rwa [hcount, toNat_succ64 hctr] at hsp

/-! ### The stack after a flush (R171, R194) -/

/-- The hasher after a flush that left `g`'s memory and stack: the buffer emptied, one more chunk counted (R194). -/
def flushed (g : HasherState) : HasherState := { g with bufLen := 0, chunkCtr := g.chunkCtr + 1 }

/-- A flush is the merge of the full chunk's value, then the emptied buffer and the new count (R194). -/
theorem flush_eq_merge (h : HasherState) :
    flush h = (merge (chunkCvOf (bufBytes h.mem 1024) h.chunkCtr) (h.chunkCtr.toNat + 1) h).map flushed := by
  rw [flush, chunkCV_eq _ (by simp) (by simp)]
  cases hm : merge (chunkCvOf (bufBytes h.mem 1024) h.chunkCtr) (h.chunkCtr.toNat + 1) h <;>
    simp [bind, Except.bind, Except.map, hm, flushed]

theorem stackEntries_flushed (g : HasherState) : stackEntries (flushed g) = stackEntries g := rfl

/-- Under an odd total a merge only pushes (R171). -/
theorem stackEntries_merge_odd {cv : CV} {total : Nat} {h g : HasherState} (ho : total % 2 = 1)
    (hm : merge cv total h = .ok g) : stackEntries g = stackEntries h ++ [cv] := by
  rcases push_cases cv h with ⟨hlt, hp⟩ | ⟨_, hp⟩
  · simp only [merge, bind, Except.bind, hp, mergeLoop_odd ho, Except.ok.injEq] at hm
    rw [← hm, stackEntries_push hlt]
  · simp only [merge, bind, Except.bind, hp] at hm; cases hm

/-- Bytes that do not fit leave the stack that merging the filled chunk's value leaves (R191, R194). -/
theorem appendBytes_overflow_merge {h g : HasherState} {xs : List Byte} (hb : h.bufLen.toNat ≤ 1024)
    (hlt : 1024 < h.bufLen.toNat + xs.length) (hx : xs.length ≤ 64)
    (hm : merge (chunkCvOf (bufBytes h.mem h.bufLen.toNat ++ xs.take (1024 - h.bufLen.toNat)) h.chunkCtr)
      (h.chunkCtr.toNat + 1) h = .ok g) :
    ∃ f, appendBytes xs h = .ok f ∧ stackEntries f = stackEntries g := by
  have hhead : (xs.take (1024 - h.bufLen.toNat)).length = 1024 - h.bufLen.toNat := by simp; omega
  have hrest : (xs.drop (1024 - h.bufLen.toNat)).length ≤ 1024 := by simp; omega
  have hfill : h.bufLen.toNat + (xs.take (1024 - h.bufLen.toNat)).length ≤ 1024 := by omega
  have hbytes := bufBytes_fill hfill
  rw [fill_bufLen hfill, show h.bufLen.toNat + (xs.take (1024 - h.bufLen.toNat)).length = 1024 by omega] at hbytes
  obtain ⟨f, hmf, hsame⟩ := merge_congr hm (stackEntries_fill hfill).symm
  have hflush : flush (fill h (xs.take (1024 - h.bufLen.toNat))) = .ok (flushed f) := by
    rw [flush_eq_merge, hbytes, fill_chunkCtr, hmf]; rfl
  refine ⟨_, appendBytes_overflow hb hlt hflush rfl (by omega), ?_⟩
  rw [stackEntries_fill (by simpa [flushed] using hrest), stackEntries_flushed, hsame]

/-- Settles O7: the merge answers under the invariant, the flush leaves its stack, and an odd new total ends it at the
push. -/
theorem flushPushesChunkValue : Obligations.FlushPushesChunkValue := by
  intro s n hi hp hn hlt hctr cv
  have hlen := appendOperand_length hn s
  have hble := hi.hasher.bufLe
  have hcount := toNat_succ64 hctr ▸ (s.hasher.chunkCtr + 1).isLt
  obtain ⟨g, hm, _⟩ := merge_ok cv hi.hasher (Nat.succ_pos _) hcount (hi.spPopcount hp)
  have hhead : (appendOperand n s).take (1024 - s.hasher.bufLen.toNat) =
      (lebytes s.inWin.toList).take (1024 - s.hasher.bufLen.toNat) := by
    rw [appendOperand, inBytes, List.take_take, Nat.min_eq_left (by omega)]
  obtain ⟨f, hr, hstack⟩ := appendBytes_overflow_merge (g := g) hble (by rwa [hlen]) (hlen.trans_le hn) (by rwa [hhead])
  refine ⟨_, g, exec_append_of_appendBytes hp hn (.inr hctr) hr, hm, cvSp_of_stackEntries hstack, hstack, fun heven => ?_⟩
  exact hstack.trans (stackEntries_merge_odd (by omega) hm)

/-! ### The bytes an APPEND writes (R191 to R194) -/

/-- A fill writes the BUF bytes from BUF_LEN on, one for each byte given, and no other (R193). -/
theorem memRead_fill_of_outside {h : HasherState} {xs : List Byte} {a : Nat}
    (ha : ¬(bufAddr h.bufLen.toNat ≤ a ∧ a < bufAddr (h.bufLen.toNat + xs.length))) :
    memRead (fill h xs).mem a = memRead h.mem a := by
  rw [fill_mem, memRead_memWriteList, if_neg]
  simp only [bufAddr] at ha ⊢
  omega

/-- The frame of an append with a flush: BUF from BUF_LEN up, BUF from 0 up, and the entries the flush writes. -/
theorem memRead_appendBytes_overflow {h f : HasherState} {xs : List Byte} (hlt : 1024 < h.bufLen.toNat + xs.length)
    (hb : h.bufLen.toNat ≤ 1024) (hf : flush (fill h (xs.take (1024 - h.bufLen.toNat))) = .ok f) {a : Nat}
    (htail : ¬(bufAddr h.bufLen.toNat ≤ a ∧ a < bufAddr 1024))
    (hhead : ¬(bufAddr 0 ≤ a ∧ a < bufAddr (h.bufLen.toNat + xs.length - 1024)))
    (hstack : ¬(stackAddr (f.cvSp.toNat - 1) ≤ a ∧ a < stackAddr (h.cvSp.toNat + 1))) :
    memRead (fill f (xs.drop (1024 - h.bufLen.toNat))).mem a = memRead h.mem a := by
  obtain ⟨hempty, _, _, hkeep⟩ := flush_frame hf
  rw [fill_cvSp] at hkeep
  calc memRead (fill f (xs.drop (1024 - h.bufLen.toNat))).mem a
      = memRead f.mem a := memRead_fill_of_outside (by
        simpa [hempty, show xs.length - (1024 - h.bufLen.toNat) = h.bufLen.toNat + xs.length - 1024 by omega] using hhead)
    _ = memRead (fill h (xs.take (1024 - h.bufLen.toNat))).mem a := hkeep a (by omega)
    _ = memRead h.mem a := memRead_fill_of_outside (by
        rwa [List.length_take, Nat.min_eq_left (by omega), Nat.add_sub_cancel' hb])

/-- Settles O9: an error writes the error record alone; a success with room is a fill, and one without is a fill, a flush
and a fill (or, with no bytes, nothing). -/
theorem appendFrame : Obligations.AppendFrame := by
  intro s t n h
  rcases exec_append_next h with ⟨e, rfl⟩ | ⟨hn, g, hr, rfl⟩
  · have hne : (raiseError e s).errcode ≠ 0 := errorCode_ne_zero e
    exact ⟨rfl, fun _ => rfl, fun h0 => absurd h0 hne, fun h0 => absurd h0 hne, fun h0 => absurd h0 hne⟩
  have hlen := appendOperand_length hn s
  refine ⟨rfl, fun hne => absurd rfl hne, fun _ => rfl, fun _ hle => ?fits, fun _ hlt a htail hhead hstack => ?flushes⟩
  case fits =>
    obtain rfl : g = fill s.hasher (appendOperand n s) := by
      rw [appendBytes_room _ (by rwa [hlen])] at hr
      injection hr with hr
      exact hr.symm
    exact ⟨fill_chunkCtr _ _, fill_cvSp _ _, fun a ha => memRead_fill_of_outside (by rwa [hlen])⟩
  case flushes =>
    obtain ⟨hle, _⟩ | ⟨_, rfl⟩ | ⟨hover, hb, f, hf, rfl⟩ := appendBytes_cases (hlen.trans_le hn) hr
    · omega
    · rfl
    · exact memRead_appendBytes_overflow hover hb hf htail (by rwa [hlen]) (by simpa using hstack)

/-! ### Feeding slices is one append of their concatenation (R197) -/

/-- Feeding one slice without an error appends its bytes, and the feeding goes on from there (R197, R301). -/
theorem feed_cons {sl : List Byte} {rest : List (List Byte)} {s t : State} (hsl : sl.length ≤ 64)
    (h : feed (sl :: rest) s = some t) :
    ∃ g, appendBytes sl s.hasher = .ok g ∧ feed rest (succeed { s with inWin := words sl, hasher := g }) = some t := by
  rw [feed] at h
  split at h
  next u hu =>
    split at h
    next h0 =>
      obtain ⟨_, g, hr, rfl⟩ := exec_append_success hu h0
      rw [appendOperand, inBytes, take_lebytes_words sl hsl] at hr
      exact ⟨g, hr, h⟩
    next => cases h
  all_goals cases h

/-- Feeding slices appends their concatenation and, but for the IN window, changes nothing else (R197): appending is a
fold over the bytes, so it does not see where a slice ends. -/
theorem feed_eq_appendBytes (xs : List (List Byte)) : ∀ {s t : State}, (∀ x ∈ xs, x.length ≤ 64) → succeed s = s →
    feed xs s = some t →
    ∃ g, appendBytes xs.flatten s.hasher = .ok g ∧ ∀ w, { t with inWin := w } = { s with inWin := w, hasher := g } := by
  induction xs with
  | nil =>
    intro s t _ _ h
    injection h with h
    exact ⟨s.hasher, rfl, fun w => h ▸ rfl⟩
  | cons sl rest ih =>
    intro s t hlen hs h
    obtain ⟨f, hf, hrest⟩ := feed_cons (hlen sl List.mem_cons_self) h
    obtain ⟨g, hg, hsame⟩ := ih (fun x hx => hlen x (List.mem_cons_of_mem sl hx)) rfl hrest
    refine ⟨g, ?_, fun w => ?_⟩
    · rw [List.flatten_cons, appendBytes_append, hf]; exact hg
    · rw [hsame w, ← hs]; rfl

/-- Settles O12: both feedings append the same bytes to the same hasher. -/
theorem feedEquivalence : Obligations.FeedEquivalence := by
  intro s t u xs ys herr hbusy hxs hys hflat ht hu
  have hs : succeed s = s := by rw [succeed, ← herr, ← hbusy]
  obtain ⟨g, hg, hxsame⟩ := feed_eq_appendBytes xs hxs hs ht
  obtain ⟨g', hg', hysame⟩ := feed_eq_appendBytes ys hys hs hu
  obtain rfl : g = g' := by
    rw [← hflat, hg] at hg'
    injection hg'
  rw [hxsame, hysame]

end Sys2Proof.Machine

namespace Sys2Proof.Machine

/-! ### The root of each shape of input, as a value (R221 to R223) -/

/-- The root of one chunk: its last block's compression input, with ROOT among the flags (R222). -/
def chunkRoot (h : HasherState) : Root :=
  let bytes := bufBytes h.mem h.bufLen.toNat
  let k := lastBlock h.bufLen.toNat
  let cv := threadedCv bytes h.chunkCtr k
  let msg := words (bytes.drop (64 * k))
  let blen := BitVec.ofNat 32 (h.bufLen.toNat - 64 * k)
  let flags := if k = 0 then 0xB else 0xA
  { cv := cv, msg := msg, blen := blen, flags := flags, out := compress cv msg h.chunkCtr blen flags false, after := h }

/-- The root of a tree: the parent of the oldest entry and the value the other entries were merged onto (R223). -/
def treeRoot (h : HasherState) : Root :=
  let tail := chunkCvOf (bufBytes h.mem h.bufLen.toNat) h.chunkCtr
  let msg := cat8 (stackEntry h.mem 0) (treeRun h.mem (h.cvSp.toNat - 1) tail)
  { cv := iv, msg := msg, blen := 64, flags := 0xC, out := compress iv msg 0 64 0xC false,
    after := { h with cvSp := 0 } }

/-- The root flags of a chunk: CHUNK_END and ROOT, and CHUNK_START where the last block is the first (R152, R227). -/
theorem blockFlags_root (k : Nat) :
    ((if k = 0 then 0x3 else 0x2) ||| flagIf true rootFlag : Word) = if k = 0 then 0xB else 0xA := by
  split <;> rfl

/-- The last block of a chunk has the 1 to 64 bytes that the blocks before it leave (R151, R227). -/
theorem chunkRoot_blen_toNat {h : HasherState} (hb : 1 ≤ h.bufLen.toNat) :
    (chunkRoot h).blen.toNat = (h.bufLen.toNat - 1) % 64 + 1 := by
  have hlen : h.bufLen.toNat - 64 * lastBlock h.bufLen.toNat = _ := lastBlock_length hb
  rw [chunkRoot, hlen, BitVec.toNat_ofNat, Nat.mod_eq_of_lt (by omega)]

theorem rootOneChunk_eq_chunkRoot {h : HasherState} (hb : 1 ≤ h.bufLen.toNat) (hb' : h.bufLen.toNat ≤ 1024) :
    rootOneChunk h = .ok (chunkRoot h) := by
  rw [rootOneChunk_eq hb hb']
  simp only [processBlocks_out_chunk, processBlocks_preCv_chunk, processBlocks_msg, processBlocks_blen,
    processBlocks_flags, Bool.true_and, blockFlags_last, blockFlags_root, bufBytes_length]
  rfl

theorem selectRoot_of_empty {h : HasherState} (hb : h.bufLen = 0) (hs : h.cvSp = 0) :
    selectRoot h = .ok (rootEmpty h) := by
  rw [selectRoot, if_pos ⟨hb, hs⟩]

theorem selectRoot_of_chunk {h : HasherState} (hs : h.cvSp = 0) (hb : 1 ≤ h.bufLen.toNat)
    (hb' : h.bufLen.toNat ≤ 1024) : selectRoot h = .ok (chunkRoot h) := by
  have hne : h.bufLen ≠ 0 := by rw [Ne, bufLen_zero_iff]; omega
  rw [selectRoot, if_neg fun hempty => hne hempty.1, if_pos hs, rootOneChunk_eq_chunkRoot hb hb']

theorem selectRoot_of_tree {h : HasherState} (hs : 1 ≤ h.cvSp.toNat) (hs' : h.cvSp.toNat ≤ 64)
    (hb : 1 ≤ h.bufLen.toNat) (hb' : h.bufLen.toNat ≤ 1024) : selectRoot h = .ok (treeRoot h) := by
  have hne : h.cvSp ≠ 0 := by rw [Ne, cvSp_zero_iff]; omega
  rw [selectRoot, if_neg fun hempty => hne hempty.2, if_neg hne, rootTree_eq hb hb' hs hs']
  rfl

/-! ### Root selection only pops (R224) -/

/-- Hashers that differ at most in the depth of the stack. -/
def OnlyPops (h g : HasherState) : Prop := g = { h with cvSp := g.cvSp }

theorem OnlyPops.refl (h : HasherState) : OnlyPops h h := rfl

theorem OnlyPops.trans {f g h : HasherState} (hfg : OnlyPops f g) (hgh : OnlyPops g h) : OnlyPops f h := by
  rw [OnlyPops] at *
  rw [hgh, hfg]

theorem bind_eq_ok {ε α β : Type} {x : Except ε α} {f : α → Except ε β} {b : β} :
    x >>= f = .ok b ↔ ∃ a, x = .ok a ∧ f a = .ok b := by
  cases x <;> simp [bind, Except.bind]

theorem pop_onlyPops {h g : HasherState} {cv : CV} (hr : pop h = .ok (cv, g)) : OnlyPops h g := by
  obtain ⟨_, _, hp⟩ | ⟨u, hp⟩ := pop_cases h
  · rw [hp] at hr
    injection hr with hr
    injection hr with _ hg
    exact hg ▸ rfl
  · rw [hp] at hr; cases hr

theorem foldStack_onlyPops (n : Nat) : ∀ {run run' : CV} {h g : HasherState}, foldStack n run h = .ok (run', g) →
    OnlyPops h g := by
  induction n with
  | zero =>
    intro run run' h g hr
    injection hr with hr
    injection hr with _ hg
    exact hg ▸ .refl h
  | succ n ih =>
    intro run run' h g hr
    obtain ⟨⟨left, f⟩, hpop, hfold⟩ := bind_eq_ok.1 hr
    exact (pop_onlyPops hpop).trans (ih hfold)

theorem rootOneChunk_onlyPops {h : HasherState} {r : Root} (hr : rootOneChunk h = .ok r) : OnlyPops h r.after := by
  obtain ⟨c, _, hc⟩ := bind_eq_ok.1 hr
  injection hc with hc
  exact hc ▸ .refl h

theorem rootTree_onlyPops {h : HasherState} {r : Root} (hr : rootTree h = .ok r) : OnlyPops h r.after := by
  rw [rootTree] at hr
  split at hr
  · cases hr
  obtain ⟨tail, _, hr⟩ := bind_eq_ok.1 hr
  obtain ⟨⟨run, f⟩, hfold, hr⟩ := bind_eq_ok.1 hr
  obtain ⟨⟨left, g⟩, hpop, hr⟩ := bind_eq_ok.1 hr
  injection hr with hr
  exact hr ▸ (foldStack_onlyPops _ hfold).trans (pop_onlyPops hpop)

theorem selectRoot_onlyPops {h : HasherState} {r : Root} (hr : selectRoot h = .ok r) : OnlyPops h r.after := by
  rw [selectRoot] at hr
  split at hr
  · injection hr with hr
    exact hr ▸ .refl h
  split at hr
  · exact rootOneChunk_onlyPops hr
  · exact rootTree_onlyPops hr

/-! ### FINALIZE (R220 to R227) -/

/-- A length whose sign bit is clear is the same number signed and unsigned (R30, R220). -/
theorem requestedLength_toNat {s : State} (hl : 0 ≤ s.outlen.toInt) : (requestedLength s).toNat = s.outlen.toNat := by
  rw [requestedLength, BitVec.toInt_eq_toNat_of_lt (BitVec.toInt_pos_iff.1 hl), Int.toNat_natCast]

/-- The state a FINALIZE with root `r` ends in (R220). -/
def withRoot (r : Root) (s : State) : State := succeed (storeRoot (requestedLength s).toNat r s)

/-- An Accepting FINALIZE of a length of at least 0 stores the root selected (R220). -/
theorem exec_finalize_of_selectRoot {s : State} {r : Root} (hp : s.phase = .accepting) (hl : 0 ≤ s.outlen.toInt)
    (hr : selectRoot s.hasher = .ok r) : exec .finalize s = .next (withRoot r s) := by
  have hnonneg : ¬requestedLength s < 0 := not_lt.2 hl
  rw [exec_eq, commandCheck, if_neg (by simp [hp]), if_neg hnonneg, commandWork, hr]
  rfl

/-- What a FINALIZE that answers has done: raised an error, or stored a root and succeeded (R220, R268). -/
theorem exec_finalize_next {s t : State} (h : exec .finalize s = .next t) :
    (∃ e, t = raiseError e s) ∨ ∃ r, selectRoot s.hasher = .ok r ∧ t = withRoot r s := by
  obtain ⟨e, _, rfl⟩ | ⟨_, u, hw, rfl⟩ := exec_next h
  · exact .inl ⟨e, rfl⟩
  · obtain ⟨r, hr, rfl⟩ := map_eq_ok.1 hw
    exact .inr ⟨r, hr, rfl⟩

theorem exec_finalize_of_finalized {s : State} (hp : s.phase = .finalized) :
    exec .finalize s = .next (raiseError .finalized s) :=
  exec_of_commandCheck (if_pos hp)

theorem exec_append_of_finalized {s : State} (hp : s.phase = .finalized) (n : Nat) :
    exec (.append n) s = .next (raiseError .finalized s) :=
  exec_of_commandCheck (if_pos hp)

/-- Settles O16. -/
theorem finalizeOfEmptyInput : Obligations.FinalizeOfEmptyInput := by
  intro s hp hl hb hs
  exact ⟨_, exec_finalize_of_selectRoot hp hl (selectRoot_of_empty hb hs), rfl, rfl, rfl, rfl, rfl⟩

/-- Settles O17: the root is `chunkRoot`, whose fields are the clauses. -/
theorem finalizeOfOneChunk : Obligations.FinalizeOfOneChunk := by
  intro s hp hl hs hb hb' bytes k
  refine ⟨_, exec_finalize_of_selectRoot hp hl (selectRoot_of_chunk hs hb hb'), rfl, rfl, ?_, rfl, rfl⟩
  have hlt : s.hasher.bufLen.toNat - 64 * k < 2 ^ 32 := by omega
  exact (BitVec.toNat_ofNat _ _).trans (Nat.mod_eq_of_lt hlt)

/-- Settles O18: the root is `treeRoot`, whose fields are the clauses. -/
theorem finalizeOfTree : Obligations.FinalizeOfTree := by
  refine ⟨fun h hb => by rw [rootTree, if_pos hb], fun s hp hl hs hs' hb hb' => ?_⟩
  exact ⟨_, exec_finalize_of_selectRoot hp hl (selectRoot_of_tree hs hs' hb hb'), rfl, rfl, rfl, rfl, rfl, rfl⟩

/-- Settles O15: in each case the root selected is known as a value, and its flags and length are read off. -/
theorem rootFlagsByCase : Obligations.RootFlagsByCase := by
  intro s hi hp hl
  obtain ⟨r, hr, _⟩ := selectRoot_ok hi.hasher (hi.spPopcount hp) (hi.bufNonempty hp)
  have hle := hi.hasher.bufLe
  have hroot : ∀ {r'}, selectRoot s.hasher = .ok r' → r = r' := fun hr' => Except.ok.inj (hr.symm.trans hr')
  refine ⟨_, exec_finalize_of_selectRoot hp hl hr, fun hs hb => ?empty, fun hs hb hb' => ?oneBlock,
    fun hs hb => ?moreBlocks, fun hs => ?tree⟩
  case empty =>
    obtain rfl := hroot (selectRoot_of_empty hb hs)
    exact ⟨rfl, rfl⟩
  case oneBlock =>
    obtain rfl := hroot (selectRoot_of_chunk hs hb hle)
    exact ⟨if_pos (by rw [lastBlock]; omega), (chunkRoot_blen_toNat hb).trans (by omega)⟩
  case moreBlocks =>
    obtain rfl := hroot (selectRoot_of_chunk hs (by omega) hle)
    exact ⟨if_neg (by rw [lastBlock]; omega), chunkRoot_blen_toNat (by omega)⟩
  case tree =>
    obtain ⟨_, _, hctr, _, hsp⟩ := acceptingStateInvariants s hi hp
    have hb := hi.bufNonempty hp (mt hctr.2 hs)
    rw [Ne, cvSp_zero_iff] at hs
    obtain rfl := hroot (selectRoot_of_tree (by omega) hsp hb hle)
    exact ⟨rfl, rfl⟩

/-- Settles O14: the root selected leaves the hasher with its stack emptied, and its output is block 0. -/
theorem finalizeCompletes : Obligations.FinalizeCompletes := by
  refine ⟨fun s hp => exec_finalize_of_finalized hp, fun s hi hp hl => ?_⟩
  obtain ⟨r, hr, hafter, _, _, hout⟩ := selectRoot_ok hi.hasher (hi.spPopcount hp) (hi.bufNonempty hp)
  have hhasher : (withRoot r s).hasher = { s.hasher with cvSp := 0 } := hafter
  refine ⟨_, exec_finalize_of_selectRoot hp hl hr, rfl, ?xofLen, rfl, ?outValid, rfl, rfl, rfl, by rw [hhasher],
    by rw [hhasher], by rw [hhasher], by rw [hhasher], congrArg outWords hout, exec_append_of_finalized rfl,
    exec_finalize_of_finalized rfl⟩
  case xofLen =>
    rw [withRoot, succeed_xofLen, storeRoot_xofLen, requestedLength_toNat hl, BitVec.ofNat_toNat, BitVec.setWidth_eq]
  case outValid => rw [withRoot, succeed_outValid, storeRoot_outValid, toNat_min64, requestedLength_toNat hl]

/-- Settles O19: storing a root writes the registers named, and the root's hasher has at most been popped. -/
theorem finalizeFrame : Obligations.FinalizeFrame := by
  intro s t h
  obtain ⟨e, rfl⟩ | ⟨r, hr, rfl⟩ := exec_finalize_next h
  · exact ⟨rfl, fun _ => rfl, fun h0 => absurd h0 (errorCode_ne_zero e), fun _ => rfl⟩
  · have hpops : (withRoot r s).hasher = { s.hasher with cvSp := r.after.cvSp } := selectRoot_onlyPops hr
    refine ⟨?_, fun hne => absurd rfl hne, fun _ => rfl, fun a => by rw [hpops]⟩
    calc withRoot r s = { withRoot r s with hasher := (withRoot r s).hasher } := rfl
      _ = { withRoot r s with hasher := { s.hasher with cvSp := r.after.cvSp } } := by rw [hpops]

/-! ### XOF_BLOCK (R230) -/

/-- An XOF_BLOCK in range writes output block XOF_IDX (R230). -/
theorem exec_xofBlock_of_lt {s : State} (hp : s.phase = .finalized) (hk : s.xofIdx.toNat < blockCount s.xofLen.toNat) :
    exec .xofBlock s = .next (succeed (withNextBlock s)) := by
  rw [exec_eq, commandCheck, if_neg (by simp [hp]), if_neg (not_le.2 hk)]
  rfl

/-- An XOF_BLOCK past the last block ends in XOF_RANGE (R230). -/
theorem exec_xofBlock_of_le {s : State} (hp : s.phase = .finalized)
    (hk : blockCount s.xofLen.toNat ≤ s.xofIdx.toNat) : exec .xofBlock s = .next (raiseError .xofRange s) :=
  exec_of_commandCheck (by rw [commandCheck, if_neg (by simp [hp]), if_pos hk])

/-- Settles O20: the clauses are the branches of XOF_BLOCK's check; a block in range has a byte of the digest, and a
length of 64 bits has too few blocks for the index to wrap. -/
theorem xofBlockCompletesOrRefuses : Obligations.XofBlockCompletesOrRefuses := by
  intro s
  refine ⟨fun hp => exec_of_commandCheck (e := .notFinalized) (if_pos hp), fun hp hk => exec_xofBlock_of_le hp hk,
    fun hp hk => ?_⟩
  have hvalid : (succeed (withNextBlock s)).outValid.toNat = min 64 (s.xofLen.toNat - 64 * s.xofIdx.toNat) :=
    toNat_min64 _
  have hnowrap : s.xofIdx ≠ BitVec.allOnes 64 := by
    have hlen := s.xofLen.isLt
    intro hmax
    rw [hmax, BitVec.toNat_allOnes] at hk
    omega
  exact ⟨_, exec_xofBlock_of_lt hp hk, rfl, hvalid, by omega, toNat_succ64 hnowrap, rfl, rfl, rfl⟩

/-- Settles O21: what XOF_BLOCK keeps is what `withNextBlock` does not write. -/
theorem xofBlockFrame : Obligations.XofBlockFrame := by
  intro s t h
  obtain ⟨e, _, rfl⟩ | ⟨_, u, hw, rfl⟩ := exec_next h
  · exact ⟨rfl, fun _ => rfl, fun h0 => absurd h0 (errorCode_ne_zero e), fun _ => rfl⟩
  · injection hw with hw
    subst hw
    exact ⟨rfl, fun hne => absurd rfl hne, fun _ => rfl, fun _ => rfl⟩

/-! ### The output window between FINALIZE and the last XOF_BLOCK -/

/-- A Finalized state whose OUT is output block `k`, block `k + 1` being next. -/
structure HoldsBlock (k : Nat) (t : State) : Prop where
  phase : t.phase = .finalized
  xofIdx : t.xofIdx = BitVec.ofNat 64 (k + 1)
  out : t.out = outBlock (BitVec.ofNat 64 k) t
  outValid : t.outValid.toNat = min 64 (t.xofLen.toNat - 64 * k)

/-- A FINALIZE of a length of at least 0 leaves block 0 in OUT (R225, R226). -/
theorem holdsBlock_of_finalize {s t : State} (hi : Inv s) (hp : s.phase = .accepting) (hl : 0 ≤ s.outlen.toInt)
    (h : exec .finalize s = .next t) : HoldsBlock 0 t ∧ t.xofLen = s.outlen := by
  obtain ⟨t', ht', hphase, hlen, hidx, hvalid, _, _, _, _, _, _, _, hout, _⟩ := finalizeCompletes.2 s hi hp hl
  obtain rfl : t' = t := Host.Outcome.next.inj (ht'.symm.trans h)
  exact ⟨⟨hphase, hidx, hout, by rw [hvalid, hlen, Nat.mul_zero, Nat.sub_zero]⟩, hlen⟩

/-- Settles O22: the block count is 0 for the empty digest, and 1 for one of 1 to 64 bytes. -/
theorem xofIndexZeroReloadsBlockZero : Obligations.XofIndexZeroReloadsBlockZero := by
  intro s t hi hp hl h
  obtain ⟨⟨hphase, hidx, hout, hvalid⟩, hlen⟩ := holdsBlock_of_finalize hi hp hl h
  refine ⟨fun hne => ?reload, fun hle => exec_xofBlock_of_le hphase ?oneBlock,
    fun h0 k => exec_xofBlock_of_le hphase ?noBlock⟩
  case reload =>
    have hpos : s.outlen.toNat ≠ 0 := fun h0 => hne (BitVec.eq_of_toNat_eq h0)
    refine ⟨_, exec_xofBlock_of_lt hphase ?_, hout.symm, BitVec.eq_of_toNat_eq ?_⟩
    · show 0 < blockCount t.xofLen.toNat
      rw [hlen, blockCount]; omega
    · exact (toNat_min64 _).trans hvalid.symm
  case oneBlock =>
    rw [hlen, hidx, blockCount]
    show _ ≤ 1
    omega
  case noBlock =>
    show blockCount t.xofLen.toNat ≤ _
    rw [hlen, h0]
    exact Nat.zero_le _

/-! ### The digest is cut from the output blocks in counter order (R232) -/

/-- The bytes of `n` output blocks from block `k` on. -/
def blocksFrom (s : State) (k n : Nat) : List Byte :=
  (List.range' k n).flatMap fun i => lebytes (outBlock (BitVec.ofNat 64 i) s).toList

@[simp] theorem length_blocksFrom (s : State) (k n : Nat) : (blocksFrom s k n).length = 64 * n := by
  simp [blocksFrom, List.length_flatMap]; omega

theorem blocksFrom_add (s : State) (k m n : Nat) :
    blocksFrom s k (m + n) = blocksFrom s k m ++ blocksFrom s (k + m) n := by
  rw [blocksFrom, ← List.range'_append_1, List.flatMap_append]; rfl

theorem blocksFrom_succ (s : State) (k n : Nat) :
    blocksFrom s k (n + 1) = blocksFrom s k 1 ++ blocksFrom s (k + 1) n := by
  rw [← blocksFrom_add, Nat.add_comm]

theorem blocksFrom_one (s : State) (k : Nat) : blocksFrom s k 1 = lebytes (outBlock (BitVec.ofNat 64 k) s).toList := by
  simp [blocksFrom]

/-- The digest may be cut from any number of blocks that is large enough. -/
theorem digest_eq_take {s : State} {len n : Nat} (hn : blockCount len ≤ n) :
    digest s len = (blocksFrom s 0 n).take len := by
  obtain ⟨d, rfl⟩ := Nat.exists_eq_add_of_le hn
  have hlen : len ≤ (blocksFrom s 0 (blockCount len)).length := by rw [length_blocksFrom, blockCount]; omega
  rw [blocksFrom_add, List.take_append_of_le_length hlen, digest, List.range_eq_range']
  rfl

/-- Settles O24: both digests are cut from the longer one's blocks. -/
theorem digestPrefixConsistency : Obligations.DigestPrefixConsistency := by
  intro s l1 l2 hle
  have hcount : blockCount l1 ≤ blockCount l2 := Nat.div_le_div_right (by omega)
  refine ⟨?_, ?_⟩
  · rw [digest_eq_take le_rfl, digest_eq_take hcount, List.take_take, min_eq_left hle]
  · rw [digest_eq_take le_rfl, List.length_take, length_blocksFrom, blockCount]
    omega

/-- The digest bytes of the output window are those of the block it holds. -/
theorem HoldsBlock.outDigestBytes_eq {k : Nat} {t : State} (h : HoldsBlock k t) :
    outDigestBytes t = (blocksFrom t k 1).take (t.xofLen.toNat - 64 * k) := by
  rw [outDigestBytes, h.outValid, h.out, blocksFrom_one, List.take_eq_take_iff, lebytes_length, Vector.length_toList]
  omega

/-- Where a further block has a byte of the digest, XOF_BLOCK puts that block into OUT (R230). -/
theorem HoldsBlock.exec_xofBlock {k : Nat} {t : State} (h : HoldsBlock k t) (hk : 64 * (k + 1) < t.xofLen.toNat) :
    exec .xofBlock t = .next (succeed (withNextBlock t)) ∧ HoldsBlock (k + 1) (succeed (withNextBlock t)) := by
  obtain ⟨hphase, hidx, _, _⟩ := h
  have hlen := t.xofLen.isLt
  have hidx' : t.xofIdx.toNat = k + 1 := by rw [hidx, BitVec.toNat_ofNat, Nat.mod_eq_of_lt (by omega)]
  refine ⟨exec_xofBlock_of_lt hphase (by rw [hidx', blockCount]; omega), hphase, ?xofIdx, ?out, ?outValid⟩
  case xofIdx => rw [succeed_xofIdx, withNextBlock, hidx]; exact (BitVec.ofNat_add (k + 1) 1).symm
  case out => rw [succeed_out, withNextBlock, hidx]; rfl
  case outValid => rw [succeed_outValid, withNextBlock, toNat_min64, hidx']; rfl

/-- What a host keeps from block `k` on: the blocks it sees, cut at the end of the digest (R232). -/
theorem collectXof_eq (n : Nat) : ∀ {k : Nat} {t : State}, HoldsBlock k t → 64 * (k + n) ≤ t.xofLen.toNat - 1 →
    collectXof n t = some ((blocksFrom t k (n + 1)).take (t.xofLen.toNat - 64 * k)) := by
  induction n with
  | zero => intro k t h _; exact congrArg some h.outDigestBytes_eq
  | succ n ih =>
    intro k t h hn
    obtain ⟨hexec, hnext⟩ := h.exec_xofBlock (by omega)
    have hrest : collectXof n (succeed (withNextBlock t)) =
        some ((blocksFrom t (k + 1) (n + 1)).take (t.xofLen.toNat - 64 * (k + 1))) :=
      ih hnext (show 64 * (k + 1 + n) ≤ t.xofLen.toNat - 1 by omega)
    rw [collectXof, hexec]
    simp only [succeed_errcode, if_true, hrest, Option.map_some, h.outDigestBytes_eq]
    rw [blocksFrom_succ t k (n + 1), List.take_append, length_blocksFrom, Nat.sub_sub, ← Nat.mul_add]

/-- Settles O23: FINALIZE leaves block 0 in OUT, and from there the host keeps the blocks of the digest. -/
theorem hostAssemblesDigest : Obligations.HostAssemblesDigest := by
  intro s t hi hp hl h
  obtain ⟨hholds, hlen⟩ := holdsBlock_of_finalize hi hp hl h
  rw [collectXof_eq _ hholds (by rw [hlen, blockCount]; omega), hlen, Nat.mul_zero, Nat.sub_zero,
    digest_eq_take (n := blockCount s.outlen.toNat - 1 + 1) (by omega)]

end Sys2Proof.Machine

namespace Sys2Proof

/-! ### What a word that does not decode holds (R263, R264) -/

/-- The five opcodes (R94). -/
theorem exists_opcode_iff {P : BitVec 8 → Prop} :
    (∃ i : Instr, P i.opcode) ↔ P 0x01 ∨ P 0x02 ∨ P 0x03 ∨ P 0x04 ∨ P 0x05 := by
  constructor
  · rintro ⟨i, h⟩
    cases i
    exacts [.inl h, .inr (.inl h), .inr (.inr (.inl h)), .inr (.inr (.inr (.inl h))), .inr (.inr (.inr (.inr h)))]
  · rintro (h | h | h | h | h)
    exacts [⟨.init, h⟩, ⟨.append 0, h⟩, ⟨.finalize, h⟩, ⟨.xofBlock, h⟩, ⟨.compress false, h⟩]

theorem opField_eq_iff (w : Word) (b : BitVec 8) : opField w = b ↔ w.toNat % 256 = b.toNat := by
  rw [← BitVec.toNat_inj, opField, BitVec.extractLsb'_toNat, Nat.shiftRight_zero]

theorem decode_eq_illegalOpcode_iff (w : Word) :
    decode w = .error .illegalOpcode ↔ ¬∃ i : Instr, opField w = i.opcode := by
  refine ⟨fun h => ?_, fun h => decode_of_no_opcode (not_exists.1 h)⟩
  rintro ⟨i, hi⟩
  rw [decode_of_opcode hi] at h
  split at h <;> cases h

theorem decode_eq_reservedBits_iff (w : Word) :
    decode w = .error .reservedBits ↔ ∃ i : Instr, opField w = i.opcode ∧ w &&& ~~~usedBits i.opcode ≠ 0 := by
  constructor
  · intro h
    by_cases hop : ∃ i : Instr, opField w = i.opcode
    · obtain ⟨i, hi⟩ := hop
      refine ⟨i, hi, fun hres => ?_⟩
      rw [decode_of_opcode hi, if_neg (not_not.2 hres)] at h
      cases h
    · rw [decode_of_no_opcode (not_exists.1 hop)] at h
      cases h
  · rintro ⟨i, hi, hres⟩
    rw [decode_of_opcode hi, if_pos hres]

/-- The decoder's errors (R93). -/
theorem decode_error {w : Word} {e : CmdError} (h : decode w = .error e) : e ∈ [.illegalOpcode, .reservedBits] := by
  by_cases hop : ∃ i : Instr, opField w = i.opcode
  · obtain ⟨i, hi⟩ := hop
    rw [decode_of_opcode hi] at h
    split at h <;> cases h
    decide
  · rw [decode_of_no_opcode (not_exists.1 hop)] at h
    cases h
    decide

/-- A mask of the `len` bits from bit `lo` on finds no bit exactly where the field that stands there is 0. -/
theorem and_fieldMask_eq_zero_iff (w : Word) {lo len : Nat} (h : lo + len ≤ 32) :
    w &&& ((BitVec.allOnes len).setWidth 32 <<< lo) = 0 ↔ w.extractLsb' lo len = 0 := by
  have hlt : (w.extractLsb' lo len).toNat * 2 ^ lo < 2 ^ 32 := by
    calc (w.extractLsb' lo len).toNat * 2 ^ lo < 2 ^ len * 2 ^ lo :=
          Nat.mul_lt_mul_of_pos_right (BitVec.isLt _) (by positivity)
      _ = 2 ^ (lo + len) := by rw [Nat.pow_add, Nat.mul_comm]
      _ ≤ 2 ^ 32 := Nat.pow_le_pow_right (by decide) h
  have hlen : (w.extractLsb' lo len).toNat < 2 ^ 32 := (Nat.le_mul_of_pos_right _ (by positivity)).trans_lt hlt
  rw [and_fieldMask, ← BitVec.toNat_inj, ← BitVec.toNat_inj, BitVec.toNat_shiftLeft, BitVec.toNat_setWidth,
    Nat.mod_eq_of_lt hlen, Nat.shiftLeft_eq, Nat.mod_eq_of_lt hlt]
  simp

/-- INIT, FINALIZE and XOF_BLOCK use bits 7:0 only (R264). -/
theorem reservedBits_opcodeOnly {op : BitVec 8} (h2 : op ≠ 0x02) (h5 : op ≠ 0x05) (w : Word) :
    w &&& ~~~usedBits op ≠ 0 ↔ w.extractLsb' 8 24 ≠ 0 := by
  rw [usedBits, if_neg h2, if_neg h5]
  exact (and_fieldMask_eq_zero_iff w (lo := 8) (len := 24) (by decide)).not

/-- APPEND uses bits 14:0 (R264). -/
theorem reservedBits_append (w : Word) : w &&& ~~~usedBits 0x02 ≠ 0 ↔ w.extractLsb' 15 17 ≠ 0 :=
  (and_fieldMask_eq_zero_iff w (lo := 15) (len := 17) (by decide)).not

/-- COMPRESS uses bits 7:0 and bit 15 (R264). -/
theorem reservedBits_compress (w : Word) :
    w &&& ~~~usedBits 0x05 ≠ 0 ↔ w.extractLsb' 16 16 ≠ 0 ∨ w.extractLsb' 8 7 ≠ 0 := by
  have hmask : ~~~usedBits 0x05 =
      (BitVec.allOnes 16).setWidth 32 <<< 16 ||| (BitVec.allOnes 7).setWidth 32 <<< 8 := by decide
  have hfields : w &&& ~~~usedBits 0x05 = 0 ↔ w.extractLsb' 16 16 = 0 ∧ w.extractLsb' 8 7 = 0 := by
    rw [hmask, BitVec.and_or_distrib_left, ← and_fieldMask_eq_zero_iff w (by decide),
      ← and_fieldMask_eq_zero_iff w (by decide)]
    exact BitVec.or_eq_zero_iff
  rw [Ne, hfields, not_and_or]

/-- A word that does not decode executes nothing: its completion step writes the error record alone (R93, R268). -/
theorem coreStep_of_decode_error {s : Machine.State} {e : CmdError} (h : decode s.cmdLatch = .error e) :
    Machine.coreStep s = .next (Machine.raiseError e s) := by
  rw [Machine.coreStep, h]

/-- Settles O32: the opcodes are 1 to 5, and a decode error executes nothing. -/
theorem illegalOpcodeExactly : Obligations.IllegalOpcodeExactly := by
  intro w
  refine ⟨?_, ?_⟩
  · rw [decode_eq_illegalOpcode_iff, exists_opcode_iff (P := (opField w = ·))]
    simp only [opField_eq_iff, BitVec.reduceToNat]
    omega
  · rintro s rfl h
    exact coreStep_of_decode_error h

/-- Settles O33: opcode by opcode, the bits it does not use are the fields named. -/
theorem reservedBitsExactly : Obligations.ReservedBitsExactly := by
  intro w
  refine ⟨?_, ?_⟩
  · rw [decode_eq_reservedBits_iff, exists_opcode_iff (P := fun op => opField w = op ∧ w &&& ~~~usedBits op ≠ 0),
      reservedBits_append, reservedBits_compress, reservedBits_opcodeOnly (op := 0x01) (by decide) (by decide),
      reservedBits_opcodeOnly (op := 0x03) (by decide) (by decide),
      reservedBits_opcodeOnly (op := 0x04) (by decide) (by decide)]
    simp only [opField_eq_iff, BitVec.reduceToNat]
    tauto
  · rintro s rfl h
    exact coreStep_of_decode_error h

end Sys2Proof

namespace Sys2Proof.Machine

/-! ### The results of a command (R261, R268) -/

/-- The errors a command can raise (R261). -/
def commandErrors : Instr → List CmdError
  | .init => []
  | .append _ => [.finalized, .appendLength, .counterOverflow]
  | .finalize => [.finalized, .invalidOutputLength]
  | .xofBlock => [.notFinalized, .xofRange]
  | .compress _ => []

theorem commandCheck_mem_commandErrors {i : Instr} {s : State} {e : CmdError} (h : commandCheck i s = some e) :
    e ∈ commandErrors i := by
  cases i with
  | init | compress _ => cases h
  | append n | finalize | xofBlock =>
    rw [commandCheck] at h
    split_ifs at h <;> cases h <;> simp [commandErrors]

/-- A command that answers ends in code 0 or in the code of an error it can raise (R261). -/
theorem exec_errcode {i : Instr} {s t : State} (h : exec i s = .next t) :
    t.errcode ∈ 0 :: (commandErrors i).map errorCode := by
  rcases exec_next h with ⟨e, hc, rfl⟩ | ⟨_, u, _, rfl⟩
  · exact List.mem_cons_of_mem _ (List.mem_map_of_mem (commandCheck_mem_commandErrors hc))
  · exact List.mem_cons_self

/-- Settles O37: the codes of each command's list of errors, and of the decoder's. -/
theorem resultCodesByCommand : Obligations.ResultCodesByCommand := by
  refine ⟨fun s t h => List.mem_singleton.1 (exec_errcode h), fun s t n h => exec_errcode h,
    fun s t h => exec_errcode h, fun s t h => exec_errcode h, fun s t c h => List.mem_singleton.1 (exec_errcode h),
    fun s t e hd h => ?_⟩
  rw [coreStep_of_decode_error hd] at h
  injection h with h
  exact h ▸ List.mem_map_of_mem (f := errorCode) (decode_error hd)

/-- Settles O36: a completion that answers has raised an error, which writes the error record alone, or has succeeded,
which gives code 0; with BUSY = 0 the write of CMD is allowed. -/
theorem commandErrorsArePrecise : Obligations.CommandErrorsArePrecise := by
  intro s t h hne
  refine ⟨?_, fun w => ⟨_, busWrite_offset (coreStep_busy h) .cmd w, rfl, rfl⟩⟩
  obtain ⟨e, rfl⟩ | ⟨i, u, _, _, _, rfl⟩ := coreStep_next h
  · rfl
  · exact absurd rfl hne

/-! ### No command meets an unreachable state (R271) -/

/-- Under the invariant a command that passes its checks does its work (R28, R271). -/
theorem commandWork_ok {i : Instr} {s : State} (hi : Inv s) (hc : commandCheck i s = none) :
    ∃ u, commandWork i s = .ok u := by
  cases i with
  | init | xofBlock | compress _ => exact ⟨_, rfl⟩
  | append n =>
    obtain ⟨hp, hn, hroom⟩ := commandCheck_append hc
    have hlen := appendOperand_length hn s
    obtain ⟨g, hg, _⟩ := appendBytes_ok hi.hasher (hlen.trans_le hn) (hi.spPopcount hp) (by rwa [hlen])
    exact ⟨_, map_eq_ok.2 ⟨g, hg, rfl⟩⟩
  | finalize =>
    have hp := commandCheck_finalize hc
    obtain ⟨r, hr, _⟩ := selectRoot_ok hi.hasher (hi.spPopcount hp) (hi.bufNonempty hp)
    exact ⟨_, map_eq_ok.2 ⟨r, hr, rfl⟩⟩

theorem exec_of_commandWork {i : Instr} {s u : State} (hc : commandCheck i s = none) (hw : commandWork i s = .ok u) :
    exec i s = .next (succeed u) := by
  rw [exec_eq, hc, hw]
  rfl

theorem exec_answers {i : Instr} {s : State} (hi : Inv s) : ∃ t, exec i s = .next t := by
  cases hc : commandCheck i s with
  | some e => exact ⟨_, exec_of_commandCheck hc⟩
  | none =>
    obtain ⟨u, hw⟩ := commandWork_ok hi hc
    exact ⟨_, exec_of_commandWork hc hw⟩

/-- Settles O57: the first clause is the invariant's, the others are the guards of the operations they name. -/
theorem noCommandMeetsUnreachableState : Obligations.NoCommandMeetsUnreachableState :=
  ⟨fun _ _ hi => exec_answers hi, fun _ hb => if_pos hb, fun _ _ _ _ _ hlen => if_pos hlen,
    fun _ _ hfull => if_pos hfull, fun _ hempty => if_pos hempty⟩

/-! ### FINALIZE of a signed length (R266) -/

/-- The sign of OUTLEN is its bit 63 (R266). -/
theorem requestedLength_neg_iff (s : State) : requestedLength s < 0 ↔ s.outlen.getLsbD 63 = true := by
  have hsign : s.outlen.getLsbD 63 = decide (requestedLength s < 0) :=
    (BitVec.msb_eq_getLsbD_last s.outlen).symm.trans BitVec.msb_eq_toInt
  rw [hsign, decide_eq_true_iff]

/-- Under the invariant an Accepting FINALIZE whose OUTLEN has bit 63 clear stores a root (R220, R266). -/
theorem exec_finalize_of_nonneg {s : State} (hi : Inv s) (hp : s.phase = .accepting)
    (hsign : s.outlen.getLsbD 63 = false) : ∃ r, exec .finalize s = .next (withRoot r s) := by
  have hl : ¬requestedLength s < 0 := by rw [requestedLength_neg_iff, hsign]; exact Bool.false_ne_true
  obtain ⟨r, hr, _⟩ := selectRoot_ok hi.hasher (hi.spPopcount hp) (hi.bufNonempty hp)
  exact ⟨r, exec_finalize_of_selectRoot hp (not_lt.1 hl) hr⟩

/-- Settles O13: bit 63 is the sign that FINALIZE checks, and a root stored for length 0 shows no byte. -/
theorem negativeLengthIsTheOnlyFinalizeError : Obligations.NegativeLengthIsTheOnlyFinalizeError := by
  intro s hi hp
  refine ⟨fun hsign => exec_of_commandCheck (e := .invalidOutputLength) ?negative, fun hsign => ?succeeds,
    fun h0 => ?empty⟩
  case negative => rw [commandCheck, if_neg (by simp [hp]), if_pos ((requestedLength_neg_iff s).2 hsign)]
  case succeeds =>
    obtain ⟨r, hr⟩ := exec_finalize_of_nonneg hi hp hsign
    exact ⟨_, hr, rfl⟩
  case empty =>
    obtain ⟨r, hr⟩ := exec_finalize_of_nonneg hi hp (by rw [h0]; decide)
    have hlen : requestedLength s = 0 := by rw [requestedLength, h0]; decide
    have hvalid : (withRoot r s).outValid = 0 := by rw [withRoot, succeed_outValid, storeRoot_outValid, hlen]; decide
    have hbytes : outDigestBytes (withRoot r s) = [] := by rw [outDigestBytes, hvalid]; rfl
    exact ⟨_, hr, rfl, hvalid, hbytes, rfl⟩

end Sys2Proof.Machine

namespace Sys2Proof.Machine

/-! ### A command in flight and an idle host (R295, R296) -/

theorem coreStep_of_decode_ok {s : State} {i : Instr} (h : decode s.cmdLatch = .ok i) : coreStep s = exec i s := by
  rw [coreStep, h]

/-- Under the invariant every completion step answers, in a decode error or as its command does (R93, R271). -/
theorem coreStep_answers {s : State} (hi : Inv s) : ∃ t, coreStep s = .next t := by
  cases hd : decode s.cmdLatch with
  | error e => exact ⟨_, coreStep_of_decode_error hd⟩
  | ok i => rw [coreStep_of_decode_ok hd]; exact exec_answers hi

/-- A host whose program has ended lets the latency pass (R295; log 12). -/
theorem hostStep_of_ended {s : State} (hend : s.host.prog[s.host.pos]? = none) : hostStep s = .next (tick s) := by
  rw [hostStep, hend]

theorem tick_coreDelay_of_busy {s : State} (hb : s.busy = true) : (tick s).coreDelay = s.coreDelay - 1 := by
  rw [tick, if_pos hb]

/-- With `d` host steps left, an ended host and the invariant, BUSY is 0 after `d + 1` steps. -/
theorem runSteps_completes (d : Nat) : ∀ {s : State}, Inv s → s.busy = true → s.host.prog[s.host.pos]? = none →
    s.coreDelay = d → ∃ t, runSteps (d + 1) s = .next t ∧ t.busy = false := by
  induction d with
  | zero =>
    intro s hi hb _ hd
    obtain ⟨t, ht⟩ := coreStep_answers hi
    exact ⟨t, by rw [runSteps, step_of_core hb hd, ht]; rfl, coreStep_busy ht⟩
  | succ d ih =>
    intro s hi hb hend hd
    have hstep : step s = .next (tick s) := by rw [step_of_host (.inr (by omega)), hostStep_of_ended hend]
    have hleft : (tick s).coreDelay = d := by rw [tick_coreDelay_of_busy hb]; omega
    obtain ⟨t, ht, hidle⟩ := ih hi.tick (by rw [tick_busy, hb]) (by rw [tick_host, hend]) hleft
    exact ⟨t, by rw [runSteps, hstep]; exact ht, hidle⟩

/-- Settles O59: the latency is counted down by the ended host, and the completion step answers under the invariant. -/
theorem commandCompletesUnderIdleHost : Obligations.CommandCompletesUnderIdleHost :=
  fun s hi hb hend => runSteps_completes s.coreDelay hi hb hend rfl

/-- Settles O35. -/
theorem stepRunsDecodedCommand : Obligations.StepRunsDecodedCommand :=
  fun _ _ hb hd hi => (step_of_core hb hd).trans (coreStep_of_decode_ok hi)

/-! ### Reset (R290, R291) -/

/-- A BUF debug word of an empty buffer is the free value of the draw count (R69; log 3). -/
theorem bufViewWord_of_empty {s : State} (h : s.hasher.bufLen = 0) (j : Nat) :
    bufViewWord s j = Config.freeWord s.draws := by
  have hbyte : ∀ k, k < 4 → bufViewByte s (4 * j + k) = wordByte (Config.freeWord s.draws) k := fun k hk => by
    rw [bufViewByte, if_neg (by simp [h]), show (4 * j + k) % 4 = k by omega]
  have hbyte0 : bufViewByte s (4 * j) = wordByte (Config.freeWord s.draws) 0 := hbyte 0 (by omega)
  rw [bufViewWord, hbyte0, hbyte 1 (by omega), hbyte 2 (by omega), hbyte 3 (by omega), le32_wordByte]

/-- A STACK debug word of an empty stack is the free value of the draw count (R69; log 3). -/
theorem stackViewWord_of_empty {s : State} (h : s.hasher.cvSp = 0) (e : Nat) (w : Fin 8) :
    stackViewWord s e w = Config.freeWord s.draws := by
  rw [stackViewWord, if_neg (by simp [h])]

/-- Settles O1: the registers are those of the reset state, and with BUF_LEN and CV_SP at 0 no debug view has a live
byte. -/
theorem resetPutsEveryElementToResetValue : Obligations.ResetPutsEveryElementToResetValue := by
  refine fun s => ⟨rfl, rfl, rfl, rfl, rfl, rfl, rfl, rfl, rfl, rfl, rfl, rfl, rfl, rfl, rfl, rfl, rfl, rfl, rfl, rfl, rfl,
    rfl, rfl, rfl, fun _ => rfl, fun _ => rfl, fun j => ⟨bufViewWord_of_empty rfl j, ?_⟩,
    fun e w => ⟨stackViewWord_of_empty rfl e w, ?_⟩, rfl⟩
  · exact decide_eq_true (Nat.succ_pos (4 * j.val + 3))
  · exact decide_eq_true (Nat.zero_le e.val)

/-! ### An idle block becomes BUSY only by a write of CMD (R291, R294) -/

/-- A branch leaves BUSY alone (R96). -/
theorem jump_busy {l : Nat} {s t : State} (h : jump l s = .next t) : t.busy = s.busy := by
  rw [jump] at h
  split at h
  · injection h with h; subst h; rfl
  · cases h

theorem jumpIf_busy {c : Bool} {l : Nat} {s t : State} (h : jumpIf c l s = .next t) : t.busy = s.busy := by
  cases c with
  | true => exact jump_busy h
  | false => injection h with h; subst h; rfl

/-- Only a write of CMD issues a command (R64, R66, R67). -/
theorem writeLoc_busy {l : Loc} (hl : l ≠ .cmd) (v : Word) (s : State) : (writeLoc v s l).busy = s.busy := by
  cases hop : l.isOperand with
  | true => exact writeLoc_operand_busy hop v s
  | false => rw [writeLoc_ignored hop hl]

/-- An access that is allowed is aligned, 32 bits wide and inside the window (R60, R65). -/
theorem aligned_of_checkAccess {isRead : Bool} {off width : Nat} {s : State}
    (h : checkAccess isRead off width s = .ok ()) : width = 4 ∧ off % 4 = 0 ∧ off < 0x1000 := by
  rw [checkAccess] at h
  split_ifs at h with halign hwindow
  exact ⟨by omega, by omega, not_le.1 hwindow⟩

/-- A write that answers is a write of what stands at its aligned offset (R64, R65). -/
theorem busWrite_ok {off width : Nat} {v : Word} {s t : State} (h : busWrite off width v s = .ok t) :
    width = 4 ∧ off % 4 = 0 ∧ off < 0x1000 ∧ t = writeLoc v s (locate off) := by
  cases hc : checkAccess false off width s with
  | error f => rw [busWrite, hc] at h; cases h
  | ok u =>
    rw [busWrite, hc] at h
    injection h with h
    obtain ⟨hwidth, ha, hw⟩ := aligned_of_checkAccess hc
    exact ⟨hwidth, ha, hw, h.symm⟩

/-- A write that makes an idle block BUSY is the 32-bit write of CMD, and its word is latched (R294). -/
theorem busWrite_becomes_busy {off width : Nat} {v : Word} {s t : State} (hb : s.busy = false)
    (h : busWrite off width v s = .ok t) (ht : t.busy = true) : off = 0 ∧ width = 4 ∧ t.cmdLatch = v := by
  obtain ⟨hwidth, ha, hw, rfl⟩ := busWrite_ok h
  by_cases h0 : off = 0
  · subst h0; exact ⟨rfl, hwidth, rfl⟩
  · rw [writeLoc_busy (locate_ne_cmd ha hw h0), hb] at ht; cases ht

/-- A read changes nothing but the count of draws (R68; log 3). -/
theorem busRead_ok {off width : Nat} {v : Word} {s t : State} (h : busRead off width s = .ok (v, t)) :
    t = { s with draws := t.draws } := by
  cases hc : checkAccess true off width s with
  | error f => rw [busRead, hc] at h; cases h
  | ok u =>
    rw [busRead, hc] at h
    injection h with h
    injection h with _ ht
    rw [← ht]
    exact stateAfterRead_eq s _

/-- A statement that makes an idle block BUSY is the 32-bit write of CMD (R96, R294). -/
theorem execHost_becomes_busy {st : HostStmt} {s t : State} (hb : s.busy = false) (h : execHost st s = .next t)
    (ht : t.busy = true) : ∃ w, st = .wr 0x000 4 w ∧ t.cmdLatch = w := by
  have absurd_of_keeps {P : Prop} (hkeep : t.busy = s.busy) : P := by rw [hkeep, hb] at ht; cases ht
  cases st with
  | wr off width v =>
    cases hwr : busWrite off width v s with
    | error f => rw [execHost, hwr] at h; cases h
    | ok u =>
      rw [execHost, hwr] at h
      injection h with h
      subst h
      obtain ⟨rfl, rfl, hlatch⟩ := busWrite_becomes_busy hb hwr ht
      exact ⟨v, rfl, hlatch⟩
  | rd x off width =>
    cases hrd : busRead off width s with
    | error f => rw [execHost, hrd] at h; cases h
    | ok r =>
      obtain ⟨v, u⟩ := r
      rw [execHost, hrd] at h
      injection h with h
      subst h
      have hkeep : u.busy = s.busy := by rw [busRead_ok hrd]
      exact absurd_of_keeps hkeep
  | b l => exact absurd_of_keeps (jump_busy h)
  | bnz x mask l | bz x mask l | blt x y l => exact absurd_of_keeps (jumpIf_busy h)
  | label l | addi x y imm | keepStart | keep => injection h with h; exact absurd_of_keeps (h ▸ rfl)
  | reset => injection h with h; subst h; cases ht

/-- A host step that makes an idle block BUSY is the 32-bit write of CMD. -/
theorem hostStep_becomes_busy {s t : State} (hb : s.busy = false) (h : hostStep s = .next t) (ht : t.busy = true) :
    ∃ w, s.host.prog[s.host.pos]? = some (.wr 0x000 4 w) ∧ t.cmdLatch = w := by
  have hidle : (tick s).busy = false := by rw [tick_busy, hb]
  cases hst : s.host.prog[s.host.pos]? with
  | none =>
    rw [hostStep_of_ended hst] at h
    injection h with h
    subst h
    rw [hidle] at ht; cases ht
  | some st =>
    rw [hostStep, hst] at h
    obtain ⟨w, rfl, hlatch⟩ := execHost_becomes_busy hidle h ht
    exact ⟨w, rfl, hlatch⟩

/-- Settles O2: the reset statement leaves the reset state, in which no command is due, and the only statement that makes
an idle block BUSY is the write of CMD. -/
theorem resetWhileBusyAbandonsCommand : Obligations.ResetWhileBusyAbandonsCommand := by
  refine ⟨fun s _ => ⟨_, rfl, rfl, rfl⟩, fun s _ hd hreset => ⟨advance (blockReset (tick s)), ?stepResets, ?reset, rfl⟩,
    fun s hb => ?idle, fun s t hb h ht => ?issue⟩
  case stepResets => rw [step_of_host (.inr hd), hostStep, hreset]; rfl
  case reset => rw [← tick_draws s]; rfl
  case idle => rw [coreTurn, hb]; rfl
  case issue =>
    rw [step_of_host (.inl hb)] at h
    exact hostStep_becomes_busy hb h ht

/-- Settles O54. -/
theorem invHoldsAtReset : Obligations.InvHoldsAtReset := inv_reset

/-! ### Hazards: accesses around a command, and COMPRESS among the XOF_BLOCKs (R294, R297, R300) -/

/-- Settles O41. -/
theorem cmdWriteIssuesCommand : Obligations.CmdWriteIssuesCommand :=
  fun _ w hb => ⟨_, busWrite_offset hb .cmd w, rfl⟩

/-- While BUSY = 1 every aligned access of the window but a read of STATUS faults (R297). -/
theorem checkAccess_busy {s : State} (hb : s.busy = true) {off : Nat} (ha : off % 4 = 0) (hw : off < 0x1000)
    {isRead : Bool} (h : ¬(isRead = true ∧ off = 0x004)) : checkAccess isRead off 4 s = .error (.busyAccess off) := by
  rw [checkAccess, if_neg (by simp [ha]), if_neg (not_le.2 hw), if_pos ⟨hb, h⟩]

/-- Settles O47. -/
theorem busyAllowsOnlyStatusReads : Obligations.BusyAllowsOnlyStatusReads := by
  intro s off v hb ha hw
  obtain ⟨_, hbit, _⟩ := statusBits s
  refine ⟨busRead_status s, hbit.trans hb, fun hne => ?read, ?write⟩
  case read => rw [busRead, checkAccess_busy hb ha hw fun h => hne h.2]; rfl
  case write => rw [busWrite, checkAccess_busy hb ha hw fun h => absurd h.1 Bool.false_ne_true]; rfl

/-- Settles O28: COMPRESS writes OUT and OUT_VALID, and XOF_BLOCK reads neither. -/
theorem compressLeavesXofUnchanged : Obligations.CompressLeavesXofUnchanged := by
  intro s u v c hu hp hk hv
  obtain rfl : succeed (withCompression c s) = u := Host.Outcome.next.inj hu
  obtain rfl : succeed (withNextBlock s) = v := Host.Outcome.next.inj ((exec_xofBlock_of_lt hp hk).symm.trans hv)
  exact ⟨_, exec_xofBlock_of_lt (s := succeed (withCompression c s)) hp hk, rfl, rfl, rfl⟩

end Sys2Proof.Machine
